-- ==== Sys2Proof/Word.lean ====
section
/-! DEFINITION. The word types of the emusc synthesis core: the byte, the 32-bit command and result word (rule R80),
and the 32-bit encoding of a binary32 value (rule R10). Arithmetic on binary32 stands in Machine/Float.lean. -/

namespace Sys2Proof

/-- A byte (u8, rule R9). -/
abbrev Byte := BitVec 8

/-- A 32-bit command or result word (rule R80). -/
abbrev Word := BitVec 32

/-- A binary32 value (rule R10), held as its encoding: `bits(a)` of the spec is the field. -/
structure F32 where
  bits : BitVec 32
  deriving DecidableEq, Repr, Inhabited

/-- `+0.0` (rule R10). -/
def F32.zero : F32 := ⟨0x00000000⟩

/-- `-0.0` (rule R10). -/
def F32.negZero : F32 := ⟨0x80000000⟩

/-- `1.0` (rule R181: the envelope's peak level). -/
def F32.one : F32 := ⟨0x3F800000⟩

end Sys2Proof
end

