-- ==== Sys2Proof/Config.lean ====
section
/-! DEFINITION. The implementation parameters of rule R7: the constants with a value, and the OPEN parameters and
configuration functions as the fields of `Cfg`, of which the machine has one that nothing is known of (`Config.hw`).
The types of the fields admit exactly the values the spec admits (rules R59, R60, R144), so no ill-formed
configuration can be written. -/

namespace Sys2Proof

/-- NUM_PARTS (rule R7). -/
abbrev Config.numParts : Nat := 16

/-- NSLOTS, the note slots of one part (rule R7). -/
abbrev Config.numSlots : Nat := 24

/-- NUM_GEN (rule R7). -/
abbrev Config.numGens : Nat := 3

/-- BANK_SIZE in bytes (rule R7). -/
abbrev Config.bankSize : Nat := 2 ^ 20

/-- HEADER_SIZE: the unencrypted bytes at the start of each bank (rule R7). -/
abbrev Config.headerSize : Nat := 0x20

/-- MAX_BANKS (rule R7). -/
abbrev Config.maxBanks : Nat := 16

/-- NMETA stays below this (rule R21). -/
abbrev Config.metaLimit : Nat := 2 ^ 24

/-- How many parameter registers PR a part has: ids 0x00 to 0x17 (rule R27). -/
abbrev Config.numParams : Nat := 24

/-- A part's index, 0 .. NUM_PARTS-1 (rule R20). -/
abbrev PartIx := Fin Config.numParts

/-- A note slot's index in its part (rule R29). -/
abbrev SlotIx := Fin Config.numSlots

/-- MODE (rule R28): 0 Normal, 1 Drum1, 2 Drum2. -/
inductive Mode where
  | normal
  | drum1
  | drum2
  deriving DecidableEq, Repr, Inhabited

/-- A note's snapshot `snap` (rule R31): PR[p][0x00..0x17], PROG and MODE as they were at NOTE_ON. -/
structure Snap where
  pr   : Vector Byte Config.numParams
  prog : BitVec 16
  mode : Mode
  deriving DecidableEq, Repr

/-- `LIVE(p)` (rule R140): the live registers of a part that the configuration functions receive. -/
structure Live where
  pr   : Vector Byte Config.numParams
  prog : BitVec 16
  mode : Mode
  bend : BitVec 14
  mod  : BitVec 7
  expr : BitVec 7
  hold : Bool
  chp  : BitVec 7
  pkp  : Vector (BitVec 7) 128
  deriving DecidableEq, Repr

/-- A finite binary32 in [0.0, 1.0] with its sign bit clear (rules R181, R188), numbered by its encoding:
the encodings 0x00000000 (+0.0) to 0x3F800000 (1.0) are these values in order. -/
abbrev UnitCode := Fin 0x3F800001

/-- A finite binary32 that is >= 0 (VOICE_GAIN, rule R7): the encodings 0x00000000 to 0x7F7FFFFF, and one code
more for -0.0, which also compares >= 0. -/
abbrev GainCode := Fin 0x7F800001

/-- What ENV_PARAMS returns (rules R144, R181; assumption log 13): four u24 durations in TICKs and the sustain level. -/
structure EnvParams where
  tA  : BitVec 24
  tH  : BitVec 24
  tD  : BitVec 24
  sus : UnitCode
  tR  : BitVec 24
  deriving DecidableEq, Repr, Inhabited

/-- The bank ids a bank map may define (rule R60 C1): 0, 1, 2 and 4. -/
inductive BankId where
  | id0
  | id1
  | id2
  | id4
  deriving DecidableEq, Repr, Inhabited

/-- The base offsets generations 0 and 1 may use (rule R60 C3): 0x000000 and 0x100000. -/
inductive LowBase where
  | base0
  | base1
  deriving DecidableEq, Repr, Inhabited

/-- The base offsets of rule R60 C2: 0x000000, 0x100000 and 0x200000. -/
inductive BankBase where
  | base0
  | base1
  | base2
  deriving DecidableEq, Repr, Inhabited

/-- The OPEN parameters and the configuration functions of rule R7. All functions are total and depend on their
arguments alone (rule R8). -/
structure Cfg where
  /-- ADDR_PERM, a bijection of the 20 address bits (rules R56, R59). -/
  addrPerm : Equiv.Perm (Fin 20)
  /-- DATA_PERM, a bijection of the 8 data bits (rules R57, R59). -/
  dataPerm : Equiv.Perm (Fin 8)
  /-- BANK_BASE of generations 0 and 1, one map for both (rule R60 C3). -/
  bankLow : BankId → Option LowBase
  /-- BANK_BASE of generation 2, at every id but `bankThird` (rule R60). -/
  bankHigh : BankId → Option BankBase
  /-- An id that generation 2 maps to 0x200000: its map takes that value (rule R60 C3; assumption log 12). -/
  bankThird : BankId
  /-- SAMPLE_RATE: read by the configuration functions only (rule R7). -/
  sampleRate : Nat
  /-- FRAME_DEADLINE: no rule depends on it (rules R7, R269). -/
  frameDeadline : Nat
  /-- SAMPLE_SELECT: (part registers, key) to a sample-set index or none. -/
  sampleSelect : Live → BitVec 7 → Option (BitVec 24)
  /-- PROGRAM_VALID. -/
  programValid : BitVec 16 → Bool
  /-- PROGRAM_MODE; none is the spec's "unchanged". -/
  programMode : BitVec 16 → Option Mode
  /-- ENV_PARAMS: (part registers, sample-set index, key, velocity) to the envelope's durations and level. -/
  envParams : Live → BitVec 24 → BitVec 7 → BitVec 7 → EnvParams
  /-- PITCH_INC: (snapshot, live registers, XPOSE) to a UQ16.16 increment. -/
  pitchInc : Snap → Live → Byte → BitVec 32
  /-- VOICE_GAIN: (snapshot, live registers) to a finite binary32 >= 0. -/
  voiceGain : Snap → Live → GainCode
  deriving Inhabited

/-- The parameters this hardware has: OPEN (rule R7), so no value of any field is known (assumption log 1). -/
opaque Config.hw : Cfg

/-- The sign bit of the default NaN: open (rule R10, item I14; assumption log 2). -/
opaque Config.nanSign : Bool

/-- The payload of the default NaN below its quiet bit: open (rule R10, item I14; assumption log 2). -/
opaque Config.nanPayload : BitVec 22

/-- The encoding below the sign bit of what `maxf` gives when an operand is a NaN: rule R10 defines it for values that
are not NaN only; the sign bit is clear, since PEAK's never is set (rule R213; assumption log 3). -/
opaque Config.maxOfNan : F32 → F32 → BitVec 31

end Sys2Proof
end

