-- ==== Sys2Proof/Syntax.lean ====
section
/-! DEFINITION. The commands of the block (rule R86): one constructor for each row of the opcode table, with the
operands that row uses. Operands a command ignores (rule R83) are not part of it. Also the pseudo-instructions of
rule R91, which are lists of commands. -/

namespace Sys2Proof

/-- A command of the command port, with its operands as the encoding carries them (rules R81 to R83, R86). -/
inductive Instr where
  /-- NOP, rule R100. -/
  | nop
  /-- DEC_SETGEN g, rule R101. -/
  | decSetgen (g : BitVec 2)
  /-- DEC_START, rule R102. -/
  | decStart
  /-- DEC_STATUS, rule R112. -/
  | decStatus
  /-- DEC_ADDR o, rule R113. -/
  | decAddr (o : BitVec 20)
  /-- DEC_DATA x, rule R114. -/
  | decData (x : Byte)
  /-- DEC_BANK addr, rule R115. -/
  | decBank (addr : BitVec 24)
  /-- DEC_META idx, rule R116. -/
  | decMeta (idx : BitVec 4)
  /-- DEC_SEL k, rule R117. -/
  | decSel (k : BitVec 24)
  /-- DEC_READ i, rule R118. -/
  | decRead (i : BitVec 24)
  /-- DEC_INFO f, rule R119. -/
  | decInfo (f : BitVec 3)
  /-- NOTE_ON p, key, vel, rule R141. -/
  | noteOn (p : PartIx) (key vel : Byte)
  /-- NOTE_OFF p, key, rule R145. -/
  | noteOff (p : PartIx) (key : Byte)
  /-- CTRL p, controller, value, rule R146. -/
  | ctrl (p : PartIx) (controller value : Byte)
  /-- PROG p, index_lo, index_hi, rule R149. -/
  | prog (p : PartIx) (indexLo indexHi : Byte)
  /-- CHPRESS p, value, rule R150. -/
  | chpress (p : PartIx) (value : Byte)
  /-- POLYPRESS p, key, value, rule R151. -/
  | polypress (p : PartIx) (key value : Byte)
  /-- BEND p, lsb, msb, rule R152. -/
  | bend (p : PartIx) (lsb msb : Byte)
  /-- ALLOFF p, rule R153. -/
  | alloff (p : PartIx)
  /-- PRESET p, rule R154. -/
  | preset (p : PartIx)
  /-- MUTE p, m, rule R155. -/
  | mute (p : PartIx) (m : Byte)
  /-- SETPARAM p, id, value, rule R156. -/
  | setparam (p : PartIx) (id value : Byte)
  /-- GETPARAM p, id, rule R157. -/
  | getparam (p : PartIx) (id : Byte)
  /-- HELDQ p, key, rule R158. -/
  | heldq (p : PartIx) (key : Byte)
  /-- VOICEQ p, slot, rule R159. -/
  | voiceq (p : PartIx) (slot : Byte)
  /-- PKPQ p, key, rule R160. -/
  | pkpq (p : PartIx) (key : Byte)
  /-- TICK p, rule R208. -/
  | tick (p : PartIx)
  /-- PEAK p, rule R213. -/
  | peak (p : PartIx)
  /-- MIX_CLEAR, rule R214. -/
  | mixClear
  /-- MIX_READ, rule R215. -/
  | mixRead
  /-- SET_XPOSE v, rule R161. -/
  | setXpose (v : Byte)
  deriving DecidableEq, Repr

/-- The pseudo-instructions of rule R91. -/
inductive Pseudo where
  | holdOn (p : PartIx)
  | holdOff (p : PartIx)
  | volume (p : PartIx) (v : Byte)
  | setMono (p : PartIx)
  | setPoly (p : PartIx)
  | bend14 (p : PartIx) (v : BitVec 14)
  | prog16 (p : PartIx) (i : BitVec 16)
  | frame
  deriving DecidableEq, Repr

end Sys2Proof
end

