-- ==== Sys2Proof/WellFormed.lean ====
section
/-! DEFINITION. Well-formed commands: the operands are none that the command's own rule rejects in every state
(priority (4) of rule R237, the part that needs no state). The field widths of rules R81 to R83 are in the types of
`Instr`. A command that is not well-formed still decodes and still executes: it is rejected (rule R233). Operands
that a MIDI command drops (rule R234) are well-formed. -/

namespace Sys2Proof

/-- The legal values of a parameter register (table of rule R27), by its id. -/
def legalParam (id value : Byte) : Bool :=
  match id.toNat with
  | 0x00 => value.toNat ≤ 15
  | 0x14 => value.toNat ≤ 1
  | 0x15 => value.toNat ≤ Config.numSlots
  | 0x16 => value.toNat ≤ 1
  | n => n < Config.numParams && value.toNat ≤ 127

/-- The ids GETPARAM reads (rules R27, R28, R157): 0x00 to 0x17 and 0x20 to 0x2A. -/
def readableParam (id : Byte) : Bool :=
  id.toNat < Config.numParams || (0x20 ≤ id.toNat && id.toNat ≤ 0x2A)

/-- No operand is one that the command's own rule rejects whatever the state. -/
def Instr.wellFormed : Instr → Bool
  | .nop => true
  | .decSetgen g => g.toNat < Config.numGens
  | .decStart => true
  | .decStatus => true
  | .decAddr _ => true
  | .decData _ => true
  | .decBank _ => true
  | .decMeta idx => idx.toNat ≤ 13
  | .decSel _ => true
  | .decRead _ => true
  | .decInfo f => f.toNat ≤ 5
  | .noteOn _ _ _ => true
  | .noteOff _ _ => true
  | .ctrl _ _ _ => true
  | .prog _ _ _ => true
  | .chpress _ _ => true
  | .polypress _ _ _ => true
  | .bend _ _ _ => true
  | .alloff _ => true
  | .preset _ => true
  | .mute _ m => m.toNat ≤ 1
  | .setparam _ id value => legalParam id value
  | .getparam _ id => readableParam id
  | .heldq _ key => key.toNat ≤ 127
  | .voiceq _ slot => slot.toNat < Config.numSlots
  | .pkpq _ key => key.toNat ≤ 127
  | .tick _ => true
  | .peak _ => true
  | .mixClear => true
  | .mixRead => true
  | .setXpose v => v.toNat ≤ 127

end Sys2Proof
end

