-- ==== Sys2Proof/Decode.lean ====
section
/-! DEFINITION. The command port's encoding (30_encoding.md): the byte order of a carried word (rule R52), the fields
and formats N, D and P (rules R80 to R83), the opcode map (rule R86), the words that are rejected before any command
runs (rules R87, R88, R237), the encoder, and the pseudo-instructions' expansions (rule R91). -/

namespace Sys2Proof

/-- Why a word is no command (rules R87, R88), in the order rule R237 checks. -/
inductive Illegal where
  /-- The opcode is unassigned (rule R87). -/
  | unassignedOpcode (op : Byte)
  /-- A must-be-zero bit is not zero (rule R88 (1) to (3)). -/
  | reservedBits (op : Byte)
  /-- PART >= NUM_PARTS (rule R88 (4)). -/
  | partOutOfRange (part : BitVec 4)
  deriving DecidableEq, Repr

/-- The word carried by four bytes, byte 0 holding bits [7:0] (rule R52). -/
def wordOfBytes (b0 b1 b2 b3 : Byte) : Word := b3 ++ b2 ++ b1 ++ b0

/-- Byte `i` of a word carried as bytes (rule R52). -/
def byteOfWord (w : Word) (i : Nat) : Byte := w.extractLsb' (8 * i) 8

/-- OP = CW[31:24] (rule R80). -/
def opField (w : Word) : Byte := w.extractLsb' 24 8

/-- CW[23:0], which is IMM in format D (rules R81, R82). -/
def immField (w : Word) : BitVec 24 := w.extractLsb' 0 24

/-- PART = CW[23:20] (rule R83). -/
def partField (imm : BitVec 24) : BitVec 4 := imm.extractLsb' 20 4

/-- CW[19:16], reserved in format P (rule R83). -/
def reservedField (imm : BitVec 24) : BitVec 4 := imm.extractLsb' 16 4

/-- A = CW[15:8] (rule R83). -/
def aField (imm : BitVec 24) : Byte := imm.extractLsb' 8 8

/-- B = CW[7:0] (rule R83). -/
def bField (imm : BitVec 24) : Byte := imm.extractLsb' 0 8

/-- Format N (rule R81): CW[23:0] must be 0. -/
def decodeN (op : Byte) (imm : BitVec 24) (i : Instr) : Except Illegal Instr :=
  if imm = 0 then .ok i else .error (.reservedBits op)

/-- Format D (rule R82) of a command that uses the low `n` bits of IMM: every other bit must be 0. -/
def decodeD (op : Byte) (imm : BitVec 24) (n : Nat) (i : BitVec n → Instr) : Except Illegal Instr :=
  if imm.extractLsb' n (24 - n) = 0 then .ok (i (imm.extractLsb' 0 n)) else .error (.reservedBits op)

/-- Format P (rule R83): CW[19:16] must be 0, then PART must name a part (the order of rule R237). -/
def decodeP (op : Byte) (imm : BitVec 24) (i : PartIx → Byte → Byte → Instr) : Except Illegal Instr :=
  if reservedField imm = 0 then
    if h : (partField imm).toNat < Config.numParts then
      .ok (i ⟨(partField imm).toNat, h⟩ (aField imm) (bField imm))
    else .error (.partOutOfRange (partField imm))
  else .error (.reservedBits op)

/-- The opcode map (rule R86): the opcode alone selects the command and its format. An opcode not listed is
unassigned (rule R87). -/
def decodeFields (op : Byte) (imm : BitVec 24) : Except Illegal Instr :=
  match op.toNat with
  | 0x00 => decodeN op imm .nop
  | 0x01 => decodeD op imm 2 .decSetgen
  | 0x02 => decodeN op imm .decStart
  | 0x03 => decodeN op imm .decStatus
  | 0x04 => decodeD op imm 20 .decAddr
  | 0x05 => decodeD op imm 8 .decData
  | 0x06 => decodeD op imm 24 .decBank
  | 0x07 => decodeD op imm 4 .decMeta
  | 0x08 => decodeD op imm 24 .decSel
  | 0x09 => decodeD op imm 24 .decRead
  | 0x0A => decodeD op imm 3 .decInfo
  | 0x10 => decodeP op imm fun p a b => .noteOn p a b
  | 0x11 => decodeP op imm fun p a _ => .noteOff p a
  | 0x12 => decodeP op imm fun p a b => .ctrl p a b
  | 0x13 => decodeP op imm fun p a b => .prog p a b
  | 0x14 => decodeP op imm fun p a _ => .chpress p a
  | 0x15 => decodeP op imm fun p a b => .polypress p a b
  | 0x16 => decodeP op imm fun p a b => .bend p a b
  | 0x17 => decodeP op imm fun p _ _ => .alloff p
  | 0x18 => decodeP op imm fun p _ _ => .preset p
  | 0x19 => decodeP op imm fun p a _ => .mute p a
  | 0x1A => decodeP op imm fun p a b => .setparam p a b
  | 0x1B => decodeP op imm fun p a _ => .getparam p a
  | 0x1C => decodeP op imm fun p a _ => .heldq p a
  | 0x1D => decodeP op imm fun p a _ => .voiceq p a
  | 0x1E => decodeP op imm fun p a _ => .pkpq p a
  | 0x20 => decodeP op imm fun p _ _ => .tick p
  | 0x21 => decodeP op imm fun p _ _ => .peak p
  | 0x22 => decodeN op imm .mixClear
  | 0x23 => decodeN op imm .mixRead
  | 0x24 => decodeD op imm 8 .setXpose
  | _ => .error (.unassignedOpcode op)

/-- The command a word carries, or the reason it carries none. -/
def decode (w : Word) : Except Illegal Instr := decodeFields (opField w) (immField w)

/-- The command four carried bytes hold. -/
def decodeBytes (b0 b1 b2 b3 : Byte) : Except Illegal Instr := decode (wordOfBytes b0 b1 b2 b3)

/-- IMM of a format-D command: the operand, and 0 in every bit it does not use (rule R82). -/
def immD {n : Nat} (v : BitVec n) : BitVec 24 := v.setWidth 24

/-- CW[23:0] of a format-P command (rule R83); an operand that is not used is given as 0 (rule R90). -/
def immP (p : PartIx) (a b : Byte) : BitVec 24 := (BitVec.ofNat 4 p.val ++ 0#4) ++ a ++ b

/-- The opcode of a command (rule R86). -/
def Instr.opcode : Instr → Byte
  | .nop => 0x00
  | .decSetgen _ => 0x01
  | .decStart => 0x02
  | .decStatus => 0x03
  | .decAddr _ => 0x04
  | .decData _ => 0x05
  | .decBank _ => 0x06
  | .decMeta _ => 0x07
  | .decSel _ => 0x08
  | .decRead _ => 0x09
  | .decInfo _ => 0x0A
  | .noteOn _ _ _ => 0x10
  | .noteOff _ _ => 0x11
  | .ctrl _ _ _ => 0x12
  | .prog _ _ _ => 0x13
  | .chpress _ _ => 0x14
  | .polypress _ _ _ => 0x15
  | .bend _ _ _ => 0x16
  | .alloff _ => 0x17
  | .preset _ => 0x18
  | .mute _ _ => 0x19
  | .setparam _ _ _ => 0x1A
  | .getparam _ _ => 0x1B
  | .heldq _ _ => 0x1C
  | .voiceq _ _ => 0x1D
  | .pkpq _ _ => 0x1E
  | .tick _ => 0x20
  | .peak _ => 0x21
  | .mixClear => 0x22
  | .mixRead => 0x23
  | .setXpose _ => 0x24

/-- CW[23:0] of a command (rules R81 to R83, R86). -/
def Instr.operandBits : Instr → BitVec 24
  | .nop => 0
  | .decSetgen g => immD g
  | .decStart => 0
  | .decStatus => 0
  | .decAddr o => immD o
  | .decData x => immD x
  | .decBank addr => immD addr
  | .decMeta idx => immD idx
  | .decSel k => immD k
  | .decRead i => immD i
  | .decInfo f => immD f
  | .noteOn p key vel => immP p key vel
  | .noteOff p key => immP p key 0
  | .ctrl p controller value => immP p controller value
  | .prog p indexLo indexHi => immP p indexLo indexHi
  | .chpress p value => immP p value 0
  | .polypress p key value => immP p key value
  | .bend p lsb msb => immP p lsb msb
  | .alloff p => immP p 0 0
  | .preset p => immP p 0 0
  | .mute p m => immP p m 0
  | .setparam p id value => immP p id value
  | .getparam p id => immP p id 0
  | .heldq p key => immP p key 0
  | .voiceq p slot => immP p slot 0
  | .pkpq p key => immP p key 0
  | .tick p => immP p 0 0
  | .peak p => immP p 0 0
  | .mixClear => 0
  | .mixRead => 0
  | .setXpose v => immD v

/-- The command word of a command (rules R81 to R83, R90). -/
def encode (i : Instr) : Word := i.opcode ++ i.operandBits

/-- The commands a pseudo-instruction stands for (rule R91). -/
def Pseudo.expand : Pseudo → List Instr
  | .holdOn p => [.ctrl p 64 127]
  | .holdOff p => [.ctrl p 64 0]
  | .volume p v => [.ctrl p 7 v]
  | .setMono p => [.setparam p 0x14 0]
  | .setPoly p => [.setparam p 0x14 1]
  | .bend14 p v => [.bend p ((v.extractLsb' 0 7).setWidth 8) ((v.extractLsb' 7 7).setWidth 8)]
  | .prog16 p i => [.prog p (i.extractLsb' 0 8) (i.extractLsb' 8 8)]
  | .frame => [.mixClear] ++ (List.finRange Config.numParts).map .tick ++ [.mixRead]

/-- The command the decoder reads from an instruction whose bits are `w` (bit 0 the least significant), carried as
four bytes in the order of rule R52; bits from `nbits` up are 0. -/
def decodeTableWord (nbits w : Nat) : Option Instr :=
  let cw : Word := BitVec.ofNat 32 (w % 2 ^ nbits)
  (decodeBytes (byteOfWord cw 0) (byteOfWord cw 1) (byteOfWord cw 2) (byteOfWord cw 3)).toOption

end Sys2Proof
end

