-- ==== Sys2Proof/Machine/State.lean ====
section
/-! DEFINITION. The state of the block as plain data (10_state.md), the inputs the host supplies (rule R21), the
command port, the reasons a step can stop, and the state after reset (rule R260). -/

namespace Sys2Proof.Machine

/-- A step never stops with a fault: the block has no trap of any kind (rules R230, R239), and every error of rule
R230 leaves a next state. So there is no constructor. -/
inductive Fault where
  deriving DecidableEq, Repr

/-- Why a step is refused. -/
inductive Refusal where
  /-- Raised by an arm of `exec` that gives its instruction no meaning. No arm does. Safe: the step stops. -/
  | notModelled (mnemonic : String)
  /-- Raised by `step` when the host supplies inputs that rule R21 does not admit: NMETA >= 2^24, or file contents
  that are no byte sequence (assumption log 5). Safe: the step stops and no command runs on such inputs. -/
  | inputsIllFormed
  deriving DecidableEq, Repr

/-- DSTATE (rule R22). -/
inductive DState where
  | idle
  | ready
  | error
  deriving DecidableEq, Repr

/-- ECODE: the decode error codes of rule R231. -/
inductive ECode where
  | none
  | noRom
  | openFile
  | size
  | bankId
  | undef
  deriving DecidableEq, Repr

/-- The phase of a slot (rule R30). -/
inductive Phase where
  | attack
  | hold
  | decay
  | sustain
  | release
  | done
  | free
  deriving DecidableEq, Repr

/-- Bytes by address: strictly rising addresses, and no entry equal to what an unlisted address reads as. -/
abbrev Memory := List Host.Cell

/-- The contents of one ROM file (rule R21): `size` bytes, those not listed in `cells` being 0x00. -/
structure RomFile where
  size  : Nat
  cells : Memory
  deriving DecidableEq, Repr

/-- One entry of ROM_FILES (rule R21): a file's bytes, or UNREADABLE. -/
inductive RomEntry where
  | file (f : RomFile)
  | unreadable
  deriving DecidableEq, Repr

/-- One record of SMETA (rule R21). -/
structure SampleMeta where
  addr         : BitVec 32
  sampleLength : BitVec 32
  loopStart    : BitVec 32
  loopLength   : BitVec 32
  loopMode     : BitVec 8
  deriving DecidableEq, Repr

/-- One entry SS[k] of the sample-set table (rule R25). -/
structure SampleSet where
  w            : List F32
  sampleLength : BitVec 32
  loopStart    : BitVec 32
  loopLength   : BitVec 32
  loopMode     : BitVec 8
  deriving DecidableEq, Repr

/-- One note slot (rule R29). -/
structure Slot where
  phase : Phase
  key   : BitVec 7
  vel   : BitVec 7
  sset  : BitVec 24
  snap  : Snap
  pos   : BitVec 48
  cnt   : BitVec 24
  tA    : BitVec 24
  tH    : BitVec 24
  tD    : BitVec 24
  tR    : BitVec 24
  sus   : F32
  rl    : F32
  deriving DecidableEq, Repr

/-- The state of one part: PR (rule R27), the local registers (rule R28) and the slots (rule R29). -/
structure Part where
  pr    : Vector Byte Config.numParams
  prog  : BitVec 16
  mode  : Mode
  bend  : BitVec 14
  mod   : BitVec 7
  expr  : BitVec 7
  hold  : Bool
  mute  : Bool
  chp   : BitVec 7
  pkp   : Vector (BitVec 7) 128
  held  : BitVec 128
  peak  : F32
  slots : Vector Slot Config.numSlots
  deriving DecidableEq, Repr

/-- What the host does at the block's port, one event at a time (rules R70, R244): a command word (rule R80), a
hardware reset between two commands (rule R262), or new inputs for a later DEC_START (rules R21, R263). -/
inductive PortEvent where
  | command (cw : Word)
  | hardwareReset
  | supply (files : List RomEntry) (records : List SampleMeta)
  deriving DecidableEq, Repr

/-- The state of the block. -/
structure State where
  /-- GEN (rule R22). -/
  gen : Fin Config.numGens
  /-- DSTATE (rule R22). -/
  dstate : DState
  /-- ECODE (rule R22). -/
  ecode : ECode
  /-- NBANKS (rule R24). -/
  nbanks : Nat
  /-- PLAIN (rule R24): IMAGE_SIZE = NBANKS * 2^20 bytes. -/
  plain : Memory
  /-- SS (rule R25). -/
  ss : List SampleSet
  /-- VERSION (rule R26). -/
  version : Vector Byte 4
  /-- DATE (rule R26). -/
  date : Vector Byte 10
  /-- SSEL (rule R26). -/
  ssel : BitVec 24
  /-- The part state, one copy for each part (rules R20, R27 to R29). -/
  parts : Vector Part Config.numParts
  /-- MIX (rule R32). -/
  mix : F32
  /-- XPOSE (rule R32). -/
  xpose : Byte
  /-- CMD_ERR (rule R33). -/
  cmdErr : Bool
  /-- VFAULT (rule R33). -/
  vfault : Bool
  /-- The input ROM_FILES (rule R21), as the host last supplied it. -/
  romFiles : List RomEntry
  /-- The input SMETA (rule R21), as the host last supplied it. -/
  smeta : List SampleMeta
  /-- The events that have reached the port and have not been run, oldest first (rules R70, R71). -/
  port : List PortEvent
  /-- RES: the result word of the last command that ran (rules R80, R84). DESIGN CHOICE: 0 at reset (assumption log 7). -/
  res : Word
  deriving DecidableEq, Repr

/-- The reset values of PR (table of rule R27), ids 0x00 to 0x17 in order; RX_CH is the part's index. -/
def paramReset (p : PartIx) : Vector Byte Config.numParams :=
  #v[BitVec.ofNat 8 p.val, 100, 64, 40, 0, 64, 2, 10, 0, 127, 64, 64, 64, 64, 64, 64, 64, 64, 64, 64, 1, 24, 0, 0]

/-- A snapshot's reset value: all 0 (rule R29). -/
def Snap.reset : Snap where
  pr   := Vector.replicate Config.numParams 0
  prog := 0
  mode := .normal

/-- A slot's reset value (rule R29): FREE. -/
def Slot.reset : Slot where
  phase := .free
  key   := 0
  vel   := 0
  sset  := 0
  snap  := Snap.reset
  pos   := 0
  cnt   := 0
  tA    := 0
  tH    := 0
  tD    := 0
  tR    := 0
  sus   := F32.zero
  rl    := F32.zero

/-- A part's reset value (rules R27, R28, R29). -/
def Part.reset (p : PartIx) : Part where
  pr    := paramReset p
  prog  := 0
  mode  := .normal
  bend  := 8192
  mod   := 0
  expr  := 127
  hold  := false
  mute  := false
  chp   := 0
  pkp   := Vector.replicate 128 0
  held  := 0
  peak  := F32.zero
  slots := Vector.replicate Config.numSlots Slot.reset

/-- The state after hardware reset (rule R260), with a host that has supplied no inputs and sent nothing (DESIGN CHOICE:
assumption log 8 and 11). -/
def State.reset : State where
  gen      := 0
  dstate   := .idle
  ecode    := .none
  nbanks   := 0
  plain    := []
  ss       := []
  version  := Vector.replicate 4 0
  date     := Vector.replicate 10 0
  ssel     := 0
  parts    := Vector.ofFn Part.reset
  mix      := F32.zero
  xpose    := 64
  cmdErr   := false
  vfault   := false
  romFiles := []
  smeta    := []
  port     := []
  res      := 0

/-- What a step or a meaning answers. -/
abbrev Answer := Host.Outcome State Fault Refusal

end Sys2Proof.Machine
end

