-- ==== Sys2Proof/Machine/Float.lean ====
section
/-! DEFINITION. Binary32 arithmetic (rule R10): each operation is the exact result rounded once, to nearest, ties to
even, with subnormals kept. Every finite binary32 value is a whole number of units of 2^-149, so the exact result is
always a ratio of two natural numbers, and `roundMag` is the only place where anything is rounded. -/

namespace Sys2Proof.Machine

/-- The sign bit. -/
def fsign (x : F32) : Bool := x.bits.msb

/-- The encoding without its sign bit. -/
def fmag (x : F32) : Nat := x.bits.toNat % 2 ^ 31

/-- An infinity or a NaN has this magnitude encoding or a larger one. -/
def infMag : Nat := 0x7F800000

/-- Whether the value is a NaN. -/
def isNaN (x : F32) : Bool := infMag < fmag x

/-- Whether the value is an infinity. -/
def isInf (x : F32) : Bool := fmag x == infMag

/-- Whether the value is finite. -/
def isFinite (x : F32) : Bool := fmag x < infMag

/-- The magnitude of a finite value in units of 2^-149. -/
def funits (x : F32) : Nat :=
  let e := fmag x / 2 ^ 23
  let m := fmag x % 2 ^ 23
  if e = 0 then m else (2 ^ 23 + m) * 2 ^ (e - 1)

/-- A finite value in units of 2^-149. -/
def fval (x : F32) : Int := if fsign x then -(funits x : Int) else (funits x : Int)

/-- The magnitude encoding nearest to `num / den` units of 2^-149, ties to even; past the largest finite value,
infinity (rule R10). -/
def roundMag (num den : Nat) : Nat :=
  let s := Nat.log2 (num / den) - 23
  let d := den * 2 ^ s
  let k := num / d
  let r := num % d
  let k' := if d < 2 * r ∨ (2 * r = d ∧ k % 2 = 1) then k + 1 else k
  min (s * 2 ^ 23 + k') infMag

/-- The value with a sign and a magnitude encoding. -/
def fpack (neg : Bool) (mag : Nat) : F32 := ⟨BitVec.ofNat 32 ((if neg then 2 ^ 31 else 0) + mag)⟩

/-- The default NaN: quiet, its sign and payload open (item I14; assumption log 2). -/
def defaultNaN : F32 := ⟨BitVec.ofBool Config.nanSign ++ 0xFF#8 ++ 1#1 ++ Config.nanPayload⟩

/-- `f32(n / den)` of an exact rational (rule R10); `den` is not 0. -/
def f32OfRat (n : Int) (den : Nat) : F32 := fpack (n < 0) (roundMag (n.natAbs * 2 ^ 149) den)

/-- `f32(n)` of an integer (rule R10). -/
def f32OfInt (n : Int) : F32 := f32OfRat n 1

/-- `-f a`: the sign bit flipped (rule R10). -/
def fneg (x : F32) : F32 := ⟨x.bits ^^^ 0x80000000⟩

/-- `absf(a)`: the sign bit cleared (rule R10). -/
def fabs (x : F32) : F32 := ⟨x.bits &&& 0x7FFFFFFF⟩

/-- `a +f b` (rule R10). A zero sum is -0.0 only when both operands are negative. -/
def fadd (x y : F32) : F32 :=
  if isNaN x || isNaN y then defaultNaN
  else if isInf x then (if isInf y && fsign x != fsign y then defaultNaN else x)
  else if isInf y then y
  else
    let n := fval x + fval y
    fpack (if n = 0 then fsign x && fsign y else n < 0) (roundMag n.natAbs 1)

/-- `a -f b` (rule R10). -/
def fsub (x y : F32) : F32 := fadd x (fneg y)

/-- `a *f b` (rule R10). -/
def fmul (x y : F32) : F32 :=
  let neg := fsign x != fsign y
  if isNaN x || isNaN y then defaultNaN
  else if isInf x then (if funits y = 0 && !isInf y then defaultNaN else fpack neg infMag)
  else if isInf y then (if funits x = 0 then defaultNaN else fpack neg infMag)
  else fpack neg (roundMag (funits x * funits y) (2 ^ 149))

/-- `a /f b` (rule R10). -/
def fdiv (x y : F32) : F32 :=
  let neg := fsign x != fsign y
  if isNaN x || isNaN y then defaultNaN
  else if isInf x then (if isInf y then defaultNaN else fpack neg infMag)
  else if isInf y then fpack neg 0
  else if funits y = 0 then (if funits x = 0 then defaultNaN else fpack neg infMag)
  else fpack neg (roundMag (funits x * 2 ^ 149) (funits y))

/-- The place of a value that is not a NaN in the order of the reals, the two zeros together. -/
def forder (x : F32) : Int := if fsign x then -(fmag x : Int) else (fmag x : Int)

/-- `maxf(a, b)`: the larger, and `b` when they compare equal (rule R10); with a NaN operand the result is open
(assumption log 3). -/
def fmax (x y : F32) : F32 :=
  if isNaN x || isNaN y then ⟨0#1 ++ Config.maxOfNan x y⟩
  else if forder y < forder x then x else y

/-- The binary32 value a `UnitCode` numbers (rule R181). -/
def unitValue (c : UnitCode) : F32 := ⟨BitVec.ofNat 32 c.val⟩

/-- The binary32 value a `GainCode` numbers (rule R7): the last code is -0.0. -/
def gainValue (c : GainCode) : F32 :=
  if c.val = infMag then F32.negZero else ⟨BitVec.ofNat 32 c.val⟩

end Sys2Proof.Machine
end

