-- ==== Sys2Proof/Machine/Flags.lean ====
section
/-! DEFINITION. The status flags (rule R33), the numeric codes of DSTATE, ECODE, MODE and the slot phase (rules R22,
R28, R30, R231), and the STATUS word (rule R23). -/

namespace Sys2Proof.Machine

/-- The code of DSTATE (rule R22). -/
def dstateCode : DState → BitVec 2
  | .idle => 0
  | .ready => 1
  | .error => 2

/-- The code of ECODE (rule R231). -/
def ecodeCode : ECode → BitVec 4
  | .none => 0
  | .noRom => 1
  | .openFile => 2
  | .size => 3
  | .bankId => 4
  | .undef => 5

/-- The code of MODE (rule R28). -/
def modeCode : Mode → BitVec 2
  | .normal => 0
  | .drum1 => 1
  | .drum2 => 2

/-- The code of a slot's phase (rule R30). -/
def phaseCode : Phase → BitVec 3
  | .attack => 0
  | .hold => 1
  | .decay => 2
  | .sustain => 3
  | .release => 4
  | .done => 5
  | .free => 7

/-- STATUS (rule R23): [1:0] DSTATE, [3:2] GEN, [7:4] ECODE, [8] CMD_ERR, [9] VFAULT, [31:10] 0. -/
def statusWord (s : State) : Word :=
  0#22 ++ BitVec.ofBool s.vfault ++ BitVec.ofBool s.cmdErr ++ ecodeCode s.ecode ++ BitVec.ofNat 2 s.gen.val ++
    dstateCode s.dstate

/-- CMD_ERR <- 1 (rules R33, R233). -/
def raiseCmdErr (s : State) : State := { s with cmdErr := true }

/-- VFAULT <- 1 when some voice faulted, else unchanged (rules R33, R236). -/
def raiseVFault (faulted : Bool) (s : State) : State := { s with vfault := s.vfault || faulted }

/-- HOLD[p] <- v (rules R33, R147, R148). -/
def setHold (v : Bool) (P : Part) : Part := { P with hold := v }

/-- MUTE[p] <- v (rules R33, R155). -/
def setMute (v : Bool) (P : Part) : Part := { P with mute := v }

end Sys2Proof.Machine
end

