-- ==== Sys2Proof/Machine/Ops.lean ====
section
/-! DEFINITION. The shared operations: memory by address, the parts and their slots, how a command ends (rules R84,
R230 to R236: completion, reject, drop), and the events of the port that are no commands (rules R21, R262).

The block has no exceptions to take or return from (rules R239, R240): rejecting a command and recording a decode
error or a voice fault are its only error entries, and they return to the host at once (rule R235). -/

namespace Sys2Proof.Machine

/-! ### Memory -/

/-- What an address that is not listed reads as, inside the image: the byte 0x00 (assumption log 4). -/
def Memory.unlisted : Byte := 0

/-- The canonical form: addresses strictly rising, and no entry that an unlisted address would read as. -/
abbrev Memory.wf (m : Memory) : Prop :=
  m.Pairwise (fun x y => x.1 < y.1) ∧ ∀ c ∈ m, c.2 ≠ Memory.unlisted

/-- The byte at an address. -/
def Memory.read (m : Memory) (a : Nat) : Byte :=
  match m with
  | [] => Memory.unlisted
  | c :: rest => if c.1 = a then c.2 else Memory.read rest a

/-- Write one byte; writing what an unlisted address reads as removes the entry. -/
def Memory.write (m : Memory) (a : Nat) (b : Byte) : Memory :=
  match m with
  | [] => if b = Memory.unlisted then [] else [(a, b)]
  | c :: rest =>
    if a < c.1 then (if b = Memory.unlisted then c :: rest else (a, b) :: c :: rest)
    else if a = c.1 then (if b = Memory.unlisted then rest else (a, b) :: rest)
    else c :: Memory.write rest a b

/-- The memory that holds the given bytes, a later one at the same address winning, and nothing else. -/
def Memory.ofCells (cells : List Host.Cell) : Memory :=
  cells.foldl (fun m c => Memory.write m c.1 c.2) []

/-! ### The inputs (rule R21) -/

/-- A file's contents are a byte sequence: canonical, and every listed byte inside the file. -/
abbrev RomFile.wf (f : RomFile) : Prop := Memory.wf f.cells ∧ ∀ c ∈ f.cells, c.1 < f.size

/-- An entry of ROM_FILES is a byte sequence or UNREADABLE. -/
abbrev RomEntry.wf : RomEntry → Prop
  | .file f => RomFile.wf f
  | .unreadable => True

/-- Whether the inputs are ones rule R21 admits. -/
def inputsOk (files : List RomEntry) (records : List SampleMeta) : Bool :=
  files.all (fun e => match e with
    | .file f => decide (RomFile.wf f)
    | .unreadable => true) && records.length < Config.metaLimit

/-! ### Parts and slots -/

/-- Apply a function to every element of a vector. -/
def mapVec {α β : Type} {n : Nat} (f : α → β) (v : Vector α n) : Vector β n :=
  ⟨(v.toList.map f).toArray, by simp⟩

/-- The state of part `p`. -/
def State.part (s : State) (p : PartIx) : Part := s.parts[p.val]

/-- Replace the state of part `p`. -/
def State.setPart (s : State) (p : PartIx) (P : Part) : State := { s with parts := s.parts.set p.val P }

/-- `LIVE(p)` (rule R140). -/
def Part.live (P : Part) : Live where
  pr   := P.pr
  prog := P.prog
  mode := P.mode
  bend := P.bend
  mod  := P.mod
  expr := P.expr
  hold := P.hold
  chp  := P.chp
  pkp  := P.pkp

/-- The snapshot NOTE_ON takes of a part (rule R31). -/
def Part.snapshot (P : Part) : Snap where
  pr   := P.pr
  prog := P.prog
  mode := P.mode

/-- Write parameter register `id` of a part (rule R27). -/
def Part.setParam (P : Part) (id : Nat) (v : Byte) : Part := { P with pr := P.pr.setIfInBounds id v }

/-- Apply a function to every slot of a part. -/
def Part.mapSlots (f : Slot → Slot) (P : Part) : Part := { P with slots := mapVec f P.slots }

/-- Whether a slot is occupied (rule R29). -/
def Slot.occupied (t : Slot) : Bool := t.phase != .free

/-- The number of occupied slots (rules R28, R29). -/
def Part.active (P : Part) : Nat := P.slots.toList.countP Slot.occupied

/-- The lowest-numbered free slot (rule R143); NSLOTS if there is none. -/
def Part.lowestFree (P : Part) : Nat := P.slots.toList.findIdx fun t => !t.occupied

/-- Whether a key is in the held-key buffer (rule R28). -/
def Part.isHeld (P : Part) (k : BitVec 7) : Bool := P.held.getLsbD k.toNat

/-- Add a key to the held-key buffer (rule R145). -/
def Part.addHeld (P : Part) (k : BitVec 7) : Part := { P with held := P.held ||| (1#128 <<< k.toNat) }

/-- Empty the held-key buffer (rules R148, R153). -/
def Part.clearHeld (P : Part) : Part := { P with held := 0 }

/-! ### How a command ends -/

/-- A command that completes sets RES (rule R84). -/
def complete (r : Word) (s : State) : State := { s with res := r }

/-- Reject (rule R233): no state is written except CMD_ERR, and the result is 0xFFFFFFFF. -/
def reject (s : State) : State := complete 0xFFFFFFFF (raiseCmdErr s)

/-- Drop (rule R234): no state is written, and the result is 0. -/
def drop (s : State) : State := complete 0 s

/-! ### The port -/

/-- Take the oldest event from the port (rule R70). -/
def takeEvent (s : State) : Option (PortEvent × State) :=
  match s.port with
  | [] => none
  | e :: rest => some (e, { s with port := rest })

/-- Hardware reset (rules R260, R262): every state element takes its reset value; the inputs are not state and stay,
and so do the events the host has yet to have run (DESIGN CHOICE: assumption log 10). -/
def hardwareReset (s : State) : State :=
  { State.reset with romFiles := s.romFiles, smeta := s.smeta, port := s.port }

/-- The host supplies new inputs for a later DEC_START (rules R21, R263). -/
def supplyInputs (files : List RomEntry) (records : List SampleMeta) (s : State) : Answer :=
  if inputsOk files records then .next { s with romFiles := files, smeta := records }
  else .refused .inputsIllFormed

end Sys2Proof.Machine
end

