-- ==== Sys2Proof/Machine/Operands.lean ====
section
/-! DEFINITION. The operand forms (rules R85, R140): MIDI data operands, the program index, the bend value, declared
addresses, register ids and slot numbers. No operand is sign-extended or scaled. -/

namespace Sys2Proof.Machine

/-- A MIDI data operand (rule R140): in 0..127, or none. -/
def midi7 (b : Byte) : Option (BitVec 7) := if b.toNat ≤ 127 then some (b.setWidth 7) else none

/-- A NOTE_ON velocity (rule R140): in 1..127, or none. -/
def velocity7 (b : Byte) : Option (BitVec 7) := if 1 ≤ b.toNat ∧ b.toNat ≤ 127 then some (b.setWidth 7) else none

/-- PROG's index `{B, A}` (rules R85, R149). -/
def programIndex (indexLo indexHi : Byte) : BitVec 16 := indexHi ++ indexLo

/-- BEND's value `{b[6:0], a[6:0]}` (rules R85, R152). -/
def bendValue (lsb msb : BitVec 7) : BitVec 14 := msb ++ lsb

/-- A declared address of DEC_BANK, `zext_32(IMM)` (rules R85, R115). -/
def declaredAddr (imm : BitVec 24) : BitVec 32 := imm.setWidth 32

/-- The largest legal value of each parameter register (table of rule R27), ids 0x00 to 0x17 in order. -/
def paramMax : Vector Byte Config.numParams :=
  #v[15, 127, 127, 127, 127, 127, 127, 127, 127, 127, 127, 127, 127, 127, 127, 127, 127, 127, 127, 127, 1, 24, 1, 127]

/-- The parameter register an operand names (rule R156), if the id is at most 0x17. -/
def paramId (id : Byte) : Option (Fin Config.numParams) :=
  if h : id.toNat < Config.numParams then some ⟨id.toNat, h⟩ else none

/-- Whether `v` is a legal value of a parameter register (rules R27, R156). -/
def legalValue (id : Fin Config.numParams) (v : Byte) : Bool := v.toNat ≤ paramMax[id.val].toNat

/-- The slot an operand names (rule R159), if it is below NSLOTS. -/
def slotId (b : Byte) : Option SlotIx :=
  if h : b.toNat < Config.numSlots then some ⟨b.toNat, h⟩ else none

/-- A switch controller's value (rule R146): on from 64 up. -/
def switchOn (v : BitVec 7) : Bool := 64 ≤ v.toNat

end Sys2Proof.Machine
end

