-- ==== Sys2Proof/Machine/Rom.lean ====
section
/-! DEFINITION. The ROM address map and its translations (20_memory.md, rules R51 to R62): concatenation of the files,
address and data descrambling, the descrambled image PLAIN, bank resolution and the companion address. -/

namespace Sys2Proof.Machine

/-- Bit `j` of the plain offset is bit `perm j` of the raw offset (rule R56, the case past the header). -/
def permuteAddr (perm : Equiv.Perm (Fin 20)) (o : BitVec 20) : BitVec 20 :=
  (List.finRange 20).foldl (fun acc j => acc + ((BitVec.ofBool (o.getLsbD j.val)).setWidth 20 <<< (perm j).val)) 0

/-- `AMAP(o)` (rule R56): the bank offset of the RAW byte that holds plain byte `o`. -/
def amap (c : Cfg) (o : BitVec 20) : BitVec 20 :=
  if o.toNat < Config.headerSize then o else permuteAddr c.addrPerm o

/-- `DMAP(x)` (rule R57): bit `j` of the plain byte is bit DATA_PERM[j] of the raw byte. -/
def dmap (c : Cfg) (x : Byte) : Byte :=
  (List.finRange 8).foldl
    (fun acc j => acc + ((BitVec.ofBool (x.getLsbD (c.dataPerm j).val)).setWidth 8 <<< j.val)) 0

/-- The concatenation of the files' bytes (rule R51), from image offset `at0` on. -/
def concatFrom (at0 : Nat) : List RomFile → List Host.Cell
  | [] => []
  | f :: rest =>
    (f.cells.filter fun x => x.1 < f.size).map (fun x => (at0 + x.1, x.2)) ++ concatFrom (at0 + f.size) rest

/-- RAW (rule R51). -/
def rawImage (files : List RomFile) : Memory := concatFrom 0 files

/-- The plain bytes one raw byte gives (rule R58, read from the raw side): a header byte is the plain byte at its own
offset; and the byte at raw bank offset `AMAP(o)`, `o` past the header, gives plain byte `o`. -/
def plainCells (c : Cfg) (x : Host.Cell) : List Host.Cell :=
  let bank := x.1 / Config.bankSize
  let r : BitVec 20 := BitVec.ofNat 20 (x.1 % Config.bankSize)
  let o := permuteAddr c.addrPerm.symm r
  (if r.toNat < Config.headerSize then [x] else []) ++
    (if o.toNat < Config.headerSize then [] else [(bank * Config.bankSize + o.toNat, dmap c x.2)])

/-- `DESCRAMBLE_IMAGE` (rules R58, R104): PLAIN of a raw image. A raw byte 0x00 gives plain bytes 0x00, so only the
listed raw bytes matter. -/
def descramble (c : Cfg) (raw : Memory) : Memory := Memory.ofCells (raw.flatMap (plainCells c))

/-- The bank ids rule R60 C1 admits. -/
def bankIdOf (id : BitVec 3) : Option BankId :=
  match id.toNat with
  | 0 => some .id0
  | 1 => some .id1
  | 2 => some .id2
  | 4 => some .id4
  | _ => none

/-- The offset of a base generations 0 and 1 may use. -/
def lowOffset : LowBase → BitVec 32
  | .base0 => 0x000000
  | .base1 => 0x100000

/-- The offset of a base (rule R60 C2). -/
def baseOffset : BankBase → BitVec 32
  | .base0 => 0x000000
  | .base1 => 0x100000
  | .base2 => 0x200000

/-- `BANK_BASE(g, id)` (rule R60): none where it is undefined. -/
def bankBase (c : Cfg) (g : Fin Config.numGens) (id : BitVec 3) : Option (BitVec 32) :=
  match bankIdOf id with
  | none => none
  | some b =>
    if g.val = 2 then (if b = c.bankThird then some (baseOffset .base2) else (c.bankHigh b).map baseOffset)
    else (c.bankLow b).map lowOffset

/-- `BANK_RESOLVE(addr, g)` (rule R61): none where it raises E_BANK_ID. -/
def bankResolve (c : Cfg) (addr : BitVec 32) (g : Fin Config.numGens) : Option (BitVec 32) :=
  (bankBase c g (addr.extractLsb' 20 3)).map fun base => base + (addr.extractLsb' 0 20).setWidth 32

/-- `CA(A)` (rule R62): the companion address. -/
def companionAddr (a : BitVec 32) : BitVec 32 := ((a &&& 0x000FFFFF) >>> 5) ||| (a &&& 0xFFF00000)

end Sys2Proof.Machine
end

