-- ==== Sys2Proof/Machine/Dpcm.lean ====
section
/-! DEFINITION. The stages of DEC_START (rules R102 to R111): validation of the inputs, the metadata strings, DPCM
reconstruction, ping-pong unwrapping, and the commit or abort that ends it. -/

namespace Sys2Proof.Machine

/-- The checks of rule R103 on the files in order, giving their contents or the first error. -/
def checkFiles : List RomEntry → Except ECode (List RomFile)
  | [] => .ok []
  | .unreadable :: _ => .error .openFile
  | .file f :: rest =>
    if f.size % Config.bankSize = 0 then
      match checkFiles rest with
      | .ok fs => .ok (f :: fs)
      | .error e => .error e
    else .error .size

/-- The size of the image in bytes (rule R51). -/
def imageSize (files : List RomFile) : Nat := (files.map RomFile.size).sum

/-- `VALIDATE_INPUTS` (rule R103): the readable files and the number of banks, or the first error. -/
def validateInputs (entries : List RomEntry) : Except ECode (List RomFile × Nat) :=
  if entries = [] then .error .noRom
  else
    match checkFiles entries with
    | .error e => .error e
    | .ok files =>
      let nb := imageSize files / Config.bankSize
      if nb = 0 ∨ Config.maxBanks < nb then .error .size else .ok (files, nb)

/-- VERSION' of `READ_META_STRINGS` (rule R105). -/
def readVersion (plain : Memory) : Vector Byte 4 := Vector.ofFn fun i => Memory.read plain (0x1C + i.val)

/-- DATE' of `READ_META_STRINGS` (rule R105). -/
def readDate (plain : Memory) : Vector Byte 10 := Vector.ofFn fun i => Memory.read plain (0x30 + i.val)

/-- `wrap_s32(b * 2^(n+14))` of a signed byte (rules R9, R108). -/
def deltaFixed (b : Byte) (n : BitVec 4) : Int := (b.signExtend 32 <<< (n.toNat + 14)).toInt

/-- `f32(2^31)` (rule R108). -/
def twoPow31 : F32 := f32OfInt (2 ^ 31)

/-- `DELTA(b, n)` (rule R108). -/
def delta (b : Byte) (n : BitVec 4) : F32 := fdiv (f32OfInt (deltaFixed b n)) twoPow31

/-- The delta of image position `a` (rule R107): the byte at `a`, shifted by the high nibble of its companion byte
when bit 4 of `a` is set and by the low nibble when it is not (assumption log 15). -/
def deltaAt (plain : Memory) (a : BitVec 32) : F32 :=
  let companion := Memory.read plain (companionAddr a).toNat
  let n := if a.getLsbD 4 then companion.extractLsb' 4 4 else companion.extractLsb' 0 4
  delta (Memory.read plain a.toNat) n

/-- The positions of `DPCM_DECODE` (rules R107, R109) from image address `a` on, `count` of them, with the running
value before them: E_UNDEF at the first position outside the image. -/
def dpcmFrom (plain : Memory) (size : Nat) : (count : Nat) → (a : Nat) → (running : F32) → Except ECode (List F32)
  | 0, _, _ => .ok []
  | count + 1, a, running =>
    if size ≤ a then .error .undef
    else
      let next := fadd running (deltaAt plain (BitVec.ofNat 32 a))
      match dpcmFrom plain size count (a + 1) next with
      | .ok ws => .ok (next :: ws)
      | .error e => .error e

/-- `DPCM_DECODE(P, size, R, S)` (rule R107): S+1 values, starting from +0.0 (rule R109). -/
def dpcmDecode (plain : Memory) (size : Nat) (r : BitVec 32) (len : BitVec 32) : Except ECode (List F32) :=
  dpcmFrom plain size (len.toNat + 1) r.toNat F32.zero

/-- `PINGPONG_UNWRAP(w, m)` (rule R110). -/
def pingpongUnwrap (w : List F32) (m : SampleMeta) : Except ECode SampleSet :=
  let sLen := m.sampleLength.toNat
  let lLen := m.loopLength.toNat
  if sLen < lLen then .error .undef
  else if 2 ^ 32 ≤ sLen + lLen + 1 then .error .undef
  else .ok {
    w            := w ++ (List.range (lLen + 1)).map fun i => fneg (w.getD (sLen - i) F32.zero)
    sampleLength := BitVec.ofNat 32 (sLen + lLen + 1)
    loopStart    := m.loopStart
    loopLength   := BitVec.ofNat 32 (2 * lLen + 1)
    loopMode     := 0 }

/-- One record of `DECODE_ALL` (rule R106). -/
def decodeOne (c : Cfg) (plain : Memory) (nb : Nat) (g : Fin Config.numGens) (m : SampleMeta) : Except ECode SampleSet :=
  match bankResolve c m.addr g with
  | none => .error .bankId
  | some r =>
    match dpcmDecode plain (Config.bankSize * nb) r m.sampleLength with
    | .error e => .error e
    | .ok w =>
      if m.loopMode = 1 then pingpongUnwrap w m
      else .ok {
        w            := w
        sampleLength := m.sampleLength
        loopStart    := m.loopStart
        loopLength   := m.loopLength
        loopMode     := m.loopMode }

/-- `DECODE_ALL(P, nb)` (rule R106): the records in index order, stopping at the first error. -/
def decodeAll (c : Cfg) (plain : Memory) (nb : Nat) (g : Fin Config.numGens) : List SampleMeta → Except ECode (List SampleSet)
  | [] => .ok []
  | m :: rest =>
    match decodeOne c plain nb g m with
    | .error e => .error e
    | .ok e =>
      match decodeAll c plain nb g rest with
      | .ok es => .ok (e :: es)
      | .error err => .error err

/-- What a successful decode yields, before it is committed (rule R102). -/
structure Loaded where
  nbanks  : Nat
  plain   : Memory
  version : Vector Byte 4
  date    : Vector Byte 10
  ss      : List SampleSet
  deriving DecidableEq, Repr

/-- The stages of DEC_START up to the commit (rule R102), on the inputs and GEN. -/
def load (c : Cfg) (entries : List RomEntry) (records : List SampleMeta) (g : Fin Config.numGens) : Except ECode Loaded :=
  match validateInputs entries with
  | .error e => .error e
  | .ok (files, nb) =>
    let plain := descramble c (rawImage files)
    match decodeAll c plain nb g records with
    | .error e => .error e
    | .ok ss => .ok ⟨nb, plain, readVersion plain, readDate plain, ss⟩

/-- COMMIT (rule R111). -/
def commitLoad (l : Loaded) (s : State) : State :=
  { s with
    nbanks := l.nbanks, plain := l.plain, version := l.version, date := l.date, ss := l.ss,
    dstate := .ready, ecode := .none }

/-- A decode error aborts (rules R111, R231, R232): the decoder's results are emptied and the code is recorded. GEN,
SSEL, the parts, MIX and the flags are not touched. -/
def abortLoad (e : ECode) (s : State) : State :=
  { s with
    nbanks := 0, plain := [], version := Vector.replicate 4 0, date := Vector.replicate 10 0, ss := [],
    dstate := .error, ecode := e }

end Sys2Proof.Machine
end

