-- ==== Sys2Proof/Machine/Envelope.lean ====
section
/-! DEFINITION. The envelope generator (42_envelope.md): the phase machine, the level, and the operations the part
commands and TICK call on a slot. -/

namespace Sys2Proof.Machine

/-- `dur(phase)` (rule R182); SUSTAIN, DONE and FREE have none. -/
def envDur (t : Slot) : Option (BitVec 24) :=
  match t.phase with
  | .attack => some t.tA
  | .hold => some t.tH
  | .decay => some t.tD
  | .release => some t.tR
  | .sustain => none
  | .done => none
  | .free => none

/-- `next(phase)` (rule R182) for the phases that have a duration; the others stay. -/
def envNext : Phase → Phase
  | .attack => .hold
  | .hold => .decay
  | .decay => .sustain
  | .release => .done
  | .sustain => .sustain
  | .done => .done
  | .free => .free

/-- The loop of `ENV_NORMALIZE` (rule R182), at most `fuel` times. -/
def envLoop : (fuel : Nat) → Slot → Slot
  | 0, t => t
  | fuel + 1, t =>
    match envDur t with
    | none => t
    | some d => if d.toNat ≤ t.cnt.toNat then envLoop fuel { t with phase := envNext t.phase, cnt := 0 } else t

/-- `ENV_NORMALIZE` (rule R182): the loop runs at most four times. -/
def envNormalize (t : Slot) : Slot := envLoop 4 t

/-- `ENV_START` (rule R183). -/
def envStart (t : Slot) : Slot := envNormalize { t with phase := .attack, cnt := 0, rl := F32.zero }

/-- `f32(cnt) /f f32(d)` (rule R184). -/
def envRatio (cnt d : BitVec 24) : F32 := fdiv (f32OfInt cnt.toNat) (f32OfInt d.toNat)

/-- `ENV_LEVEL` (rule R184) of an occupied slot. A free slot has no level; this gives it +0.0 and no rule reads it
(assumption log 14). -/
def envLevel (t : Slot) : F32 :=
  match t.phase with
  | .attack => envRatio t.cnt t.tA
  | .hold => F32.one
  | .decay => fsub F32.one (fmul (fsub F32.one t.sus) (envRatio t.cnt t.tD))
  | .sustain => t.sus
  | .release => fmul t.rl (fsub F32.one (envRatio t.cnt t.tR))
  | .done => F32.zero
  | .free => F32.zero

/-- `ENV_ADVANCE` (rule R185). -/
def envAdvance (t : Slot) : Slot :=
  match envDur t with
  | some _ => envNormalize { t with cnt := t.cnt + 1 }
  | none => t

/-- Whether a release has an effect on the slot (rules R145, R148, R186): ATTACK, HOLD, DECAY or SUSTAIN. -/
def releasable (t : Slot) : Bool :=
  match t.phase with
  | .attack => true
  | .hold => true
  | .decay => true
  | .sustain => true
  | .release => false
  | .done => false
  | .free => false

/-- `ENV_RELEASE` (rule R186). -/
def envRelease (t : Slot) : Slot :=
  if releasable t then envNormalize { t with rl := envLevel t, phase := .release, cnt := 0 } else t

/-- `FREE_SLOT` (rules R187, R208): FREE, and the other fields at their reset values (rule R29). -/
def freeSlot (_ : Slot) : Slot := Slot.reset

/-- `ENV_KILL` (rule R187): straight to DONE, and the slot is freed in the same step. -/
def envKill (t : Slot) : Slot := freeSlot { t with phase := .done }

/-- Kill the slot if it is occupied (rules R142, R153). -/
def killOccupied (t : Slot) : Slot := if t.occupied then envKill t else t

/-- Free the slot if it is in DONE (rule R208). -/
def freeIfDone (t : Slot) : Slot := if t.phase = .done then freeSlot t else t

end Sys2Proof.Machine
end

