-- ==== Sys2Proof/Machine/Playback.lean ====
section
/-! DEFINITION. Sample playback (43_playback_mix.md, rules R200 to R209): the fixed-point phase, interpolation, the
advance with loop or one-shot end, the voice fault, and the output of one slot for one TICK. -/

namespace Sys2Proof.Machine

/-- The integer part `ip = pos[47:16]` (rule R200). -/
def posIndex (pos : BitVec 48) : BitVec 32 := pos.extractLsb' 16 32

/-- The fraction `fp = pos[15:0]` (rule R200). -/
def posFrac (pos : BitVec 48) : BitVec 16 := pos.extractLsb' 0 16

/-- `len`, the number of values of a sample set (rule R202). -/
def setLen (g : SampleSet) : Nat := g.sampleLength.toNat + 1

/-- `2^-16` (rule R203). -/
def twoPowNeg16 : F32 := f32OfRat 1 (2 ^ 16)

/-- `INTERP` (rule R203): linear interpolation at a phase whose index is below `len`. -/
def interp (g : SampleSet) (pos : BitVec 48) : F32 :=
  let i := (posIndex pos).toNat
  let j := min (i + 1) (setLen g - 1)
  let a := g.w.getD i F32.zero
  let b := g.w.getD j F32.zero
  let fr := fmul (f32OfInt (posFrac pos).toNat) twoPowNeg16
  fadd a (fmul (fsub b a) fr)

/-- `OSC_ADVANCE` (rule R204). -/
def oscAdvance (g : SampleSet) (inc : BitVec 32) (t : Slot) : Slot :=
  let pos := t.pos + inc.setWidth 48
  let i := (posIndex pos).toNat
  let ls := g.loopStart.toNat
  let ll := g.loopLength.toNat
  if g.loopMode = 0 then
    if ls + ll ≤ i then { t with pos := BitVec.ofNat 32 (ls + (i - ls) % ll) ++ posFrac pos }
    else { t with pos := pos }
  else if setLen g - 1 ≤ i then { t with pos := pos, phase := .done }
  else { t with pos := pos }

/-- The undefined geometries of rule R207. -/
def badGeometry (g : SampleSet) (pos : BitVec 48) : Bool :=
  (g.loopMode == 0 && (g.loopLength == 0 || setLen g < g.loopStart.toNat + g.loopLength.toNat)) ||
    setLen g ≤ (posIndex pos).toNat

/-- What one slot does in one TICK: its output, the slot afterwards, and whether it faulted. -/
structure Voice where
  y     : F32
  slot  : Slot
  fault : Bool
  deriving DecidableEq, Repr

/-- A voice fault (rules R207, R236): the slot goes to DONE and its output is +0.0 for this TICK. -/
def voiceFault (t : Slot) : Voice := ⟨F32.zero, { t with phase := .done }, true⟩

/-- The part of `VOICE_STEP` after its check (rule R209). -/
def voicePlay (c : Cfg) (g : SampleSet) (live : Live) (xpose : Byte) (t : Slot) : Voice :=
  { y     := fmul (fmul (interp g t.pos) (envLevel t)) (gainValue (c.voiceGain t.snap live))
    slot  := envAdvance (oscAdvance g (c.pitchInc t.snap live xpose) t)
    fault := false }

/-- `VOICE_STEP` (rule R209) of an occupied slot. A sample-set index outside SS, which no run reaches, is taken as an
index past the waveform (assumption log 6). -/
def voiceStep (c : Cfg) (ss : List SampleSet) (live : Live) (xpose : Byte) (t : Slot) : Voice :=
  match ss[t.sset.toNat]? with
  | none => voiceFault t
  | some g => if badGeometry g t.pos then voiceFault t else voicePlay c g live xpose t

end Sys2Proof.Machine
end

