-- ==== Sys2Proof/Machine/Decoder.lean ====
section
/-! DEFINITION. The meanings of the decoder commands (40_decoder.md) and of SET_XPOSE (rule R161). A meaning whose rule
uses the OPEN parameters is written for any `Cfg`, and runs with the one this hardware has. -/

namespace Sys2Proof.Machine

/-- NOP (rule R100). -/
def execNop (s : State) : Answer := .next (complete 0 s)

/-- The generation a DEC_SETGEN operand names: 0, 1 or 2 (rule R101). -/
def genOf (g : BitVec 2) : Option (Fin Config.numGens) :=
  if h : g.toNat < Config.numGens then some ⟨g.toNat, h⟩ else none

/-- DEC_SETGEN (rule R101). -/
def execDecSetgen (g : BitVec 2) (s : State) : Answer :=
  .next (match genOf g with
    | none => reject s
    | some gen => complete 0 { s with gen := gen })

/-- DEC_START (rules R102, R111) under a configuration. -/
def decStart (c : Cfg) (s : State) : State :=
  if s.dstate = .ready then reject s
  else
    match load c s.romFiles s.smeta s.gen with
    | .ok l => complete 0 (commitLoad l s)
    | .error e => complete ((ecodeCode e).setWidth 32) (abortLoad e s)

/-- DEC_START (rule R102). -/
def execDecStart (s : State) : Answer := .next (decStart Config.hw s)

/-- DEC_STATUS (rule R112). -/
def execDecStatus (s : State) : Answer := .next (complete (statusWord s) s)

/-- DEC_ADDR (rule R113) under a configuration. -/
def decAddr (c : Cfg) (o : BitVec 20) (s : State) : State := complete ((amap c o).setWidth 32) s

/-- DEC_ADDR (rule R113). -/
def execDecAddr (o : BitVec 20) (s : State) : Answer := .next (decAddr Config.hw o s)

/-- DEC_DATA (rule R114) under a configuration. -/
def decData (c : Cfg) (x : Byte) (s : State) : State := complete ((dmap c x).setWidth 32) s

/-- DEC_DATA (rule R114). -/
def execDecData (x : Byte) (s : State) : Answer := .next (decData Config.hw x s)

/-- DEC_BANK (rule R115) under a configuration. -/
def decBank (c : Cfg) (addr : BitVec 24) (s : State) : State :=
  match bankResolve c (declaredAddr addr) s.gen with
  | none => reject s
  | some a => complete a s

/-- DEC_BANK (rule R115). -/
def execDecBank (addr : BitVec 24) (s : State) : Answer := .next (decBank Config.hw addr s)

/-- The byte of the metadata strings a DEC_META index names (rule R116): VERSION[0..3], then DATE[0..9]. -/
def metaByte (idx : BitVec 4) (s : State) : Option Byte :=
  if h : idx.toNat < 4 then some s.version[idx.toNat]
  else if h : idx.toNat - 4 < 10 then some s.date[idx.toNat - 4]
  else none

/-- DEC_META (rule R116). -/
def execDecMeta (idx : BitVec 4) (s : State) : Answer :=
  .next (if s.dstate = .ready then
      (match metaByte idx s with
        | some b => complete (b.setWidth 32) s
        | none => reject s)
    else reject s)

/-- DEC_SEL (rule R117): it never rejects (DEDUCED: assumption log 21). -/
def execDecSel (k : BitVec 24) (s : State) : Answer := .next (complete 0 { s with ssel := k })

/-- The sample set DEC_READ and DEC_INFO read (rules R118, R119): SS[SSEL], when DSTATE = READY and SSEL < NSETS. -/
def selectedSet (s : State) : Option SampleSet := if s.dstate = .ready then s.ss[s.ssel.toNat]? else none

/-- DEC_READ (rule R118). -/
def execDecRead (i : BitVec 24) (s : State) : Answer :=
  .next (match selectedSet s with
    | none => reject s
    | some g =>
      if g.sampleLength.toNat < i.toNat then reject s
      else complete (g.w.getD i.toNat F32.zero).bits s)

/-- The fields 0 to 3 of DEC_INFO (rule R119). -/
def setField (f : BitVec 3) (g : SampleSet) : Word :=
  match f.toNat with
  | 0 => g.sampleLength
  | 1 => g.loopStart
  | 2 => g.loopLength
  | _ => g.loopMode.setWidth 32

/-- DEC_INFO (rule R119). -/
def execDecInfo (f : BitVec 3) (s : State) : Answer :=
  .next (if f.toNat ≤ 3 then
      (match selectedSet s with
        | none => reject s
        | some g => complete (setField f g) s)
    else if f.toNat = 4 then complete (BitVec.ofNat 32 s.ss.length) s
    else if f.toNat = 5 then complete (BitVec.ofNat 32 s.nbanks) s
    else reject s)

/-- SET_XPOSE (rule R161). -/
def execSetXpose (v : Byte) (s : State) : Answer :=
  .next (if v.toNat ≤ 127 then complete 0 { s with xpose := v } else reject s)

end Sys2Proof.Machine
end

