-- ==== Sys2Proof/Machine/PartControl.lean ====
section
/-! DEFINITION. The meanings of the part commands (41_part_commands.md): note on and off, controllers, program,
pressure and bend, all notes off, the part reset, and the register and query commands. -/

namespace Sys2Proof.Machine

/-! ### Notes -/

/-- Whether the part is in mono mode: POLY_MODE (PR 0x14) is 0 (rule R141). -/
def isMono (P : Part) : Bool := P.pr[0x14] == 0

/-- The slot budget `min(PARTIAL_RESERVE, NSLOTS)` (rule R143). -/
def slotBudget (P : Part) : Nat := min P.pr[0x15].toNat Config.numSlots

/-- `n_after` (rule R141): the occupied slots there will be before the new note. -/
def notesKept (P : Part) : Nat := if isMono P then 0 else P.active

/-- `MONO_CUT` (rule R142): every occupied slot is released and then killed. -/
def monoCut (P : Part) : Part := P.mapSlots fun t => if t.occupied then envKill (envRelease t) else t

/-- The note `NOTE_INIT` (rule R144) puts in a slot, given what ENV_PARAMS returned. -/
def newNote (e : EnvParams) (snap : Snap) (key vel : BitVec 7) (sset : BitVec 24) : Slot :=
  envStart {
    phase := .attack
    key   := key
    vel   := vel
    sset  := sset
    snap  := snap
    pos   := 0
    cnt   := 0
    tA    := e.tA
    tH    := e.tH
    tD    := e.tD
    tR    := e.tR
    sus   := unitValue e.sus
    rl    := F32.zero }

/-- Put a note in the lowest-numbered free slot (rule R143). -/
def placeNote (t : Slot) (P : Part) : Part := { P with slots := P.slots.setIfInBounds P.lowestFree t }

/-- The part after an admitted NOTE_ON (rules R141 to R144). -/
def startNote (c : Cfg) (key vel : BitVec 7) (sset : BitVec 24) (P : Part) : Part :=
  let cut := if isMono P then monoCut P else P
  placeNote (newNote (c.envParams P.live sset key vel) P.snapshot key vel sset) cut

/-- The sample set a NOTE_ON binds (rule R141): what SAMPLE_SELECT gives, if DSTATE = READY and it exists. -/
def noteSet (c : Cfg) (s : State) (p : PartIx) (key : BitVec 7) : Option (BitVec 24) :=
  if s.dstate = .ready then
    (match c.sampleSelect (s.part p).live key with
      | none => none
      | some k => if k.toNat < s.ss.length then some k else none)
  else none

/-- NOTE_ON (rule R141) under a configuration. -/
def noteOn (c : Cfg) (p : PartIx) (key vel : Byte) (s : State) : State :=
  match midi7 key, velocity7 vel with
  | some k, some v =>
    match noteSet c s p k with
    | none => drop s
    | some set =>
      if slotBudget (s.part p) ≤ notesKept (s.part p) then drop s
      else complete 0 (s.setPart p (startNote c k v set (s.part p)))
  | _, _ => drop s

/-- NOTE_ON (rule R141). -/
def execNoteOn (p : PartIx) (key vel : Byte) (s : State) : Answer := .next (noteOn Config.hw p key vel s)

/-- Release every note whose key satisfies `q` (rules R145, R148). -/
def releaseWhere (q : BitVec 7 → Bool) (P : Part) : Part :=
  P.mapSlots fun t => if t.occupied && q t.key then envRelease t else t

/-- The part after NOTE_OFF of a key (rule R145). -/
def stopNote (key : BitVec 7) (P : Part) : Part :=
  if P.hold then P.addHeld key else releaseWhere (fun k => k == key) P

/-- NOTE_OFF (rule R145). -/
def execNoteOff (p : PartIx) (key : Byte) (s : State) : Answer :=
  .next (match midi7 key with
    | none => drop s
    | some k => complete 0 (s.setPart p (stopNote k (s.part p))))

/-! ### Controllers -/

/-- The hold pedal comes up (rule R148). -/
def pedalUp (P : Part) : Part :=
  if P.hold then setHold false (releaseWhere P.isHeld P).clearHeld else P

/-- `HOLD_PEDAL(p, v)` (rules R147, R148). -/
def holdPedal (v : BitVec 7) (P : Part) : Part := if switchOn v then setHold true P else pedalUp P

/-- The part after a controller change (rule R146); a controller not listed has no effect. -/
def controlChange (controller value : BitVec 7) (P : Part) : Part :=
  match controller.toNat with
  | 1 => { P with mod := value }
  | 5 => P.setParam 0x17 (value.setWidth 8)
  | 7 => P.setParam 0x01 (value.setWidth 8)
  | 10 => P.setParam 0x02 (value.setWidth 8)
  | 11 => { P with expr := value }
  | 64 => holdPedal value P
  | 65 => P.setParam 0x16 (if switchOn value then 1 else 0)
  | 91 => P.setParam 0x03 (value.setWidth 8)
  | 93 => P.setParam 0x04 (value.setWidth 8)
  | _ => P

/-- CTRL (rule R146). -/
def execCtrl (p : PartIx) (controller value : Byte) (s : State) : Answer :=
  .next (match midi7 controller, midi7 value with
    | some c, some v => complete 0 (s.setPart p (controlChange c v (s.part p)))
    | _, _ => drop s)

/-! ### Program, pressure and bend -/

/-- PROG (rule R149) under a configuration. -/
def setProgram (c : Cfg) (p : PartIx) (indexLo indexHi : Byte) (s : State) : State :=
  let i := programIndex indexLo indexHi
  if c.programValid i then
    let P := s.part p
    complete 0 (s.setPart p { P with prog := i, mode := (c.programMode i).getD P.mode })
  else drop s

/-- PROG (rule R149). -/
def execProg (p : PartIx) (indexLo indexHi : Byte) (s : State) : Answer :=
  .next (setProgram Config.hw p indexLo indexHi s)

/-- CHPRESS (rule R150). -/
def execChpress (p : PartIx) (value : Byte) (s : State) : Answer :=
  .next (match midi7 value with
    | none => drop s
    | some v => complete 0 (s.setPart p { s.part p with chp := v }))

/-- POLYPRESS (rule R151). -/
def execPolypress (p : PartIx) (key value : Byte) (s : State) : Answer :=
  .next (match midi7 key, midi7 value with
    | some k, some v =>
      complete 0 (s.setPart p { s.part p with pkp := (s.part p).pkp.set k.toNat v k.isLt })
    | _, _ => drop s)

/-- BEND (rule R152). -/
def execBend (p : PartIx) (lsb msb : Byte) (s : State) : Answer :=
  .next (match midi7 lsb, midi7 msb with
    | some l, some m => complete 0 (s.setPart p { s.part p with bend := bendValue l m })
    | _, _ => drop s)

/-! ### All notes off and the part reset -/

/-- ALLOFF (rule R153). -/
def execAlloff (p : PartIx) (s : State) : Answer :=
  .next (complete 0 (s.setPart p ((s.part p).mapSlots killOccupied).clearHeld))

/-- The registers PRESET restores (rule R154); MUTE, PEAK, HELD, HOLD and the slots stay. -/
def restoreDefaults (p : PartIx) (P : Part) : Part :=
  { P with
    pr := paramReset p, prog := 0, mode := .normal, bend := 8192, mod := 0, expr := 127, chp := 0,
    pkp := Vector.replicate 128 0 }

/-- PRESET (rule R154): the pedal release first, then the defaults. -/
def execPreset (p : PartIx) (s : State) : Answer :=
  .next (complete 0 (s.setPart p (restoreDefaults p (holdPedal 0 (s.part p)))))

/-! ### Registers and queries -/

/-- MUTE (rule R155). -/
def execMute (p : PartIx) (m : Byte) (s : State) : Answer :=
  .next (if m.toNat ≤ 1 then complete 0 (s.setPart p (setMute (m == 1) (s.part p))) else reject s)

/-- SETPARAM (rule R156). -/
def execSetparam (p : PartIx) (id value : Byte) (s : State) : Answer :=
  .next (match paramId id with
    | none => reject s
    | some r =>
      if legalValue r value then complete 0 (s.setPart p ((s.part p).setParam r.val value)) else reject s)

/-- A flag read as a register (rule R157). -/
def boolWord (b : Bool) : Word := if b then 1 else 0

/-- The local registers GETPARAM reads (rules R28, R157), by id; none for an unassigned id. -/
def localParam (id : Byte) (P : Part) : Option Word :=
  match id.toNat with
  | 0x20 => some ((P.prog.extractLsb' 0 8).setWidth 32)
  | 0x21 => some ((P.prog.extractLsb' 8 8).setWidth 32)
  | 0x22 => some ((modeCode P.mode).setWidth 32)
  | 0x23 => some ((P.bend.extractLsb' 0 7).setWidth 32)
  | 0x24 => some ((P.bend.extractLsb' 7 7).setWidth 32)
  | 0x25 => some (P.mod.setWidth 32)
  | 0x26 => some (P.expr.setWidth 32)
  | 0x27 => some (boolWord P.hold)
  | 0x28 => some (boolWord P.mute)
  | 0x29 => some (P.chp.setWidth 32)
  | 0x2A => some (BitVec.ofNat 32 P.active)
  | _ => none

/-- GETPARAM (rule R157). -/
def execGetparam (p : PartIx) (id : Byte) (s : State) : Answer :=
  .next (match paramId id with
    | some r => complete ((s.part p).pr[r.val].setWidth 32) s
    | none =>
      match localParam id (s.part p) with
      | some v => complete v s
      | none => reject s)

/-- HELDQ (rule R158). -/
def execHeldq (p : PartIx) (key : Byte) (s : State) : Answer :=
  .next (match midi7 key with
    | none => reject s
    | some k => complete (boolWord ((s.part p).isHeld k)) s)

/-- The word VOICEQ reads from a slot (rule R159): [23:16] velocity, [15:8] key, [2:0] phase. -/
def voiceWord (t : Slot) : Word :=
  if t.occupied then 0#8 ++ t.vel.setWidth 8 ++ t.key.setWidth 8 ++ 0#5 ++ phaseCode t.phase else 0x00000007

/-- VOICEQ (rule R159). -/
def execVoiceq (p : PartIx) (slot : Byte) (s : State) : Answer :=
  .next (match slotId slot with
    | none => reject s
    | some i => complete (voiceWord (s.part p).slots[i.val]) s)

/-- PKPQ (rule R160). -/
def execPkpq (p : PartIx) (key : Byte) (s : State) : Answer :=
  .next (match midi7 key with
    | none => reject s
    | some k => complete ((s.part p).pkp[k.toNat].setWidth 32) s)

end Sys2Proof.Machine
end

