-- ==== Sys2Proof/Machine/Mix.lean ====
section
/-! DEFINITION. The meanings of TICK, PEAK, MIX_CLEAR and MIX_READ (43_playback_mix.md, rules R208 to R215). -/

namespace Sys2Proof.Machine

/-- The sum of the outputs of the occupied slots, in ascending slot order from `acc` on (rule R208). -/
def sumVoices (voice : Slot → Voice) (acc : F32) : List Slot → F32
  | [] => acc
  | t :: rest => sumVoices voice (if t.occupied then fadd acc (voice t).y else acc) rest

/-- A slot after its voice's step; a free slot is not stepped (rule R208). -/
def stepSlot (voice : Slot → Voice) (t : Slot) : Slot := if t.occupied then (voice t).slot else t

/-- Whether a slot's step records a voice fault (rule R236). -/
def slotFaults (voice : Slot → Voice) (t : Slot) : Bool := t.occupied && (voice t).fault

/-- Adding a part's sum to MIX and updating its peak, unless the part is muted (rules R208, R210). -/
def mixPart (acc : F32) (p : PartIx) (s : State) : State :=
  let P := s.part p
  if P.mute then s
  else { s.setPart p { P with peak := fmax P.peak (fabs acc) } with mix := fadd s.mix acc }

/-- TICK (rule R208) under a configuration. -/
def tick (c : Cfg) (p : PartIx) (s : State) : State :=
  let P0 := (s.part p).mapSlots freeIfDone
  let voice := voiceStep c s.ss P0.live s.xpose
  let acc := sumVoices voice F32.zero P0.slots.toList
  let faulted := P0.slots.toList.any (slotFaults voice)
  let s1 := mixPart acc p (raiseVFault faulted (s.setPart p (P0.mapSlots (stepSlot voice))))
  let s2 := s1.setPart p ((s1.part p).mapSlots freeIfDone)
  complete (BitVec.ofNat 32 (s2.part p).active) s2

/-- TICK (rule R208). -/
def execTick (p : PartIx) (s : State) : Answer := .next (tick Config.hw p s)

/-- PEAK (rule R213): the one read with a side effect. -/
def execPeak (p : PartIx) (s : State) : Answer :=
  .next (complete (s.part p).peak.bits (s.setPart p { s.part p with peak := F32.zero }))

/-- MIX_CLEAR (rule R214). -/
def execMixClear (s : State) : Answer := .next (complete 0 { s with mix := F32.zero })

/-- MIX_READ (rule R215). -/
def execMixRead (s : State) : Answer := .next (complete s.mix.bits s)

end Sys2Proof.Machine
end

