-- ==== Sys2Proof/Machine/Dispatch.lean ====
section
/-! DEFINITION. The opcode map to the meanings: one arm for each command (rule R86). -/

namespace Sys2Proof.Machine

def exec (i : Instr) (s : State) : Host.Outcome State Fault Refusal :=
  match i with
  | .nop => Sys2Proof.Machine.execNop s
  | .decSetgen g => Sys2Proof.Machine.execDecSetgen g s
  | .decStart => Sys2Proof.Machine.execDecStart s
  | .decStatus => Sys2Proof.Machine.execDecStatus s
  | .decAddr o => Sys2Proof.Machine.execDecAddr o s
  | .decData x => Sys2Proof.Machine.execDecData x s
  | .decBank addr => Sys2Proof.Machine.execDecBank addr s
  | .decMeta idx => Sys2Proof.Machine.execDecMeta idx s
  | .decSel k => Sys2Proof.Machine.execDecSel k s
  | .decRead k => Sys2Proof.Machine.execDecRead k s
  | .decInfo f => Sys2Proof.Machine.execDecInfo f s
  | .noteOn p key vel => Sys2Proof.Machine.execNoteOn p key vel s
  | .noteOff p key => Sys2Proof.Machine.execNoteOff p key s
  | .ctrl p controller value => Sys2Proof.Machine.execCtrl p controller value s
  | .prog p indexLo indexHi => Sys2Proof.Machine.execProg p indexLo indexHi s
  | .chpress p value => Sys2Proof.Machine.execChpress p value s
  | .polypress p key value => Sys2Proof.Machine.execPolypress p key value s
  | .bend p lsb msb => Sys2Proof.Machine.execBend p lsb msb s
  | .alloff p => Sys2Proof.Machine.execAlloff p s
  | .preset p => Sys2Proof.Machine.execPreset p s
  | .mute p m => Sys2Proof.Machine.execMute p m s
  | .setparam p id value => Sys2Proof.Machine.execSetparam p id value s
  | .getparam p id => Sys2Proof.Machine.execGetparam p id s
  | .heldq p key => Sys2Proof.Machine.execHeldq p key s
  | .voiceq p slot => Sys2Proof.Machine.execVoiceq p slot s
  | .pkpq p key => Sys2Proof.Machine.execPkpq p key s
  | .tick p => Sys2Proof.Machine.execTick p s
  | .peak p => Sys2Proof.Machine.execPeak p s
  | .mixClear => Sys2Proof.Machine.execMixClear s
  | .mixRead => Sys2Proof.Machine.execMixRead s
  | .setXpose v => Sys2Proof.Machine.execSetXpose v s

end Sys2Proof.Machine
end

