-- ==== Sys2Proof/Machine/Step.lean ====
section
/-! DEFINITION. One step: the block runs the oldest event at its port (rules R70, R71). The order of `State.port` is the
order in which the two host streams' words reached the port: an input, so every interleaving is some list (DESIGN CHOICE:
assumption log 9). -/

namespace Sys2Proof.Machine

/-- Run one command word: the decoded command, or a reject if it is none (rules R87, R88, R237). -/
def runWord (cw : Word) (s : State) : Host.Outcome State Fault Refusal :=
  match decode cw with
  | .ok i => exec i s
  | .error _ => .next (reject s)

/-- One step. With nothing at the port the block does nothing (rule R246). -/
def step (s : State) : Host.Outcome State Fault Refusal :=
  match takeEvent s with
  | none => .next s
  | some (.command cw, s') => runWord cw s'
  | some (.hardwareReset, s') => .next (hardwareReset s')
  | some (.supply files records, s') => supplyInputs files records s'

/-- The state with an instruction's bits placed as the next command at the port, carried in the byte order of rule
R52; bits from `nbits` up are 0. This is how a program comes to run (assumption log 8). -/
def State.withFetchWord (s : State) (nbits w : Nat) : State :=
  let cw : Word := BitVec.ofNat 32 (w % 2 ^ nbits)
  let carried := wordOfBytes (byteOfWord cw 0) (byteOfWord cw 1) (byteOfWord cw 2) (byteOfWord cw 3)
  { s with port := .command carried :: s.port }

end Sys2Proof.Machine
end

