-- ==== Sys2Proof/Machine/Assembler.lean ====
section
/-! DEFINITION. The assembly syntax of rules R90 and R91, one line at a time: a line gives the list of its command
words, none if it is no line of the syntax. It is the host's tool and no part of the machine's step (what
rule R90 leaves open: assumption log 23). -/

namespace Sys2Proof.Machine

/-- How a mnemonic's operands are laid out (rules R81 to R83): none, one immediate, or a part and `n` bytes. -/
inductive AsmFormat where
  | none
  | imm
  | part (n : Nat)
  deriving DecidableEq, Repr

/-- The mnemonics of rule R86, with the opcode and the operands the command uses. -/
def asmTable : List (String × Byte × AsmFormat) := [
  ("NOP", 0x00, .none), ("DEC_SETGEN", 0x01, .imm), ("DEC_START", 0x02, .none), ("DEC_STATUS", 0x03, .none),
  ("DEC_ADDR", 0x04, .imm), ("DEC_DATA", 0x05, .imm), ("DEC_BANK", 0x06, .imm), ("DEC_META", 0x07, .imm),
  ("DEC_SEL", 0x08, .imm), ("DEC_READ", 0x09, .imm), ("DEC_INFO", 0x0A, .imm), ("NOTE_ON", 0x10, .part 2),
  ("NOTE_OFF", 0x11, .part 1), ("CTRL", 0x12, .part 2), ("PROG", 0x13, .part 2), ("CHPRESS", 0x14, .part 1),
  ("POLYPRESS", 0x15, .part 2), ("BEND", 0x16, .part 2), ("ALLOFF", 0x17, .part 0), ("PRESET", 0x18, .part 0),
  ("MUTE", 0x19, .part 1), ("SETPARAM", 0x1A, .part 2), ("GETPARAM", 0x1B, .part 1), ("HELDQ", 0x1C, .part 1),
  ("VOICEQ", 0x1D, .part 1), ("PKPQ", 0x1E, .part 1), ("TICK", 0x20, .part 0), ("PEAK", 0x21, .part 0),
  ("MIX_CLEAR", 0x22, .none), ("MIX_READ", 0x23, .none), ("SET_XPOSE", 0x24, .imm)]

/-- The value of a digit below `base`, if the character is one. -/
def asmDigit (base : Nat) (ch : Char) : Option Nat :=
  let n := ch.toNat
  let v := if 48 ≤ n ∧ n ≤ 57 then n - 48
    else if 65 ≤ n ∧ n ≤ 70 then n - 55
    else if 97 ≤ n ∧ n ≤ 102 then n - 87
    else base
  if v < base then some v else none

/-- The digits of a number, after the value `acc` of those before them. -/
def asmDigits (base : Nat) (acc : Nat) : List Char → Option Nat
  | [] => some acc
  | ch :: rest => (asmDigit base ch).bind fun d => asmDigits base (acc * base + d) rest

/-- A number (rule R90): decimal, or hexadecimal with a `0x` prefix; at least one digit. -/
def asmNumber : List Char → Option Nat
  | [] => none
  | '0' :: 'x' :: ch :: rest => asmDigits 16 0 (ch :: rest)
  | ch :: rest => asmDigits 10 0 (ch :: rest)

/-- A part operand `pN` (rule R90), N below NUM_PARTS. -/
def asmPart : List Char → Option PartIx
  | 'p' :: ds => (asmNumber ds).bind fun n => if h : n < Config.numParts then some ⟨n, h⟩ else none
  | _ => none

/-- A number that fits `w` bits. -/
def asmBits (w : Nat) (cs : List Char) : Option (BitVec w) :=
  (asmNumber cs).bind fun n => if n < 2 ^ w then some (BitVec.ofNat w n) else none

/-- The pieces of a line between the characters that satisfy `sep`, empty ones too; `cur` is the piece so far. -/
def asmSplit (sep : Char → Bool) (cur : List Char) : List Char → List (List Char)
  | [] => [cur]
  | ch :: rest => if sep ch then cur :: asmSplit sep [] rest else asmSplit sep (cur ++ [ch]) rest

/-- A piece without the blanks around it. -/
def asmTrim (cs : List Char) : List Char :=
  ((cs.dropWhile (· == ' ')).reverse.dropWhile (· == ' ')).reverse

/-- The mnemonic and the comma-separated operands of a line without its comment. -/
def asmFields (line : List Char) : List Char × List (List Char) :=
  let body := asmTrim (line.takeWhile (· != ';'))
  let name := body.takeWhile (· != ' ')
  let rest := asmTrim (body.drop name.length)
  (name, if rest = [] then [] else (asmSplit (· == ',') [] rest).map asmTrim)

/-- The word of a mnemonic with its operands, those left out being 0 (rules R81 to R83, R90). -/
def asmWord (op : Byte) : AsmFormat → List (List Char) → Option Word
  | .none, [] => some (op ++ 0#24)
  | .imm, [v] => (asmBits 24 v).map fun imm => op ++ imm
  | .part 0, [p] => (asmPart p).map fun p => op ++ immP p 0 0
  | .part 1, [p, a] => (asmPart p).bind fun p => (asmBits 8 a).map fun a => op ++ immP p a 0
  | .part 2, [p, a, b] =>
    (asmPart p).bind fun p => (asmBits 8 a).bind fun a => (asmBits 8 b).map fun b => op ++ immP p a b
  | _, _ => none

/-- The pseudo-instruction a mnemonic and its operands name (rule R91). -/
def asmPseudo (name : List Char) (args : List (List Char)) : Option Pseudo :=
  match args with
  | [] => if name = "FRAME".toList then some .frame else none
  | [p] =>
    (asmPart p).bind fun p =>
      if name = "HOLD_ON".toList then some (.holdOn p)
      else if name = "HOLD_OFF".toList then some (.holdOff p)
      else if name = "SET_MONO".toList then some (.setMono p)
      else if name = "SET_POLY".toList then some (.setPoly p)
      else none
  | [p, v] =>
    (asmPart p).bind fun p =>
      if name = "VOLUME".toList then (asmBits 8 v).map (.volume p)
      else if name = "BEND14".toList then (asmBits 14 v).map (.bend14 p)
      else if name = "PROG16".toList then (asmBits 16 v).map (.prog16 p)
      else none
  | _ => none

/-- The words a line assembles to (rules R90, R91); an empty line or a comment alone gives none of them. -/
def assembleLine (line : List Char) : Option (List Word) :=
  let f := asmFields line
  if f.1 = [] then some []
  else
    match asmTable.find? fun row => row.1.toList == f.1 with
    | some row => (asmWord row.2.1 row.2.2 f.2).map fun w => [w]
    | none => (asmPseudo f.1 f.2).map fun p => p.expand.map encode

end Sys2Proof.Machine
end

