-- ==== Sys2Proof/Safety.lean ====
section
/-! DEFINITION. What the statements mean by a good state and a good run: the invariants of rules R24, R25, R36, R182,
R188 and R207 as predicates of the state, the interleavings of rule R71, and the views of the state that frames name. -/

namespace Sys2Proof.Machine

/-- The four carried bytes of a word, put together again (rule R52). -/
abbrev carriedWord (cw : Word) : Word :=
  wordOfBytes (byteOfWord cw 0) (byteOfWord cw 1) (byteOfWord cw 2) (byteOfWord cw 3)

/-- The part a format-P command acts on (rules R83, R140); none for formats N and D. -/
def instrPart : Instr → Option PartIx
  | .nop => none
  | .decSetgen _ => none
  | .decStart => none
  | .decStatus => none
  | .decAddr _ => none
  | .decData _ => none
  | .decBank _ => none
  | .decMeta _ => none
  | .decSel _ => none
  | .decRead _ => none
  | .decInfo _ => none
  | .noteOn p _ _ => some p
  | .noteOff p _ => some p
  | .ctrl p _ _ => some p
  | .prog p _ _ => some p
  | .chpress p _ => some p
  | .polypress p _ _ => some p
  | .bend p _ _ => some p
  | .alloff p => some p
  | .preset p => some p
  | .mute p _ => some p
  | .setparam p _ _ => some p
  | .getparam p _ => some p
  | .heldq p _ => some p
  | .voiceq p _ => some p
  | .pkpq p _ => some p
  | .tick p => some p
  | .peak p => some p
  | .mixClear => none
  | .mixRead => none
  | .setXpose _ => none

/-- The commands that may change slot state (rule R35). -/
def changesSlots : Instr → Bool
  | .noteOn _ _ _ => true
  | .noteOff _ _ => true
  | .ctrl _ controller _ => controller == 64
  | .alloff _ => true
  | .preset _ => true
  | .tick _ => true
  | .nop => false
  | .decSetgen _ => false
  | .decStart => false
  | .decStatus => false
  | .decAddr _ => false
  | .decData _ => false
  | .decBank _ => false
  | .decMeta _ => false
  | .decSel _ => false
  | .decRead _ => false
  | .decInfo _ => false
  | .prog _ _ _ => false
  | .chpress _ _ => false
  | .polypress _ _ _ => false
  | .bend _ _ _ => false
  | .mute _ _ => false
  | .setparam _ _ _ => false
  | .getparam _ _ => false
  | .heldq _ _ => false
  | .voiceq _ _ => false
  | .pkpq _ _ => false
  | .peak _ => false
  | .mixClear => false
  | .mixRead => false
  | .setXpose _ => false

/-- The bits of a command word that an opcode's command reads; the others are 0 or ignored (rules R81 to R83, R86). -/
def usedBits (op : Byte) : Word :=
  match op.toNat with
  | 0x11 => 0xFFFFFF00
  | 0x14 => 0xFFFFFF00
  | 0x17 => 0xFFFF0000
  | 0x18 => 0xFFFF0000
  | 0x19 => 0xFFFFFF00
  | 0x1B => 0xFFFFFF00
  | 0x1C => 0xFFFFFF00
  | 0x1D => 0xFFFFFF00
  | 0x1E => 0xFFFFFF00
  | 0x20 => 0xFFFF0000
  | 0x21 => 0xFFFF0000
  | _ => 0xFFFFFFFF

/-- The opcodes rule R87 leaves unassigned. -/
def unassignedOp (op : Byte) : Prop :=
  (0x0B ≤ op.toNat ∧ op.toNat ≤ 0x0F) ∨ op.toNat = 0x1F ∨ 0x25 ≤ op.toNat

/-- The opcodes of format N (rule R86). -/
def formatN (op : Byte) : Prop :=
  op.toNat = 0x00 ∨ op.toNat = 0x02 ∨ op.toNat = 0x03 ∨ op.toNat = 0x22 ∨ op.toNat = 0x23

/-- The opcodes of format D with the number of low IMM bits their command uses (rule R86). -/
def formatD (op : Byte) (used : Nat) : Prop :=
  (op.toNat = 0x01 ∧ used = 2) ∨ (op.toNat = 0x04 ∧ used = 20) ∨ (op.toNat = 0x05 ∧ used = 8) ∨
    (op.toNat = 0x06 ∧ used = 24) ∨ (op.toNat = 0x07 ∧ used = 4) ∨ (op.toNat = 0x08 ∧ used = 24) ∨
    (op.toNat = 0x09 ∧ used = 24) ∨ (op.toNat = 0x0A ∧ used = 3) ∨ (op.toNat = 0x24 ∧ used = 8)

/-- The opcodes of format P (rule R86). -/
def formatP (op : Byte) : Prop :=
  (0x10 ≤ op.toNat ∧ op.toNat ≤ 0x1E) ∨ op.toNat = 0x20 ∨ op.toNat = 0x21

/-- `l` is an interleaving of `xs` and `ys` that keeps each one's own order (rule R71). -/
inductive Interleave {α : Type} : List α → List α → List α → Prop where
  | nil : Interleave [] [] []
  | left (x : α) {xs ys l : List α} : Interleave xs ys l → Interleave (x :: xs) ys (x :: l)
  | right (y : α) {xs ys l : List α} : Interleave xs ys l → Interleave xs (y :: ys) (y :: l)

/-- A non-negative binary32 value of at most 1.0 (rules R181, R188). -/
def InUnit (x : F32) : Prop := x.bits.toNat ≤ 0x3F800000

/-- `r` is the ratio `num / den`, in units of 2^-149, rounded once to nearest, ties to even, as rule R10 says: no finite
value is nearer, of two that are equally near it is the one with an even encoding, from half a step past the largest finite
value on it is an infinity, and its sign is that of the ratio when this is not 0. -/
structure RoundsTo (r : F32) (num den : Int) : Prop where
  finite : |num| < 0x1FFFFFF * 2 ^ 252 * |den| → isFinite r = true
  overflow : 0x1FFFFFF * 2 ^ 252 * |den| ≤ |num| → isInf r = true
  sign : num ≠ 0 → (fsign r = true ↔ num * den < 0)
  nearest : isFinite r = true → ∀ z : F32, isFinite z = true → |fval r * den - num| ≤ |fval z * den - num|
  tie_even : isFinite r = true → ∀ z : F32, isFinite z = true → fval z ≠ fval r →
    |fval z * den - num| = |fval r * den - num| → r.bits.getLsbD 0 = false

/-- What DEC_START guarantees of a sample set (rules R25, R110, R121): one value more than sampleLength, no ping-pong
loop, and finite values. -/
structure SetOk (g : SampleSet) : Prop where
  length_eq : g.w.length = setLen g
  not_pingpong : g.loopMode ≠ 1
  finite : ∀ x ∈ g.w, isFinite x = true

/-- The envelope counter is below the phase's duration, and 0 in a phase that has none (rule R182). -/
def EnvTimed (t : Slot) : Prop :=
  match envDur t with
  | some d => t.cnt.toNat < d.toNat
  | none => t.cnt = 0

/-- An occupied slot is a playable note: its sample set exists, it has not run past the waveform (rule R207), and its
envelope is in range (rules R181, R182, R188). -/
structure NoteOk (ss : List SampleSet) (t : Slot) : Prop where
  set_exists : t.sset.toNat < ss.length
  in_wave : ∀ g, ss[t.sset.toNat]? = some g → t.phase ≠ .done → (posIndex t.pos).toNat < setLen g
  timed : EnvTimed t
  sus_unit : InUnit t.sus
  rl_unit : InUnit t.rl

/-- The invariant of the decoder state and the global registers (rules R21 to R25, R32, R111). -/
structure DecoderInv (s : State) : Prop where
  idle_empty : s.dstate ≠ .ready →
    s.ss = [] ∧ s.plain = [] ∧ s.nbanks = 0 ∧ s.version = Vector.replicate 4 0 ∧ s.date = Vector.replicate 10 0
  error_code : s.dstate = .error ↔ s.ecode ≠ .none
  image_canonical : Memory.wf s.plain
  image_inside : ∀ x ∈ s.plain, x.1 < s.nbanks * Config.bankSize
  banks_bound : s.nbanks ≤ Config.maxBanks
  sets_ok : ∀ g ∈ s.ss, SetOk g
  sets_bound : s.ss.length < Config.metaLimit
  inputs_ok : inputsOk s.romFiles s.smeta = true
  xpose_legal : s.xpose.toNat ≤ 127

/-- The invariant of one part (rules R27, R36): legal parameter values, held keys only under the pedal, and notes only
while DSTATE = READY, each one playable. -/
structure PartInv (s : State) (P : Part) : Prop where
  params_legal : ∀ id : Fin Config.numParams, legalParam (BitVec.ofNat 8 id.val) P.pr[id.val] = true
  held_pedal : P.held ≠ 0 → P.hold = true
  notes_ready : ∀ t ∈ P.slots.toList, t.occupied = true → s.dstate = .ready
  notes_ok : ∀ t ∈ P.slots.toList, t.occupied = true → NoteOk s.ss t

/-- The invariant of the whole state: what holds after every command (rule R36). -/
structure State.Inv (s : State) : Prop where
  decoder : DecoderInv s
  parts : ∀ p : PartIx, PartInv s (s.part p)

/-- The two states agree on everything that only DEC_START and reset change (rule R35). -/
def sameDecoder (s t : State) : Prop :=
  t.dstate = s.dstate ∧ t.ecode = s.ecode ∧ t.nbanks = s.nbanks ∧ t.plain = s.plain ∧ t.ss = s.ss ∧
    t.version = s.version ∧ t.date = s.date

/-- The sum of the fixed-point deltas of `n` positions from image address `a` on (rules R107, R122). -/
def fixedSum (plain : Memory) : (n a : Nat) → Int
  | 0, _ => 0
  | n + 1, a =>
    let cell : BitVec 32 := BitVec.ofNat 32 a
    let companion := Memory.read plain (companionAddr cell).toNat
    deltaFixed (Memory.read plain a) (if cell.getLsbD 4 then companion.extractLsb' 4 4 else companion.extractLsb' 0 4) +
      fixedSum plain n (a + 1)

end Sys2Proof.Machine
end

