-- ==== Sys2Proof/Certificates/Slice0/Obligations.lean ====
section
/-! DEFINITION. The statements for the provers. Each docstring names the rules a statement formalises. `Config.hw` is the
configuration of this hardware, of which nothing is known (rule R7). Where a command's rule uses it, the statement gives
the command's effect for EVERY configuration `c`, and says that `exec` is that effect at `Config.hw`. -/

open Sys2Proof Sys2Proof.Machine

/-! ### The command port and the encoding -/

/-- Rules R81 to R83, R86: decoding the word of a command gives the command back, with every operand at every value. -/
def Obligations.DecodeEncodeRoundTrip : Prop :=
  ∀ i : Instr, decode (encode i) = .ok i

/-- Rules R83, R85, R86: the command a word decodes to carries every bit of the word that its command reads, in its
place; the bits that differ are the A and B bytes it ignores. -/
def Obligations.DecodedCommandKeepsUsedBits : Prop :=
  ∀ (w : Word) (i : Instr), decode w = .ok i → encode i = w &&& usedBits (opField w)

/-- Rule R86, and the assembled words of the spec's own table V-ENC-1. -/
def Obligations.SpecWordsDecode : Prop :=
  decode 0x00000000 = .ok .nop ∧ decode 0x01000002 = .ok (.decSetgen 2) ∧ decode 0x0400001F = .ok (.decAddr 0x1F) ∧
  decode 0x06100040 = .ok (.decBank 0x100040) ∧ decode 0x10003C64 = .ok (.noteOn 0 60 100) ∧
  decode 0x1220075A = .ok (.ctrl 2 7 90) ∧ decode 0x13000501 = .ok (.prog 0 5 1) ∧
  decode 0x19100100 = .ok (.mute 1 1) ∧ decode 0x20F00000 = .ok (.tick 15) ∧ decode 0x24000042 = .ok (.setXpose 66)

/-- Rule R87: a word with an unassigned opcode is rejected and has no other effect. -/
def Obligations.UnassignedOpcodesAreRejected : Prop :=
  ∀ (cw : Word) (rest : List PortEvent) (s : State), s.port = .command cw :: rest → unassignedOp (opField cw) →
    step s = .next { s with port := rest, cmdErr := true, res := 0xFFFFFFFF }

/-- Rule R88 (1) to (3): a must-be-zero field that is not zero rejects the word, in each of the three formats. Case (4)
cannot arise, since PART has 4 bits and NUM_PARTS is 16. -/
def Obligations.MustBeZeroFieldsReject : Prop :=
  ∀ (cw : Word) (rest : List PortEvent) (s : State), s.port = .command cw :: rest →
    ((formatN (opField cw) ∧ immField cw ≠ 0) ∨
      (∃ used, formatD (opField cw) used ∧ 2 ^ used ≤ (immField cw).toNat) ∨
      (formatP (opField cw) ∧ cw.extractLsb' 16 4 ≠ 0)) →
    step s = .next { s with port := rest, cmdErr := true, res := 0xFFFFFFFF }

/-- Rules R70, R80: the block takes the oldest word from the port and runs the command it decodes to, on the state the
previous command left; nothing else happens in the step. -/
def Obligations.StepRunsTheDecodedCommand : Prop :=
  ∀ (cw : Word) (rest : List PortEvent) (i : Instr) (s : State),
    s.port = .command cw :: rest → decode cw = .ok i → step s = exec i { s with port := rest }

/-- Rule R246 (nothing happens without a command), and how the host's inputs arrive (rule R21). The supply event and its
refusal are the model's choice (assumption log 5): inputs rule R21 admits are taken; a file whose contents are no byte
sequence in canonical form, or 2^24 records or more, make the supply refused. -/
def Obligations.StepWithoutACommand : Prop :=
  (∀ s : State, s.port = [] → step s = .next s) ∧
  (∀ (files : List RomEntry) (records : List SampleMeta) (rest : List PortEvent) (s : State),
    s.port = .supply files records :: rest →
      ((∀ f, RomEntry.file f ∈ files → RomFile.wf f) → records.length < 2 ^ 24 →
        step s = .next { s with port := rest, romFiles := files, smeta := records }) ∧
      ((∃ f, RomEntry.file f ∈ files ∧ ¬ RomFile.wf f) ∨ 2 ^ 24 ≤ records.length →
        step s = .refused .inputsIllFormed))

/-- Rules R260, R262: hardware reset, between two commands, gives every element the reset value of its table, whatever the
state, and leaves the inputs as they are. That the events waiting behind it stay at the port (`t.port = rest`) is the
model's choice (assumption log 10). -/
def Obligations.HardwareResetRestoresEveryElement : Prop :=
  ∀ (rest : List PortEvent) (s : State), s.port = .hardwareReset :: rest →
    ∃ t : State, step s = .next t ∧
      t.gen = 0 ∧ t.dstate = .idle ∧ t.ecode = .none ∧ t.nbanks = 0 ∧ t.plain = [] ∧ t.ss = [] ∧
      (∀ i : Fin 4, t.version[i.val] = 0) ∧ (∀ i : Fin 10, t.date[i.val] = 0) ∧ t.ssel = 0 ∧
      t.mix.bits = 0 ∧ t.xpose = 64 ∧ t.cmdErr = false ∧ t.vfault = false ∧
      t.romFiles = s.romFiles ∧ t.smeta = s.smeta ∧ t.port = rest ∧
      ∀ p : PartIx,
        (∀ id : Fin Config.numParams, (t.part p).pr[id.val].toNat =
          [p.val, 100, 64, 40, 0, 64, 2, 10, 0, 127, 64, 64, 64, 64, 64, 64, 64, 64, 64, 64, 1, 24, 0, 0][id.val]!) ∧
        (t.part p).prog = 0 ∧ (t.part p).mode = .normal ∧ (t.part p).bend = 8192 ∧ (t.part p).mod = 0 ∧
        (t.part p).expr = 127 ∧ (t.part p).hold = false ∧ (t.part p).mute = false ∧ (t.part p).chp = 0 ∧
        (∀ k : Fin 128, (t.part p).pkp[k.val] = 0) ∧ (t.part p).held = 0 ∧ (t.part p).peak.bits = 0 ∧
        ∀ i : SlotIx, ∃ u : Slot, (t.part p).slots[i.val] = u ∧ u.phase = .free ∧ u.key = 0 ∧ u.vel = 0 ∧ u.sset = 0 ∧
          (∀ id : Fin Config.numParams, u.snap.pr[id.val] = 0) ∧ u.snap.prog = 0 ∧ u.snap.mode = .normal ∧ u.pos = 0 ∧
          u.cnt = 0 ∧ u.tA = 0 ∧ u.tH = 0 ∧ u.tD = 0 ∧ u.tR = 0 ∧ u.sus.bits = 0 ∧ u.rl.bits = 0

/-! ### Rejects, drops and what commands leave alone -/

/-- Rules R233, R237 (4) and the reject checks of the command rules: an operand the command's rule rejects in every
state rejects the command, which writes CMD_ERR alone. -/
def Obligations.IllFormedOperandsReject : Prop :=
  ∀ (i : Instr) (s : State), i.wellFormed = false →
    exec i s = .next { s with cmdErr := true, res := 0xFFFFFFFF }

/-- Rules R140, R234: a MIDI operand out of its range drops the command, which writes no state and returns 0. -/
def Obligations.OutOfRangeMidiOperandsDrop : Prop :=
  ∀ (p : PartIx) (a b : Byte) (s : State),
    (127 < a.toNat ∨ b.toNat < 1 ∨ 127 < b.toNat → exec (.noteOn p a b) s = .next { s with res := 0 }) ∧
    (127 < a.toNat → exec (.noteOff p a) s = .next { s with res := 0 } ∧
      exec (.chpress p a) s = .next { s with res := 0 }) ∧
    (127 < a.toNat ∨ 127 < b.toNat → exec (.ctrl p a b) s = .next { s with res := 0 } ∧
      exec (.polypress p a b) s = .next { s with res := 0 } ∧ exec (.bend p a b) s = .next { s with res := 0 })

/-- Rule R233: whenever a command sets CMD_ERR, that and the result word are all it wrote. -/
def Obligations.RejectWritesOnlyCmdErr : Prop :=
  ∀ (i : Instr) (s t : State), exec i s = .next t → s.cmdErr = false → t.cmdErr = true →
    t = { s with cmdErr := true, res := 0xFFFFFFFF }

/-- Rules R70, R235, R239: nothing traps. Any stream of command words, legal or not, runs to its end, one word a step,
and the words behind it stay at the port. That State holds the waiting words as a list, in the order in which they reached
the port, is the model's choice (assumption log 8, 9). -/
def Obligations.AnyCommandStreamRunsToItsEnd : Prop :=
  ∀ (cws : List Word) (rest : List PortEvent) (s : State), s.port = cws.map PortEvent.command ++ rest →
    ∃ t : State, Sys2Proof.core.run cws.length s = .next t ∧ t.port = rest

/-- Rule R35: DSTATE, ECODE, NBANKS, PLAIN, SS, VERSION and DATE change only by DEC_START and reset; no command changes
the inputs (rule R21) or the words waiting at the port. -/
def Obligations.OnlyDecStartChangesTheDecodedData : Prop :=
  ∀ (i : Instr) (s t : State), exec i s = .next t →
    (i ≠ .decStart → sameDecoder s t) ∧ t.romFiles = s.romFiles ∧ t.smeta = s.smeta ∧ t.port = s.port

/-- Rules R35, R83, R140, R244: a part command leaves every other part alone, the other commands leave all parts alone,
and slots change only by NOTE_ON, NOTE_OFF, CTRL (controller 64), ALLOFF, PRESET and TICK. -/
def Obligations.CommandsTouchOnlyTheirPart : Prop :=
  ∀ (i : Instr) (s t : State) (q : PartIx), exec i s = .next t →
    (instrPart i ≠ some q → t.part q = s.part q) ∧
    (changesSlots i = false → (t.part q).slots = (s.part q).slots)

/-- Rules R22, R26, R32, R33: GEN, SSEL, XPOSE and MIX are written by the commands their tables name and by no other;
no command clears CMD_ERR or VFAULT, and VFAULT is set by TICK alone. -/
def Obligations.GlobalRegistersHaveTheirWriters : Prop :=
  ∀ (i : Instr) (s t : State), exec i s = .next t →
    ((∀ g, i ≠ .decSetgen g) → t.gen = s.gen) ∧ ((∀ k, i ≠ .decSel k) → t.ssel = s.ssel) ∧
    ((∀ v, i ≠ .setXpose v) → t.xpose = s.xpose) ∧
    (i ≠ .mixClear → (∀ p, i ≠ .tick p) → t.mix = s.mix) ∧
    (s.cmdErr = true → t.cmdErr = true) ∧ (s.vfault = true → t.vfault = true) ∧
    ((∀ p, i ≠ .tick p) → t.vfault = s.vfault)

/-! ### The decoder -/

/-- Rule R101: DEC_SETGEN sets GEN to 0, 1 or 2, and is rejected for 3. -/
def Obligations.DecSetgenSelectsTheGeneration : Prop :=
  (∀ (g : Fin Config.numGens) (s : State),
    exec (.decSetgen (BitVec.ofNat 2 g.val)) s = .next { s with gen := g, res := 0 }) ∧
  ∀ s : State, exec (.decSetgen 3) s = .next { s with cmdErr := true, res := 0xFFFFFFFF }

/-- Rules R100, R117, R161, R214, R215: NOP, DEC_SEL, SET_XPOSE, MIX_CLEAR and MIX_READ, whole. That DEC_SEL never rejects
is the model's reading of rule R117 over the list of rule R233, which names it (DEDUCED: assumption log 21). -/
def Obligations.PlainRegisterCommands : Prop :=
  ∀ s : State,
    exec .nop s = .next { s with res := 0 } ∧
    (∀ k, exec (.decSel k) s = .next { s with ssel := k, res := 0 }) ∧
    (∀ v : Byte, v.toNat ≤ 127 → exec (.setXpose v) s = .next { s with xpose := v, res := 0 }) ∧
    (∀ v : Byte, 127 < v.toNat → exec (.setXpose v) s = .next { s with cmdErr := true, res := 0xFFFFFFFF }) ∧
    exec .mixClear s = .next { s with mix := ⟨0x00000000⟩, res := 0 } ∧
    exec .mixRead s = .next { s with res := s.mix.bits }

/-- Rules R23, R112: DEC_STATUS returns the STATUS word and writes nothing else; where each field stands, and that
bits [31:10] are 0. -/
def Obligations.DecStatusReturnsTheStatusWord : Prop :=
  ∀ s : State, ∃ r : Word, exec .decStatus s = .next { s with res := r } ∧
    (r.extractLsb' 0 2).toNat = (match s.dstate with | .idle => 0 | .ready => 1 | .error => 2) ∧
    (r.extractLsb' 2 2).toNat = s.gen.val ∧
    (r.extractLsb' 4 4).toNat = (match s.ecode with
      | .none => 0 | .noRom => 1 | .openFile => 2 | .size => 3 | .bankId => 4 | .undef => 5) ∧
    r.getLsbD 8 = s.cmdErr ∧ r.getLsbD 9 = s.vfault ∧ r.extractLsb' 10 22 = 0

/-- Rules R56, R113: DEC_ADDR returns AMAP(o): o itself below 0x20, and past the header bit j of o at bit ADDR_PERM[j];
for every configuration, this hardware's among them. -/
def Obligations.DecAddrReturnsAmap : Prop :=
  (∀ (o : BitVec 20) (s : State), exec (.decAddr o) s = .next { s with res := (amap Config.hw o).setWidth 32 }) ∧
  ∀ (c : Cfg) (o : BitVec 20),
    (o.toNat < 0x20 → amap c o = o) ∧
    (0x20 ≤ o.toNat → ∀ j : Fin 20, (amap c o).getLsbD (c.addrPerm j).val = o.getLsbD j.val)

/-- Rules R57, R114: DEC_DATA returns DMAP(x): bit j of the plain byte is bit DATA_PERM[j] of the raw byte; 0x00 and
0xFF are fixed. -/
def Obligations.DecDataReturnsDmap : Prop :=
  (∀ (x : Byte) (s : State), exec (.decData x) s = .next { s with res := (dmap Config.hw x).setWidth 32 }) ∧
  ∀ c : Cfg, (∀ (x : Byte) (j : Fin 8), (dmap c x).getLsbD j.val = x.getLsbD (c.dataPerm j).val) ∧
    dmap c 0x00 = 0x00 ∧ dmap c 0xFF = 0xFF

/-- Rule R59 (1) and the source's properties S1 and S2: the address bit permutation is a bijection of [0, 2^20) and the
data permutation a bijection of the bytes. -/
def Obligations.DescramblingIsBijective : Prop :=
  ∀ c : Cfg, Function.Bijective (permuteAddr c.addrPerm) ∧ Function.Bijective (dmap c)

/-- Rule R60 C1 and C2: the ids and the bases a bank map may use. The clauses of C3 (generations 0 and 1 with one map and
without the base 0x200000, generation 2 with it) are the model's choice: rule R60 lets a model drop C3, and this one keeps
it (assumption log 12). -/
def Obligations.BankMapMeetsItsConstraints : Prop :=
  ∀ c : Cfg,
    (∀ (g : Fin Config.numGens) (id : BitVec 3) (b : BitVec 32), bankBase c g id = some b →
      (id = 0 ∨ id = 1 ∨ id = 2 ∨ id = 4) ∧ (b = 0x000000 ∨ b = 0x100000 ∨ b = 0x200000) ∧
      (g ≠ 2 → b ≠ 0x200000)) ∧
    (∀ id : BitVec 3, bankBase c 0 id = bankBase c 1 id) ∧ ∃ id : BitVec 3, bankBase c 2 id = some 0x200000

/-- Rules R61, R115: DEC_BANK resolves bits [22:20] and [19:0] of its operand under GEN, ignores bit 23, and is rejected
for an id the bank map does not define. -/
def Obligations.DecBankResolvesTheAddress : Prop :=
  (∀ (addr : BitVec 24) (s : State), exec (.decBank addr) s = .next (decBank Config.hw addr s)) ∧
  ∀ (c : Cfg) (addr : BitVec 24) (s : State),
    (bankBase c s.gen (addr.extractLsb' 20 3) = none →
      decBank c addr s = { s with cmdErr := true, res := 0xFFFFFFFF }) ∧
    ∀ b : BitVec 32, bankBase c s.gen (addr.extractLsb' 20 3) = some b →
      decBank c addr s = { s with res := b + (addr.extractLsb' 0 20).setWidth 32 }

/-- Rule R51: RAW is the concatenation of the files in list order, file j starting at the sum of the sizes before it;
and it is canonical. -/
def Obligations.RawImageIsTheConcatenation : Prop :=
  ∀ before after : List RomFile, ∀ f : RomFile, (∀ x ∈ before ++ f :: after, RomFile.wf x) →
    Memory.wf (rawImage (before ++ f :: after)) ∧
    ∀ a < f.size, Memory.read (rawImage (before ++ f :: after)) ((before.map RomFile.size).sum + a) =
      Memory.read f.cells a

/-- Rule R58: the descrambled image, byte by byte: header bytes are copied, and past the header the plain byte at offset
o of a bank is DMAP of the raw byte at AMAP(o) of that bank. -/
def Obligations.PlainImageReadsAsDescrambled : Prop :=
  ∀ (c : Cfg) (raw : Memory), Memory.wf raw → ∀ (b : Nat) (o : BitVec 20),
    Memory.read (descramble c raw) (b * 2 ^ 20 + o.toNat) =
      if o.toNat < 0x20 then Memory.read raw (b * 2 ^ 20 + o.toNat)
      else dmap c (Memory.read raw (b * 2 ^ 20 + (amap c o).toNat))

/-- Rule R10: the binary32 operations. On finite operands each is the exact result rounded once, to nearest, ties to even,
overflowing to infinity (`RoundsTo`, whose ratio is in units of 2^-149); so is the conversion of an integer. A zero sum is
-0.0 only when both operands are negative (a difference being a sum with the second negated), and a product or a quotient
is negative when exactly one operand is. -f flips the sign bit and absf clears it. What an infinite or NaN operand of an addition gives is IEEE 754's,
which rule R10 names (PRESUMED: assumption log 2, 16). Rules R108, R120: d is b * 2^(n+14) wrapped into a signed 32-bit
integer, and the delta is d / 2^31 exactly: a finite value, d * 2^118 in units of 2^-149. -/
def Obligations.OperationsRoundToNearestAndDeltaIsExact : Prop :=
  (∀ x y : F32, isFinite x = true → isFinite y = true →
    RoundsTo (fadd x y) (fval x + fval y) 1 ∧ RoundsTo (fsub x y) (fval x - fval y) 1 ∧
    RoundsTo (fmul x y) (fval x * fval y) (2 ^ 149) ∧
    (fval y ≠ 0 → RoundsTo (fdiv x y) (fval x * 2 ^ 149) (fval y)) ∧
    (fval x + fval y = 0 → fsign (fadd x y) = (fsign x && fsign y)) ∧
    (fval x - fval y = 0 → fsign (fsub x y) = (fsign x && !fsign y)) ∧
    fsign (fmul x y) = (fsign x != fsign y) ∧ (fval y ≠ 0 → fsign (fdiv x y) = (fsign x != fsign y))) ∧
  (∀ n : Int, RoundsTo (f32OfInt n) (n * 2 ^ 149) 1) ∧
  (∀ x y : F32,
    (isNaN x = true ∨ isNaN y = true → isNaN (fadd x y) = true) ∧
    (isInf x = true → isInf y = true → fsign x ≠ fsign y → isNaN (fadd x y) = true) ∧
    (isInf x = true → isNaN y = false → (isInf y = true → fsign x = fsign y) → fadd x y = x ∧ fadd y x = x)) ∧
  (∀ x : F32, fmag (fneg x) = fmag x ∧ fsign (fneg x) = !fsign x ∧ fmag (fabs x) = fmag x ∧ fsign (fabs x) = false) ∧
  ∀ (b : Byte) (n : BitVec 4),
    (2 ^ 32 : Int) ∣ deltaFixed b n - b.toInt * 2 ^ (n.toNat + 14) ∧
    -2 ^ 31 ≤ deltaFixed b n ∧ deltaFixed b n < 2 ^ 31 ∧
    isFinite (delta b n) = true ∧ fval (delta b n) = deltaFixed b n * 2 ^ 118

/-- Rule R107: DPCM_DECODE yields one value for each of the S+1 positions when the last of them is inside the image, and
E_UNDEF when it is not; each value is the one before it (+0.0 before the first, rule R109) plus its position's delta. Rule
R62: the companion address is in the same bank, at the bank offset shifted right by 5 bits, so below 0x8000. A position's
delta is DELTA of its byte and of the nibble of its companion byte that bit 4 of the position chooses. -/
def Obligations.DpcmDecodeRunsOverThePositions : Prop :=
  ∀ (plain : Memory) (size : Nat) (r len : BitVec 32),
    (size ≤ r.toNat + len.toNat → dpcmDecode plain size r len = .error .undef) ∧
    (r.toNat + len.toNat < size → ∃ w : List F32, dpcmDecode plain size r len = .ok w ∧ w.length = len.toNat + 1 ∧
      w[0]? = some (fadd ⟨0x00000000⟩ (deltaAt plain r)) ∧
      ∀ q < len.toNat, w[q + 1]? = (w[q]?).map fun x => fadd x (deltaAt plain (BitVec.ofNat 32 (r.toNat + q + 1)))) ∧
    ∀ a : BitVec 32,
      (companionAddr a).toNat / 2 ^ 20 = a.toNat / 2 ^ 20 ∧
      (companionAddr a).toNat % 2 ^ 20 = a.toNat % 2 ^ 20 / 2 ^ 5 ∧ (companionAddr a).toNat % 2 ^ 20 < 0x8000 ∧
      ∀ companion : Byte, Memory.read plain (companionAddr a).toNat = companion →
        deltaAt plain a = delta (Memory.read plain a.toNat)
          (if a.toNat / 2 ^ 4 % 2 = 1 then companion.extractLsb' 4 4 else companion.extractLsb' 0 4)

/-- Rule R122: as long as the exact sums stay below 128 in magnitude (2^38 in units of 2^-31), the decoded value at q is
the exact sum of the deltas up to q. -/
def Obligations.DpcmIsTheExactSum : Prop :=
  ∀ (plain : Memory) (size : Nat) (r len : BitVec 32) (w : List F32), dpcmDecode plain size r len = .ok w →
    size ≤ 2 ^ 32 → ∀ q ≤ len.toNat, (∀ j ≤ q, |fixedSum plain (j + 1) r.toNat| < 2 ^ 38) →
      ∃ x, w[q]? = some x ∧ isFinite x = true ∧ fval x = fixedSum plain (q + 1) r.toNat * 2 ^ 118

/-- Rules R110, R123: what unwrapping a ping-pong record gives, and the records it cannot unwrap. -/
def Obligations.PingpongUnwrapsToForward : Prop :=
  ∀ (w : List F32) (m : SampleMeta), w.length = m.sampleLength.toNat + 1 →
    (m.sampleLength.toNat < m.loopLength.toNat → pingpongUnwrap w m = .error .undef) ∧
    (2 ^ 32 ≤ m.sampleLength.toNat + m.loopLength.toNat + 1 → pingpongUnwrap w m = .error .undef) ∧
    (m.loopLength.toNat ≤ m.sampleLength.toNat → m.sampleLength.toNat + m.loopLength.toNat + 1 < 2 ^ 32 →
      ∃ e : SampleSet, pingpongUnwrap w m = .ok e ∧
        e.sampleLength.toNat = m.sampleLength.toNat + m.loopLength.toNat + 1 ∧ e.loopStart = m.loopStart ∧
        e.loopLength.toNat = 2 * m.loopLength.toNat + 1 ∧ e.loopMode = 0 ∧ e.w.length = e.sampleLength.toNat + 1 ∧
        (∀ i ≤ m.sampleLength.toNat, e.w[i]? = w[i]?) ∧
        ∀ i ≤ m.loopLength.toNat,
          e.w[m.sampleLength.toNat + 1 + i]? = (w[m.sampleLength.toNat - i]?).map fneg)

/-- Rule R103: the input checks in their order: no files, the first file that fails a check, and the number of banks. -/
def Obligations.InputChecksInOrder : Prop :=
  validateInputs [] = .error .noRom ∧
  (∀ (good : List RomFile) (rest : List RomEntry), (∀ f ∈ good, f.size % 2 ^ 20 = 0) →
    validateInputs (good.map .file ++ .unreadable :: rest) = .error .openFile ∧
    ∀ bad : RomFile, bad.size % 2 ^ 20 ≠ 0 → validateInputs (good.map .file ++ .file bad :: rest) = .error .size) ∧
  ∀ good : List RomFile, good ≠ [] → (∀ f ∈ good, f.size % 2 ^ 20 = 0) →
    ((good.map RomFile.size).sum = 0 ∨ 16 * 2 ^ 20 < (good.map RomFile.size).sum →
      validateInputs (good.map .file) = .error .size) ∧
    (0 < (good.map RomFile.size).sum → (good.map RomFile.size).sum ≤ 16 * 2 ^ 20 →
      validateInputs (good.map .file) = .ok (good, (good.map RomFile.size).sum / 2 ^ 20))

/-- Rules R102, R111: DEC_START is rejected while READY; otherwise it commits what the stages gave, or empties the
decoder's results and records and returns the error's code; nothing else is written. Rule R106: what the decoding of the
records gives. A record's base is its address resolved under GEN, an undefined id giving E_BANK_ID; its positions decode
from there, with their error; loop mode 1 is unwrapped, and any other record keeps its metadata. Entry k of the table comes
from record k, and the first record in index order that fails gives the error. -/
def Obligations.DecStartCommitsOrAborts : Prop :=
  (∀ s : State, exec .decStart s = .next (decStart Config.hw s)) ∧
  ∀ (c : Cfg) (s : State),
    (s.dstate = .ready → decStart c s = { s with cmdErr := true, res := 0xFFFFFFFF }) ∧
    (s.dstate ≠ .ready → ∀ (files : List RomFile) (nb : Nat) (ss : List SampleSet),
      validateInputs s.romFiles = .ok (files, nb) →
      decodeAll c (descramble c (rawImage files)) nb s.gen s.smeta = .ok ss →
      decStart c s = { s with
        nbanks := nb, plain := descramble c (rawImage files), ss := ss, dstate := .ready, ecode := .none, res := 0,
        version := Vector.ofFn fun i => Memory.read (descramble c (rawImage files)) (0x1C + i.val),
        date := Vector.ofFn fun i => Memory.read (descramble c (rawImage files)) (0x30 + i.val) }) ∧
    (s.dstate ≠ .ready → ∀ e : ECode,
      (validateInputs s.romFiles = .error e ∨
        ∃ files nb, validateInputs s.romFiles = .ok (files, nb) ∧
          decodeAll c (descramble c (rawImage files)) nb s.gen s.smeta = .error e) →
      decStart c s = { s with
        nbanks := 0, plain := [], ss := [], dstate := .error, ecode := e, version := Vector.replicate 4 0,
        date := Vector.replicate 10 0,
        res := match e with | .none => 0 | .noRom => 1 | .openFile => 2 | .size => 3 | .bankId => 4 | .undef => 5 }) ∧
    ∀ (plain : Memory) (nb : Nat) (g : Fin Config.numGens),
      (∀ m : SampleMeta,
        (bankBase c g (m.addr.extractLsb' 20 3) = none → decodeOne c plain nb g m = .error .bankId) ∧
        ∀ base start : BitVec 32, bankBase c g (m.addr.extractLsb' 20 3) = some base →
          start = base + (m.addr.extractLsb' 0 20).setWidth 32 →
          (∀ e : ECode, dpcmDecode plain (nb * 2 ^ 20) start m.sampleLength = .error e →
            decodeOne c plain nb g m = .error e) ∧
          ∀ w : List F32, dpcmDecode plain (nb * 2 ^ 20) start m.sampleLength = .ok w →
            (m.loopMode = 1 → decodeOne c plain nb g m = pingpongUnwrap w m) ∧
            (m.loopMode ≠ 1 → decodeOne c plain nb g m = .ok {
              w            := w
              sampleLength := m.sampleLength
              loopStart    := m.loopStart
              loopLength   := m.loopLength
              loopMode     := m.loopMode })) ∧
      (∀ (records : List SampleMeta) (ss : List SampleSet), decodeAll c plain nb g records = .ok ss ↔
        ss.length = records.length ∧ ∀ (k : Nat) (m : SampleMeta) (e : SampleSet), records[k]? = some m →
          ss[k]? = some e → decodeOne c plain nb g m = .ok e) ∧
      ∀ (records : List SampleMeta) (k : Nat) (m : SampleMeta) (e : ECode), records[k]? = some m →
        decodeOne c plain nb g m = .error e →
        (∀ (j : Nat) (x : SampleMeta), j < k → records[j]? = some x → ∃ d, decodeOne c plain nb g x = .ok d) →
        decodeAll c plain nb g records = .error e

/-- Rules R24, R25, R110, R121: the table a successful load yields has one entry for each record, and each entry has
sampleLength + 1 finite values and no ping-pong loop; the image is canonical, inside its banks, and of 1 to 16 banks. -/
def Obligations.SuccessfulLoadMakesAGoodTable : Prop :=
  ∀ (c : Cfg) (entries : List RomEntry) (records : List SampleMeta) (g : Fin Config.numGens) (l : Loaded),
    load c entries records g = .ok l →
      l.ss.length = records.length ∧ (∀ e ∈ l.ss, SetOk e) ∧ Memory.wf l.plain ∧ 0 < l.nbanks ∧ l.nbanks ≤ 16 ∧
      ((∀ f, RomEntry.file f ∈ entries → RomFile.wf f) → ∀ x ∈ l.plain, x.1 < l.nbanks * 2 ^ 20)

/-- Rule R116: DEC_META reads VERSION at 0 to 3 and DATE at 4 to 13, and is rejected past 13 or when not READY. -/
def Obligations.DecMetaReadsTheStrings : Prop :=
  ∀ (idx : BitVec 4) (s : State),
    (s.dstate = .ready → ∀ h : idx.toNat ≤ 3,
      exec (.decMeta idx) s = .next { s with res := (s.version[idx.toNat]'(by omega)).setWidth 32 }) ∧
    (s.dstate = .ready → ∀ h : 4 ≤ idx.toNat ∧ idx.toNat ≤ 13,
      exec (.decMeta idx) s = .next { s with res := (s.date[idx.toNat - 4]'(by omega)).setWidth 32 }) ∧
    (s.dstate ≠ .ready ∨ 13 < idx.toNat →
      exec (.decMeta idx) s = .next { s with cmdErr := true, res := 0xFFFFFFFF })

/-- Rule R118: DEC_READ returns value i of the selected set when READY, SSEL < NSETS and i <= sampleLength, and is
rejected otherwise. -/
def Obligations.DecReadReturnsTheValue : Prop :=
  ∀ (i : BitVec 24) (s : State),
    (∀ (e : SampleSet) (x : F32), s.dstate = .ready → s.ss[s.ssel.toNat]? = some e →
      i.toNat ≤ e.sampleLength.toNat → e.w[i.toNat]? = some x →
      exec (.decRead i) s = .next { s with res := x.bits }) ∧
    (s.dstate ≠ .ready ∨ s.ss.length ≤ s.ssel.toNat ∨
        (∃ e, s.ss[s.ssel.toNat]? = some e ∧ e.sampleLength.toNat < i.toNat) →
      exec (.decRead i) s = .next { s with cmdErr := true, res := 0xFFFFFFFF })

/-- Rule R119: DEC_INFO, field by field. -/
def Obligations.DecInfoReadsTheFields : Prop :=
  ∀ s : State,
    (∀ e : SampleSet, s.dstate = .ready → s.ss[s.ssel.toNat]? = some e →
      exec (.decInfo 0) s = .next { s with res := e.sampleLength } ∧
      exec (.decInfo 1) s = .next { s with res := e.loopStart } ∧
      exec (.decInfo 2) s = .next { s with res := e.loopLength } ∧
      exec (.decInfo 3) s = .next { s with res := e.loopMode.setWidth 32 }) ∧
    (s.dstate ≠ .ready ∨ s.ss.length ≤ s.ssel.toNat → ∀ f : BitVec 3, f.toNat ≤ 3 →
      exec (.decInfo f) s = .next { s with cmdErr := true, res := 0xFFFFFFFF }) ∧
    exec (.decInfo 4) s = .next { s with res := BitVec.ofNat 32 s.ss.length } ∧
    exec (.decInfo 5) s = .next { s with res := BitVec.ofNat 32 s.nbanks } ∧
    (∀ f : BitVec 3, 6 ≤ f.toNat → exec (.decInfo f) s = .next { s with cmdErr := true, res := 0xFFFFFFFF })

/-! ### Part commands -/

/-- Rules R141, R143, R144 on a part in poly mode: the note an admitted NOTE_ON makes, whole, in the lowest-numbered
free slot; everything else stays. -/
def Obligations.NoteOnStartsANote : Prop :=
  (∀ (p : PartIx) (key vel : Byte) (s : State), exec (.noteOn p key vel) s = .next (noteOn Config.hw p key vel s)) ∧
  ∀ (c : Cfg) (p : PartIx) (key vel : Byte) (x : BitVec 24) (s : State),
    key.toNat ≤ 127 → 1 ≤ vel.toNat → vel.toNat ≤ 127 → s.dstate = .ready →
    c.sampleSelect (s.part p).live (key.setWidth 7) = some x → x.toNat < s.ss.length →
    (s.part p).pr[0x14] ≠ 0 → (s.part p).active < min (s.part p).pr[0x15].toNat 24 →
    ∃ (i : SlotIx) (note : Slot),
      (s.part p).slots[i.val].phase = .free ∧ (∀ j : SlotIx, j < i → (s.part p).slots[j.val].phase ≠ .free) ∧
      noteOn c p key vel s =
        { s.setPart p { s.part p with slots := (s.part p).slots.set i.val note } with res := 0 } ∧
      note.key.toNat = key.toNat ∧ note.vel.toNat = vel.toNat ∧ note.sset = x ∧ note.snap.pr = (s.part p).pr ∧
      note.snap.prog = (s.part p).prog ∧ note.snap.mode = (s.part p).mode ∧ note.pos = 0 ∧ note.cnt = 0 ∧
      note.rl.bits = 0 ∧
      (∀ e : EnvParams, c.envParams (s.part p).live x (key.setWidth 7) (vel.setWidth 7) = e →
        note.tA = e.tA ∧ note.tH = e.tH ∧ note.tD = e.tD ∧ note.tR = e.tR ∧ note.sus.bits.toNat = e.sus.val ∧
        note.phase = (if e.tA ≠ 0 then .attack else if e.tH ≠ 0 then .hold else if e.tD ≠ 0 then .decay else .sustain))

/-- Rules R36 (1), R142, R144, R183: on a part in mono mode an admitted NOTE_ON leaves exactly one occupied slot, slot 0,
with the new note, whole. -/
def Obligations.MonoNoteOnLeavesOneNote : Prop :=
  ∀ (c : Cfg) (p : PartIx) (key vel : Byte) (x : BitVec 24) (s : State),
    key.toNat ≤ 127 → 1 ≤ vel.toNat → vel.toNat ≤ 127 → s.dstate = .ready →
    c.sampleSelect (s.part p).live (key.setWidth 7) = some x → x.toNat < s.ss.length →
    (s.part p).pr[0x14] = 0 → (s.part p).pr[0x15] ≠ 0 →
    ∃ (slots : Vector Slot Config.numSlots) (note : Slot),
      noteOn c p key vel s = { s.setPart p { s.part p with slots := slots } with res := 0 } ∧
      slots[0] = note ∧ (∀ i : SlotIx, i ≠ 0 → slots[i.val].phase = .free) ∧
      note.key.toNat = key.toNat ∧ note.vel.toNat = vel.toNat ∧ note.sset = x ∧ note.snap.pr = (s.part p).pr ∧
      note.snap.prog = (s.part p).prog ∧ note.snap.mode = (s.part p).mode ∧ note.pos = 0 ∧ note.cnt = 0 ∧
      note.rl.bits = 0 ∧
      (∀ e : EnvParams, c.envParams (s.part p).live x (key.setWidth 7) (vel.setWidth 7) = e →
        note.tA = e.tA ∧ note.tH = e.tH ∧ note.tD = e.tD ∧ note.tR = e.tR ∧ note.sus.bits.toNat = e.sus.val ∧
        note.phase = (if e.tA ≠ 0 then .attack else if e.tH ≠ 0 then .hold else if e.tD ≠ 0 then .decay else .sustain))

/-- Rules R141, R143, R264: each reason for which a NOTE_ON is dropped; it then writes no state. -/
def Obligations.NoteOnDropsBeforeAnyWrite : Prop :=
  ∀ (c : Cfg) (p : PartIx) (key vel : Byte) (s : State),
    (s.dstate ≠ .ready ∨ c.sampleSelect (s.part p).live (key.setWidth 7) = none ∨
      (∃ x, c.sampleSelect (s.part p).live (key.setWidth 7) = some x ∧ s.ss.length ≤ x.toNat) ∨
      (s.part p).pr[0x15] = 0 ∨
      ((s.part p).pr[0x14] ≠ 0 ∧ min (s.part p).pr[0x15].toNat 24 ≤ (s.part p).active)) →
    noteOn c p key vel s = { s with res := 0 }

/-- Rule R145: NOTE_OFF with the pedal down adds the key to HELD; with the pedal up it releases every note of that key
that is in ATTACK, HOLD, DECAY or SUSTAIN, and leaves every other slot alone. -/
def Obligations.NoteOffReleasesOrHolds : Prop :=
  ∀ (p : PartIx) (key : Byte) (s : State), key.toNat ≤ 127 →
    ((s.part p).hold = true → ∃ held : BitVec 128,
      exec (.noteOff p key) s = .next { s.setPart p { s.part p with held := held } with res := 0 } ∧
      ∀ j < 128, held.getLsbD j = (decide (j = key.toNat) || (s.part p).held.getLsbD j)) ∧
    ((s.part p).hold = false → ∃ slots : Vector Slot Config.numSlots,
      exec (.noteOff p key) s = .next { s.setPart p { s.part p with slots := slots } with res := 0 } ∧
      ∀ i : SlotIx, slots[i.val] =
        if (s.part p).slots[i.val].key.toNat = key.toNat ∧ (s.part p).slots[i.val].phase ∈
            [Phase.attack, Phase.hold, Phase.decay, Phase.sustain]
        then envRelease (s.part p).slots[i.val] else (s.part p).slots[i.val])

/-- Rule R146: the register each listed controller writes, and that any other controller but 64 has no effect. -/
def Obligations.ControllersWriteTheirRegister : Prop :=
  ∀ (p : PartIx) (v : Byte) (s : State), v.toNat ≤ 127 →
    exec (.ctrl p 1 v) s = .next { s.setPart p { s.part p with mod := v.setWidth 7 } with res := 0 } ∧
    exec (.ctrl p 5 v) s = .next { s.setPart p { s.part p with pr := (s.part p).pr.set 0x17 v } with res := 0 } ∧
    exec (.ctrl p 7 v) s = .next { s.setPart p { s.part p with pr := (s.part p).pr.set 0x01 v } with res := 0 } ∧
    exec (.ctrl p 10 v) s = .next { s.setPart p { s.part p with pr := (s.part p).pr.set 0x02 v } with res := 0 } ∧
    exec (.ctrl p 11 v) s = .next { s.setPart p { s.part p with expr := v.setWidth 7 } with res := 0 } ∧
    exec (.ctrl p 65 v) s = .next { s.setPart p { s.part p with
      pr := (s.part p).pr.set 0x16 (if 64 ≤ v.toNat then 1 else 0) } with res := 0 } ∧
    exec (.ctrl p 91 v) s = .next { s.setPart p { s.part p with pr := (s.part p).pr.set 0x03 v } with res := 0 } ∧
    exec (.ctrl p 93 v) s = .next { s.setPart p { s.part p with pr := (s.part p).pr.set 0x04 v } with res := 0 } ∧
    ∀ a : Byte, a.toNat ≤ 127 → a.toNat ∉ [1, 5, 7, 10, 11, 64, 65, 91, 93] →
      exec (.ctrl p a v) s = .next { s with res := 0 }

/-- Rules R147, R148: controller 64 from 64 up presses the pedal; below 64 it lifts a pedal that is down, releasing every
note whose key is held and emptying HELD, and does nothing to one that is up. -/
def Obligations.HoldPedalReleasesHeldKeys : Prop :=
  ∀ (p : PartIx) (v : Byte) (s : State), v.toNat ≤ 127 →
    (64 ≤ v.toNat →
      exec (.ctrl p 64 v) s = .next { s.setPart p { s.part p with hold := true } with res := 0 }) ∧
    (v.toNat < 64 → (s.part p).hold = false → exec (.ctrl p 64 v) s = .next { s with res := 0 }) ∧
    (v.toNat < 64 → (s.part p).hold = true → ∃ slots : Vector Slot Config.numSlots,
      exec (.ctrl p 64 v) s =
        .next { s.setPart p { s.part p with hold := false, held := 0, slots := slots } with res := 0 } ∧
      ∀ i : SlotIx, slots[i.val] =
        if (s.part p).held.getLsbD (s.part p).slots[i.val].key.toNat = true ∧
            (s.part p).slots[i.val].phase ∈ [Phase.attack, Phase.hold, Phase.decay, Phase.sustain]
        then envRelease (s.part p).slots[i.val] else (s.part p).slots[i.val])

/-- Rule R149: PROG with a valid index sets PROG, and MODE unless PROGRAM_MODE leaves it; an invalid index drops. -/
def Obligations.ProgSetsProgramAndMode : Prop :=
  (∀ (p : PartIx) (lo hi : Byte) (s : State), exec (.prog p lo hi) s = .next (setProgram Config.hw p lo hi s)) ∧
  ∀ (c : Cfg) (p : PartIx) (lo hi : Byte) (i : BitVec 16) (s : State), i.toNat = hi.toNat * 256 + lo.toNat →
    (c.programValid i = true → c.programMode i = none →
      setProgram c p lo hi s = { s.setPart p { s.part p with prog := i } with res := 0 }) ∧
    (∀ m : Mode, c.programValid i = true → c.programMode i = some m →
      setProgram c p lo hi s = { s.setPart p { s.part p with prog := i, mode := m } with res := 0 }) ∧
    (c.programValid i = false → setProgram c p lo hi s = { s with res := 0 })

/-- Rules R150 to R152, R155: CHPRESS, POLYPRESS, BEND and MUTE with operands in range. -/
def Obligations.PressureBendAndMute : Prop :=
  ∀ (p : PartIx) (a b : Byte) (s : State),
    (a.toNat ≤ 127 →
      exec (.chpress p a) s = .next { s.setPart p { s.part p with chp := a.setWidth 7 } with res := 0 }) ∧
    (∀ h : a.toNat ≤ 127, b.toNat ≤ 127 → exec (.polypress p a b) s =
      .next { s.setPart p { s.part p with pkp := (s.part p).pkp.set a.toNat (b.setWidth 7) (by omega) } with
        res := 0 }) ∧
    (a.toNat ≤ 127 → b.toNat ≤ 127 → ∃ v : BitVec 14, v.toNat = b.toNat * 128 + a.toNat ∧
      exec (.bend p a b) s = .next { s.setPart p { s.part p with bend := v } with res := 0 }) ∧
    exec (.mute p 0) s = .next { s.setPart p { s.part p with mute := false } with res := 0 } ∧
    exec (.mute p 1) s = .next { s.setPart p { s.part p with mute := true } with res := 0 } ∧
    (1 < a.toNat → exec (.mute p a) s = .next { s with cmdErr := true, res := 0xFFFFFFFF })

/-- Rules R153, R187: ALLOFF frees every slot of its part and empties HELD; the pedal and everything else stay. -/
def Obligations.AlloffEmptiesThePart : Prop :=
  ∀ (p : PartIx) (s : State), ∃ slots : Vector Slot Config.numSlots,
    exec (.alloff p) s = .next { s.setPart p { s.part p with held := 0, slots := slots } with res := 0 } ∧
    (∀ i : SlotIx, slots[i.val].phase = .free) ∧
    ∀ i : SlotIx, (s.part p).slots[i.val].phase = .free → slots[i.val] = (s.part p).slots[i.val]

/-- Rule R154: PRESET runs the pedal release and then restores every parameter and local register but MUTE and PEAK. -/
def Obligations.PresetRestoresTheDefaults : Prop :=
  ∀ (p : PartIx) (s : State), ∃ P : Part, exec (.preset p) s = .next { s.setPart p P with res := 0 } ∧
    (∀ id : Fin Config.numParams, P.pr[id.val].toNat =
      [p.val, 100, 64, 40, 0, 64, 2, 10, 0, 127, 64, 64, 64, 64, 64, 64, 64, 64, 64, 64, 1, 24, 0, 0][id.val]!) ∧
    P.prog = 0 ∧ P.mode = .normal ∧ P.bend = 8192 ∧ P.mod = 0 ∧ P.expr = 127 ∧ P.chp = 0 ∧
    (∀ k : Fin 128, P.pkp[k.val] = 0) ∧ P.hold = false ∧ P.mute = (s.part p).mute ∧ P.peak = (s.part p).peak ∧
    ((s.part p).hold = false → P.held = (s.part p).held ∧ P.slots = (s.part p).slots) ∧
    ((s.part p).hold = true → P.held = 0 ∧ ∀ i : SlotIx, P.slots[i.val] =
      if (s.part p).held.getLsbD (s.part p).slots[i.val].key.toNat = true ∧
          (s.part p).slots[i.val].phase ∈ [Phase.attack, Phase.hold, Phase.decay, Phase.sustain]
      then envRelease (s.part p).slots[i.val] else (s.part p).slots[i.val])

/-- Rules R27, R156, R157: SETPARAM of a legal value writes that register alone, and GETPARAM then reads it back. -/
def Obligations.SetparamThenGetparam : Prop :=
  ∀ (p : PartIx) (id : Fin Config.numParams) (v : Byte) (s : State), legalParam (BitVec.ofNat 8 id.val) v = true →
    ∃ t : State, exec (.setparam p (BitVec.ofNat 8 id.val) v) s = .next t ∧
      t = { s.setPart p { s.part p with pr := (s.part p).pr.set id.val v } with res := 0 } ∧
      exec (.getparam p (BitVec.ofNat 8 id.val)) t = .next { t with res := v.setWidth 32 }

/-- Rules R157, R158, R160: what GETPARAM reads from each register that has an id, and HELDQ and PKPQ. -/
def Obligations.RegisterQueriesReadTheirRegister : Prop :=
  ∀ (p : PartIx) (s : State),
    (∀ id : Fin Config.numParams, exec (.getparam p (BitVec.ofNat 8 id.val)) s =
      .next { s with res := BitVec.ofNat 32 (s.part p).pr[id.val].toNat }) ∧
    exec (.getparam p 0x20) s = .next { s with res := BitVec.ofNat 32 ((s.part p).prog.toNat % 256) } ∧
    exec (.getparam p 0x21) s = .next { s with res := BitVec.ofNat 32 ((s.part p).prog.toNat / 256) } ∧
    exec (.getparam p 0x22) s = .next { s with
      res := match (s.part p).mode with | .normal => 0 | .drum1 => 1 | .drum2 => 2 } ∧
    exec (.getparam p 0x23) s = .next { s with res := BitVec.ofNat 32 ((s.part p).bend.toNat % 128) } ∧
    exec (.getparam p 0x24) s = .next { s with res := BitVec.ofNat 32 ((s.part p).bend.toNat / 128) } ∧
    exec (.getparam p 0x25) s = .next { s with res := BitVec.ofNat 32 (s.part p).mod.toNat } ∧
    exec (.getparam p 0x26) s = .next { s with res := BitVec.ofNat 32 (s.part p).expr.toNat } ∧
    exec (.getparam p 0x27) s = .next { s with res := if (s.part p).hold then 1 else 0 } ∧
    exec (.getparam p 0x28) s = .next { s with res := if (s.part p).mute then 1 else 0 } ∧
    exec (.getparam p 0x29) s = .next { s with res := BitVec.ofNat 32 (s.part p).chp.toNat } ∧
    exec (.getparam p 0x2A) s = .next { s with
      res := BitVec.ofNat 32 ((s.part p).slots.toList.countP fun t => t.phase ≠ .free) } ∧
    (∀ id : Byte, (0x18 ≤ id.toNat ∧ id.toNat ≤ 0x1F) ∨ 0x2B ≤ id.toNat →
      exec (.getparam p id) s = .next { s with cmdErr := true, res := 0xFFFFFFFF }) ∧
    (∀ k : Byte, k.toNat ≤ 127 → exec (.heldq p k) s =
      .next { s with res := if (s.part p).held.getLsbD k.toNat then 1 else 0 }) ∧
    ∀ (k : Byte) (h : k.toNat ≤ 127), exec (.pkpq p k) s =
      .next { s with res := BitVec.ofNat 32 ((s.part p).pkp[k.toNat]'(by omega)).toNat }

/-- Rule R159: VOICEQ reads 7 from a free slot, and from an occupied one the phase code in [2:0], the key in [15:8], the
velocity in [23:16] and 0 in the other bits. -/
def Obligations.VoiceqReadsOneSlot : Prop :=
  ∀ (p : PartIx) (i : SlotIx) (s : State),
    ((s.part p).slots[i.val].phase = .free →
      exec (.voiceq p (BitVec.ofNat 8 i.val)) s = .next { s with res := 7 }) ∧
    ((s.part p).slots[i.val].phase ≠ .free → ∃ r : Word,
      exec (.voiceq p (BitVec.ofNat 8 i.val)) s = .next { s with res := r } ∧
      r.toNat = (s.part p).slots[i.val].vel.toNat * 2 ^ 16 + (s.part p).slots[i.val].key.toNat * 2 ^ 8 +
        (match (s.part p).slots[i.val].phase with
          | .attack => 0 | .hold => 1 | .decay => 2 | .sustain => 3 | .release => 4 | .done => 5 | .free => 7))

/-! ### The envelope -/

/-- Rule R182: ENV_NORMALIZE leaves the counter below the duration of the phase it ends in, and 0 in SUSTAIN and DONE
when it started below or at a phase end; it writes phase and cnt alone. Where it ends: a phase that has not run its length
stays, and one that has moves on, past phases of duration 0. Rule R185: ENV_ADVANCE adds 1 to the counter, and at the
duration moves on in the same way; SUSTAIN and DONE stay. -/
def Obligations.EnvelopeMovesThroughItsPhases : Prop :=
  ∀ t : Slot,
    ((envDur t).isSome = true ∨ t.cnt = 0 → EnvTimed (envNormalize t) ∧
      envNormalize t = { t with phase := (envNormalize t).phase, cnt := (envNormalize t).cnt }) ∧
    (∀ (duration : BitVec 24) (next : Phase), (t.phase, duration, next) ∈
        [(Phase.attack, t.tA, if t.tH ≠ 0 then Phase.hold else if t.tD ≠ 0 then Phase.decay else Phase.sustain),
          (Phase.hold, t.tH, if t.tD ≠ 0 then Phase.decay else Phase.sustain), (Phase.decay, t.tD, Phase.sustain),
          (Phase.release, t.tR, Phase.done)] →
      (t.cnt.toNat < duration.toNat → envNormalize t = t) ∧
      (duration.toNat ≤ t.cnt.toNat → envNormalize t = { t with phase := next, cnt := 0 }) ∧
      (t.cnt.toNat + 1 < duration.toNat → ∃ n : BitVec 24, n.toNat = t.cnt.toNat + 1 ∧
        envAdvance t = { t with cnt := n }) ∧
      (t.cnt.toNat + 1 = duration.toNat → envAdvance t = { t with phase := next, cnt := 0 })) ∧
    (t.phase = .sustain ∨ t.phase = .done → envNormalize t = t ∧ envAdvance t = t)

/-- Rule R184: the level, phase by phase, and that the counter and the durations are exact as binary32. Rule R188: the level
of an envelope in range is a finite binary32 in [0.0, 1.0] with its sign bit clear. That a sustain level has its sign bit
clear (`InUnit t.sus`, which excludes -0.0) is the model's reading (DEDUCED: assumption log 13). -/
def Obligations.EnvelopeLevelStaysInUnit : Prop :=
  ∀ t : Slot,
    (t.phase ≠ .free → EnvTimed t → InUnit t.sus → InUnit t.rl → InUnit (envLevel t)) ∧
    (t.phase = .attack → envLevel t = fdiv (f32OfInt t.cnt.toNat) (f32OfInt t.tA.toNat)) ∧
    (t.phase = .hold → envLevel t = ⟨0x3F800000⟩) ∧
    (t.phase = .decay → envLevel t = fsub ⟨0x3F800000⟩
      (fmul (fsub ⟨0x3F800000⟩ t.sus) (fdiv (f32OfInt t.cnt.toNat) (f32OfInt t.tD.toNat)))) ∧
    (t.phase = .sustain → envLevel t = t.sus) ∧
    (t.phase = .release → envLevel t =
      fmul t.rl (fsub ⟨0x3F800000⟩ (fdiv (f32OfInt t.cnt.toNat) (f32OfInt t.tR.toNat)))) ∧
    (t.phase = .done → envLevel t = ⟨0x00000000⟩) ∧
    ∀ n : BitVec 24, isFinite (f32OfInt n.toNat) = true ∧ fval (f32OfInt n.toNat) = n.toNat * 2 ^ 149

/-- Rule R186: ENV_RELEASE, whole. In ATTACK, HOLD, DECAY and SUSTAIN it writes rl, cnt and the phase, and nothing else of
the slot; with tR = 0 the note is DONE at once. A note in RELEASE or DONE stays as it is. Rules R185, R189: a release starts
from the level the note has, without a jump, and lasts exactly tR TICKs. -/
def Obligations.ReleaseStartsAtTheLevelAndLastsItsTime : Prop :=
  ∀ t : Slot,
    (t.phase ∈ [Phase.attack, Phase.hold, Phase.decay, Phase.sustain] → envRelease t =
      { t with rl := envLevel t, cnt := 0, phase := if t.tR = 0 then .done else .release }) ∧
    (t.phase = .release ∨ t.phase = .done → envRelease t = t) ∧
    (t.phase ∈ [Phase.attack, Phase.hold, Phase.decay, Phase.sustain] → EnvTimed t → InUnit t.sus → InUnit t.rl →
      t.tR ≠ 0 → envLevel (envRelease t) = envLevel t ∧
        ∀ n ≤ t.tR.toNat, (envAdvance^[n] (envRelease t)).phase = if n < t.tR.toNat then .release else .done)

/-! ### Playback, TICK and the mix -/

/-- Rule R203, on a phase i + f / 2^16 (rule R200) with i inside the waveform: INTERP is a +f ((b -f a) *f fr), where a is
the value at i, b the one at min (i + 1, len - 1), and fr = f / 2^16, which is exact. With f = 0 it is the value at i, for
finite values below 2^127 (the rule's "s = W[i] exactly"). -/
def Obligations.InterpolationBetweenNeighbours : Prop :=
  ∀ (e : SampleSet) (pos : BitVec 48) (i f : Nat) (a b fr : F32),
    pos.toNat = i * 2 ^ 16 + f → f < 2 ^ 16 → i ≤ e.sampleLength.toNat → e.w[i]? = some a →
    e.w[min (i + 1) e.sampleLength.toNat]? = some b → fr = fmul (f32OfInt f) ⟨0x37800000⟩ →
    interp e pos = fadd a (fmul (fsub b a) fr) ∧
    isFinite fr = true ∧ fval fr = f * 2 ^ 133 ∧
    (f = 0 → fmag a < 0x7F000000 → fmag b < 0x7F000000 →
      isFinite (interp e pos) = true ∧ fval (interp e pos) = fval a)

/-- Rule R204: the advance of a forward loop keeps the fraction and stays in the waveform, wrapping into the loop region
by whole loop lengths; a one-shot goes to DONE when it reaches the guard index; nothing else is written. -/
def Obligations.OscAdvanceLoopsOrEnds : Prop :=
  ∀ (e : SampleSet) (inc : BitVec 32) (t : Slot) (i : Nat), i = (posIndex (t.pos + inc.setWidth 48)).toNat →
    (e.loopMode = 0 → e.loopLength ≠ 0 → e.loopStart.toNat + e.loopLength.toNat ≤ setLen e →
      oscAdvance e inc t = { t with pos := (oscAdvance e inc t).pos } ∧
      posFrac (oscAdvance e inc t).pos = posFrac (t.pos + inc.setWidth 48) ∧
      (i < e.loopStart.toNat + e.loopLength.toNat → (posIndex (oscAdvance e inc t).pos).toNat = i) ∧
      (e.loopStart.toNat + e.loopLength.toNat ≤ i →
        e.loopStart.toNat ≤ (posIndex (oscAdvance e inc t).pos).toNat ∧
        (posIndex (oscAdvance e inc t).pos).toNat < e.loopStart.toNat + e.loopLength.toNat ∧
        e.loopLength.toNat ∣ i - (posIndex (oscAdvance e inc t).pos).toNat)) ∧
    (e.loopMode ≠ 0 → oscAdvance e inc t =
      { t with pos := t.pos + inc.setWidth 48, phase := if setLen e - 1 ≤ i then .done else t.phase })

/-- Rules R207, R236: the geometries that make a voice fault, and what the fault does to the slot. Rule R209: any other slot
with a sample set does not fault; its output is the interpolated value times the level times the gain, in that order, all
three from the slot before it advances, and the slot then advances by PITCH_INC of its snapshot, the live registers and
XPOSE, and by one step of its envelope. -/
def Obligations.VoiceFaultsOrPlays : Prop :=
  ∀ (c : Cfg) (ss : List SampleSet) (live : Live) (xpose : Byte) (t : Slot) (e : SampleSet),
    ss[t.sset.toNat]? = some e →
    ((e.loopMode = 0 ∧ (e.loopLength = 0 ∨ setLen e < e.loopStart.toNat + e.loopLength.toNat)) ∨
        setLen e ≤ (posIndex t.pos).toNat →
      (voiceStep c ss live xpose t).fault = true ∧ (voiceStep c ss live xpose t).y.bits = 0 ∧
      (voiceStep c ss live xpose t).slot = { t with phase := .done }) ∧
    ((e.loopMode = 0 → e.loopLength ≠ 0 ∧ e.loopStart.toNat + e.loopLength.toNat ≤ setLen e) →
      (posIndex t.pos).toNat < setLen e → voiceStep c ss live xpose t = {
        y     := fmul (fmul (interp e t.pos) (envLevel t)) (gainValue (c.voiceGain t.snap live))
        slot  := envAdvance (oscAdvance e (c.pitchInc t.snap live xpose) t)
        fault := false })

/-- Rules R208, R210, R211: TICK, whole. DONE slots are freed first; every occupied slot makes its voice step; the outputs
are added in ascending slot order from +0.0; an unmuted part adds the sum to MIX and its magnitude to PEAK; slots that
reached DONE are freed; the result is the number of occupied slots; no slot is left in DONE. -/
def Obligations.TickMixesThePart : Prop :=
  (∀ (p : PartIx) (s : State), exec (.tick p) s = .next (tick Config.hw p s)) ∧
  ∀ (c : Cfg) (p : PartIx) (s : State) (before : SlotIx → Slot) (voice : SlotIx → Voice) (acc : F32),
    (∀ i, before i = if (s.part p).slots[i.val].phase = .done then Slot.reset else (s.part p).slots[i.val]) →
    (∀ i, voice i = voiceStep c s.ss (s.part p).live s.xpose (before i)) →
    acc = ((List.finRange Config.numSlots).filter fun i => (before i).phase ≠ .free).foldl
      (fun a i => fadd a (voice i).y) ⟨0x00000000⟩ →
    ∃ (slots : Vector Slot Config.numSlots) (vfault : Bool),
      (∀ i : SlotIx, slots[i.val] =
        if (before i).phase = .free then before i
        else if (voice i).slot.phase = .done then Slot.reset else (voice i).slot) ∧
      (vfault = true ↔ s.vfault = true ∨ ∃ i, (before i).phase ≠ .free ∧ (voice i).fault = true) ∧
      (∀ i : SlotIx, slots[i.val].phase ≠ .done) ∧
      ((s.part p).mute = true → tick c p s =
        { s.setPart p { s.part p with slots := slots } with
          vfault := vfault, res := BitVec.ofNat 32 (slots.toList.countP fun t => t.phase ≠ .free) }) ∧
      ((s.part p).mute = false → tick c p s =
        { s.setPart p { s.part p with slots := slots, peak := fmax (s.part p).peak (fabs acc) } with
          mix := fadd s.mix acc, vfault := vfault,
          res := BitVec.ofNat 32 (slots.toList.countP fun t => t.phase ≠ .free) })

/-- Rule R213: PEAK returns the meter and clears it to +0.0, and a second PEAK returns 0. -/
def Obligations.PeakReadsAndClears : Prop :=
  ∀ (p : PartIx) (s : State), ∃ t : State, exec (.peak p) s = .next t ∧
    t = { s.setPart p { s.part p with peak := ⟨0x00000000⟩ } with res := (s.part p).peak.bits } ∧
    exec (.peak p) t = .next { t with res := 0 }

/-- Rule R212: one note at full level (in HOLD, or in SUSTAIN with sus = 1.0) on a waveform whose values all equal A, with
gain 1.0, makes its part's sum |A| in magnitude: the peak after the TICK is the larger of the old peak and |A|, bit for bit;
so from a cleared peak and a magnitude A it is |A|. Rule R10: maxf is the larger of two values that are not NaN, and the
second when they compare equal; absf is the magnitude. -/
def Obligations.ConstantWaveformPeaksAtItsMagnitude : Prop :=
  (∀ x y : F32, isNaN x = false → isNaN y = false → fmax x y = if fval y < fval x then x else y) ∧
  (∀ x : F32, fval (fabs x) = |fval x|) ∧
  ∀ (c : Cfg) (p : PartIx) (s : State) (i : SlotIx) (e : SampleSet) (a : F32),
    (s.part p).mute = false →
    ((s.part p).slots[i.val].phase = .hold ∨
      ((s.part p).slots[i.val].phase = .sustain ∧ (s.part p).slots[i.val].sus.bits = 0x3F800000)) →
    (∀ j : SlotIx, j ≠ i → (s.part p).slots[j.val].phase = .free) →
    s.ss[(s.part p).slots[i.val].sset.toNat]? = some e → e.w = List.replicate (setLen e) a → isFinite a = true →
    badGeometry e (s.part p).slots[i.val].pos = false →
    (c.voiceGain (s.part p).slots[i.val].snap (s.part p).live).val = 0x3F800000 →
    ((tick c p s).part p).peak = fmax (s.part p).peak (fabs a) ∧
    (isNaN (s.part p).peak = false →
      ((tick c p s).part p).peak = if |fval a| < fval (s.part p).peak then (s.part p).peak else fabs a) ∧
    ((s.part p).peak.bits = 0 → ((tick c p s).part p).peak = fabs a)

/-! ### Invariants -/

/-- Rules R24, R25, R36, R182, R188, R207: the invariant of the state, which every step keeps, from every state that
meets it: notes only while READY, held keys only under the pedal, every note playable and its envelope in range, legal
parameter values, a table with no ping-pong loop and finite values, and a canonical image inside its banks. -/
def Obligations.EveryStepKeepsTheInvariant : Prop :=
  ∀ s t : State, s.Inv → step s = .next t → t.Inv

/-- The reset state meets the invariant (rules R39, R260). -/
def Obligations.ResetMeetsTheInvariant : Prop :=
  State.reset.Inv

/-- Rules R70, R71 and the source's property S9: two streams of which one changes VOLUME of a part by controller 7 and the
other ticks that part, in any interleaving, run to their end and leave VOLUME at the last value sent, or at its first value
if none is sent. That the interleaving is the order of a list that State holds is the model's choice (assumption log 8,
9). -/
def Obligations.InterleavedVolumeChangesEndAtTheLastValue : Prop :=
  ∀ (p : PartIx) (vs : List Byte) (n : Nat) (l : List Instr) (s : State) (rest : List PortEvent),
    (∀ v ∈ vs, v.toNat ≤ 127) → Interleave (vs.map fun v => Instr.ctrl p 7 v) (List.replicate n (.tick p)) l →
    s.port = (l.map fun i => PortEvent.command (encode i)) ++ rest →
    ∃ t : State, Sys2Proof.core.run l.length s = .next t ∧ t.port = rest ∧
      (t.part p).pr[0x01] = vs.getLastD (s.part p).pr[0x01]
end

