-- ==== Sys2Proof/Laws/State.lean ====
section
/-! SUPPORT. One lemma for each field and each named update of State and of Part, so that no proof unfolds a record
update. -/

namespace Sys2Proof.Machine

@[simp] theorem complete_gen (r : Word) (s : State) : (complete r s).gen = s.gen := rfl
@[simp] theorem complete_dstate (r : Word) (s : State) : (complete r s).dstate = s.dstate := rfl
@[simp] theorem complete_ecode (r : Word) (s : State) : (complete r s).ecode = s.ecode := rfl
@[simp] theorem complete_nbanks (r : Word) (s : State) : (complete r s).nbanks = s.nbanks := rfl
@[simp] theorem complete_plain (r : Word) (s : State) : (complete r s).plain = s.plain := rfl
@[simp] theorem complete_ss (r : Word) (s : State) : (complete r s).ss = s.ss := rfl
@[simp] theorem complete_version (r : Word) (s : State) : (complete r s).version = s.version := rfl
@[simp] theorem complete_date (r : Word) (s : State) : (complete r s).date = s.date := rfl
@[simp] theorem complete_ssel (r : Word) (s : State) : (complete r s).ssel = s.ssel := rfl
@[simp] theorem complete_parts (r : Word) (s : State) : (complete r s).parts = s.parts := rfl
@[simp] theorem complete_mix (r : Word) (s : State) : (complete r s).mix = s.mix := rfl
@[simp] theorem complete_xpose (r : Word) (s : State) : (complete r s).xpose = s.xpose := rfl
@[simp] theorem complete_cmdErr (r : Word) (s : State) : (complete r s).cmdErr = s.cmdErr := rfl
@[simp] theorem complete_vfault (r : Word) (s : State) : (complete r s).vfault = s.vfault := rfl
@[simp] theorem complete_romFiles (r : Word) (s : State) : (complete r s).romFiles = s.romFiles := rfl
@[simp] theorem complete_smeta (r : Word) (s : State) : (complete r s).smeta = s.smeta := rfl
@[simp] theorem complete_port (r : Word) (s : State) : (complete r s).port = s.port := rfl
@[simp] theorem complete_res (r : Word) (s : State) : (complete r s).res = r := rfl

@[simp] theorem raiseCmdErr_gen (s : State) : (raiseCmdErr s).gen = s.gen := rfl
@[simp] theorem raiseCmdErr_dstate (s : State) : (raiseCmdErr s).dstate = s.dstate := rfl
@[simp] theorem raiseCmdErr_ecode (s : State) : (raiseCmdErr s).ecode = s.ecode := rfl
@[simp] theorem raiseCmdErr_nbanks (s : State) : (raiseCmdErr s).nbanks = s.nbanks := rfl
@[simp] theorem raiseCmdErr_plain (s : State) : (raiseCmdErr s).plain = s.plain := rfl
@[simp] theorem raiseCmdErr_ss (s : State) : (raiseCmdErr s).ss = s.ss := rfl
@[simp] theorem raiseCmdErr_version (s : State) : (raiseCmdErr s).version = s.version := rfl
@[simp] theorem raiseCmdErr_date (s : State) : (raiseCmdErr s).date = s.date := rfl
@[simp] theorem raiseCmdErr_ssel (s : State) : (raiseCmdErr s).ssel = s.ssel := rfl
@[simp] theorem raiseCmdErr_parts (s : State) : (raiseCmdErr s).parts = s.parts := rfl
@[simp] theorem raiseCmdErr_mix (s : State) : (raiseCmdErr s).mix = s.mix := rfl
@[simp] theorem raiseCmdErr_xpose (s : State) : (raiseCmdErr s).xpose = s.xpose := rfl
@[simp] theorem raiseCmdErr_cmdErr (s : State) : (raiseCmdErr s).cmdErr = true := rfl
@[simp] theorem raiseCmdErr_vfault (s : State) : (raiseCmdErr s).vfault = s.vfault := rfl
@[simp] theorem raiseCmdErr_romFiles (s : State) : (raiseCmdErr s).romFiles = s.romFiles := rfl
@[simp] theorem raiseCmdErr_smeta (s : State) : (raiseCmdErr s).smeta = s.smeta := rfl
@[simp] theorem raiseCmdErr_port (s : State) : (raiseCmdErr s).port = s.port := rfl
@[simp] theorem raiseCmdErr_res (s : State) : (raiseCmdErr s).res = s.res := rfl

@[simp] theorem raiseVFault_gen (b : Bool) (s : State) : (raiseVFault b s).gen = s.gen := rfl
@[simp] theorem raiseVFault_dstate (b : Bool) (s : State) : (raiseVFault b s).dstate = s.dstate := rfl
@[simp] theorem raiseVFault_ecode (b : Bool) (s : State) : (raiseVFault b s).ecode = s.ecode := rfl
@[simp] theorem raiseVFault_nbanks (b : Bool) (s : State) : (raiseVFault b s).nbanks = s.nbanks := rfl
@[simp] theorem raiseVFault_plain (b : Bool) (s : State) : (raiseVFault b s).plain = s.plain := rfl
@[simp] theorem raiseVFault_ss (b : Bool) (s : State) : (raiseVFault b s).ss = s.ss := rfl
@[simp] theorem raiseVFault_version (b : Bool) (s : State) : (raiseVFault b s).version = s.version := rfl
@[simp] theorem raiseVFault_date (b : Bool) (s : State) : (raiseVFault b s).date = s.date := rfl
@[simp] theorem raiseVFault_ssel (b : Bool) (s : State) : (raiseVFault b s).ssel = s.ssel := rfl
@[simp] theorem raiseVFault_parts (b : Bool) (s : State) : (raiseVFault b s).parts = s.parts := rfl
@[simp] theorem raiseVFault_mix (b : Bool) (s : State) : (raiseVFault b s).mix = s.mix := rfl
@[simp] theorem raiseVFault_xpose (b : Bool) (s : State) : (raiseVFault b s).xpose = s.xpose := rfl
@[simp] theorem raiseVFault_cmdErr (b : Bool) (s : State) : (raiseVFault b s).cmdErr = s.cmdErr := rfl
@[simp] theorem raiseVFault_vfault (b : Bool) (s : State) : (raiseVFault b s).vfault = (s.vfault || b) := rfl
@[simp] theorem raiseVFault_romFiles (b : Bool) (s : State) : (raiseVFault b s).romFiles = s.romFiles := rfl
@[simp] theorem raiseVFault_smeta (b : Bool) (s : State) : (raiseVFault b s).smeta = s.smeta := rfl
@[simp] theorem raiseVFault_port (b : Bool) (s : State) : (raiseVFault b s).port = s.port := rfl
@[simp] theorem raiseVFault_res (b : Bool) (s : State) : (raiseVFault b s).res = s.res := rfl

@[simp] theorem setPart_gen (s : State) (p : PartIx) (P : Part) : (s.setPart p P).gen = s.gen := rfl
@[simp] theorem setPart_dstate (s : State) (p : PartIx) (P : Part) : (s.setPart p P).dstate = s.dstate := rfl
@[simp] theorem setPart_ecode (s : State) (p : PartIx) (P : Part) : (s.setPart p P).ecode = s.ecode := rfl
@[simp] theorem setPart_nbanks (s : State) (p : PartIx) (P : Part) : (s.setPart p P).nbanks = s.nbanks := rfl
@[simp] theorem setPart_plain (s : State) (p : PartIx) (P : Part) : (s.setPart p P).plain = s.plain := rfl
@[simp] theorem setPart_ss (s : State) (p : PartIx) (P : Part) : (s.setPart p P).ss = s.ss := rfl
@[simp] theorem setPart_version (s : State) (p : PartIx) (P : Part) : (s.setPart p P).version = s.version := rfl
@[simp] theorem setPart_date (s : State) (p : PartIx) (P : Part) : (s.setPart p P).date = s.date := rfl
@[simp] theorem setPart_ssel (s : State) (p : PartIx) (P : Part) : (s.setPart p P).ssel = s.ssel := rfl
@[simp] theorem setPart_parts (s : State) (p : PartIx) (P : Part) : (s.setPart p P).parts = s.parts.set p.val P := rfl
@[simp] theorem setPart_mix (s : State) (p : PartIx) (P : Part) : (s.setPart p P).mix = s.mix := rfl
@[simp] theorem setPart_xpose (s : State) (p : PartIx) (P : Part) : (s.setPart p P).xpose = s.xpose := rfl
@[simp] theorem setPart_cmdErr (s : State) (p : PartIx) (P : Part) : (s.setPart p P).cmdErr = s.cmdErr := rfl
@[simp] theorem setPart_vfault (s : State) (p : PartIx) (P : Part) : (s.setPart p P).vfault = s.vfault := rfl
@[simp] theorem setPart_romFiles (s : State) (p : PartIx) (P : Part) : (s.setPart p P).romFiles = s.romFiles := rfl
@[simp] theorem setPart_smeta (s : State) (p : PartIx) (P : Part) : (s.setPart p P).smeta = s.smeta := rfl
@[simp] theorem setPart_port (s : State) (p : PartIx) (P : Part) : (s.setPart p P).port = s.port := rfl
@[simp] theorem setPart_res (s : State) (p : PartIx) (P : Part) : (s.setPart p P).res = s.res := rfl

@[simp] theorem reject_gen (s : State) : (reject s).gen = s.gen := rfl
@[simp] theorem reject_dstate (s : State) : (reject s).dstate = s.dstate := rfl
@[simp] theorem reject_ecode (s : State) : (reject s).ecode = s.ecode := rfl
@[simp] theorem reject_nbanks (s : State) : (reject s).nbanks = s.nbanks := rfl
@[simp] theorem reject_plain (s : State) : (reject s).plain = s.plain := rfl
@[simp] theorem reject_ss (s : State) : (reject s).ss = s.ss := rfl
@[simp] theorem reject_version (s : State) : (reject s).version = s.version := rfl
@[simp] theorem reject_date (s : State) : (reject s).date = s.date := rfl
@[simp] theorem reject_ssel (s : State) : (reject s).ssel = s.ssel := rfl
@[simp] theorem reject_parts (s : State) : (reject s).parts = s.parts := rfl
@[simp] theorem reject_mix (s : State) : (reject s).mix = s.mix := rfl
@[simp] theorem reject_xpose (s : State) : (reject s).xpose = s.xpose := rfl
@[simp] theorem reject_cmdErr (s : State) : (reject s).cmdErr = true := rfl
@[simp] theorem reject_vfault (s : State) : (reject s).vfault = s.vfault := rfl
@[simp] theorem reject_romFiles (s : State) : (reject s).romFiles = s.romFiles := rfl
@[simp] theorem reject_smeta (s : State) : (reject s).smeta = s.smeta := rfl
@[simp] theorem reject_port (s : State) : (reject s).port = s.port := rfl
@[simp] theorem reject_res (s : State) : (reject s).res = 0xFFFFFFFF := rfl

@[simp] theorem drop_gen (s : State) : (drop s).gen = s.gen := rfl
@[simp] theorem drop_dstate (s : State) : (drop s).dstate = s.dstate := rfl
@[simp] theorem drop_ecode (s : State) : (drop s).ecode = s.ecode := rfl
@[simp] theorem drop_nbanks (s : State) : (drop s).nbanks = s.nbanks := rfl
@[simp] theorem drop_plain (s : State) : (drop s).plain = s.plain := rfl
@[simp] theorem drop_ss (s : State) : (drop s).ss = s.ss := rfl
@[simp] theorem drop_version (s : State) : (drop s).version = s.version := rfl
@[simp] theorem drop_date (s : State) : (drop s).date = s.date := rfl
@[simp] theorem drop_ssel (s : State) : (drop s).ssel = s.ssel := rfl
@[simp] theorem drop_parts (s : State) : (drop s).parts = s.parts := rfl
@[simp] theorem drop_mix (s : State) : (drop s).mix = s.mix := rfl
@[simp] theorem drop_xpose (s : State) : (drop s).xpose = s.xpose := rfl
@[simp] theorem drop_cmdErr (s : State) : (drop s).cmdErr = s.cmdErr := rfl
@[simp] theorem drop_vfault (s : State) : (drop s).vfault = s.vfault := rfl
@[simp] theorem drop_romFiles (s : State) : (drop s).romFiles = s.romFiles := rfl
@[simp] theorem drop_smeta (s : State) : (drop s).smeta = s.smeta := rfl
@[simp] theorem drop_port (s : State) : (drop s).port = s.port := rfl
@[simp] theorem drop_res (s : State) : (drop s).res = 0 := rfl

@[simp] theorem commitLoad_gen (l : Loaded) (s : State) : (commitLoad l s).gen = s.gen := rfl
@[simp] theorem commitLoad_dstate (l : Loaded) (s : State) : (commitLoad l s).dstate = .ready := rfl
@[simp] theorem commitLoad_ecode (l : Loaded) (s : State) : (commitLoad l s).ecode = .none := rfl
@[simp] theorem commitLoad_nbanks (l : Loaded) (s : State) : (commitLoad l s).nbanks = l.nbanks := rfl
@[simp] theorem commitLoad_plain (l : Loaded) (s : State) : (commitLoad l s).plain = l.plain := rfl
@[simp] theorem commitLoad_ss (l : Loaded) (s : State) : (commitLoad l s).ss = l.ss := rfl
@[simp] theorem commitLoad_version (l : Loaded) (s : State) : (commitLoad l s).version = l.version := rfl
@[simp] theorem commitLoad_date (l : Loaded) (s : State) : (commitLoad l s).date = l.date := rfl
@[simp] theorem commitLoad_ssel (l : Loaded) (s : State) : (commitLoad l s).ssel = s.ssel := rfl
@[simp] theorem commitLoad_parts (l : Loaded) (s : State) : (commitLoad l s).parts = s.parts := rfl
@[simp] theorem commitLoad_mix (l : Loaded) (s : State) : (commitLoad l s).mix = s.mix := rfl
@[simp] theorem commitLoad_xpose (l : Loaded) (s : State) : (commitLoad l s).xpose = s.xpose := rfl
@[simp] theorem commitLoad_cmdErr (l : Loaded) (s : State) : (commitLoad l s).cmdErr = s.cmdErr := rfl
@[simp] theorem commitLoad_vfault (l : Loaded) (s : State) : (commitLoad l s).vfault = s.vfault := rfl
@[simp] theorem commitLoad_romFiles (l : Loaded) (s : State) : (commitLoad l s).romFiles = s.romFiles := rfl
@[simp] theorem commitLoad_smeta (l : Loaded) (s : State) : (commitLoad l s).smeta = s.smeta := rfl
@[simp] theorem commitLoad_port (l : Loaded) (s : State) : (commitLoad l s).port = s.port := rfl
@[simp] theorem commitLoad_res (l : Loaded) (s : State) : (commitLoad l s).res = s.res := rfl

@[simp] theorem abortLoad_gen (e : ECode) (s : State) : (abortLoad e s).gen = s.gen := rfl
@[simp] theorem abortLoad_dstate (e : ECode) (s : State) : (abortLoad e s).dstate = .error := rfl
@[simp] theorem abortLoad_ecode (e : ECode) (s : State) : (abortLoad e s).ecode = e := rfl
@[simp] theorem abortLoad_nbanks (e : ECode) (s : State) : (abortLoad e s).nbanks = 0 := rfl
@[simp] theorem abortLoad_plain (e : ECode) (s : State) : (abortLoad e s).plain = [] := rfl
@[simp] theorem abortLoad_ss (e : ECode) (s : State) : (abortLoad e s).ss = [] := rfl
@[simp] theorem abortLoad_version (e : ECode) (s : State) : (abortLoad e s).version = Vector.replicate 4 0 := rfl
@[simp] theorem abortLoad_date (e : ECode) (s : State) : (abortLoad e s).date = Vector.replicate 10 0 := rfl
@[simp] theorem abortLoad_ssel (e : ECode) (s : State) : (abortLoad e s).ssel = s.ssel := rfl
@[simp] theorem abortLoad_parts (e : ECode) (s : State) : (abortLoad e s).parts = s.parts := rfl
@[simp] theorem abortLoad_mix (e : ECode) (s : State) : (abortLoad e s).mix = s.mix := rfl
@[simp] theorem abortLoad_xpose (e : ECode) (s : State) : (abortLoad e s).xpose = s.xpose := rfl
@[simp] theorem abortLoad_cmdErr (e : ECode) (s : State) : (abortLoad e s).cmdErr = s.cmdErr := rfl
@[simp] theorem abortLoad_vfault (e : ECode) (s : State) : (abortLoad e s).vfault = s.vfault := rfl
@[simp] theorem abortLoad_romFiles (e : ECode) (s : State) : (abortLoad e s).romFiles = s.romFiles := rfl
@[simp] theorem abortLoad_smeta (e : ECode) (s : State) : (abortLoad e s).smeta = s.smeta := rfl
@[simp] theorem abortLoad_port (e : ECode) (s : State) : (abortLoad e s).port = s.port := rfl
@[simp] theorem abortLoad_res (e : ECode) (s : State) : (abortLoad e s).res = s.res := rfl

@[simp] theorem setHold_pr (v : Bool) (P : Part) : (setHold v P).pr = P.pr := rfl
@[simp] theorem setHold_prog (v : Bool) (P : Part) : (setHold v P).prog = P.prog := rfl
@[simp] theorem setHold_mode (v : Bool) (P : Part) : (setHold v P).mode = P.mode := rfl
@[simp] theorem setHold_bend (v : Bool) (P : Part) : (setHold v P).bend = P.bend := rfl
@[simp] theorem setHold_mod (v : Bool) (P : Part) : (setHold v P).mod = P.mod := rfl
@[simp] theorem setHold_expr (v : Bool) (P : Part) : (setHold v P).expr = P.expr := rfl
@[simp] theorem setHold_hold (v : Bool) (P : Part) : (setHold v P).hold = v := rfl
@[simp] theorem setHold_mute (v : Bool) (P : Part) : (setHold v P).mute = P.mute := rfl
@[simp] theorem setHold_chp (v : Bool) (P : Part) : (setHold v P).chp = P.chp := rfl
@[simp] theorem setHold_pkp (v : Bool) (P : Part) : (setHold v P).pkp = P.pkp := rfl
@[simp] theorem setHold_held (v : Bool) (P : Part) : (setHold v P).held = P.held := rfl
@[simp] theorem setHold_peak (v : Bool) (P : Part) : (setHold v P).peak = P.peak := rfl
@[simp] theorem setHold_slots (v : Bool) (P : Part) : (setHold v P).slots = P.slots := rfl

@[simp] theorem setMute_pr (v : Bool) (P : Part) : (setMute v P).pr = P.pr := rfl
@[simp] theorem setMute_prog (v : Bool) (P : Part) : (setMute v P).prog = P.prog := rfl
@[simp] theorem setMute_mode (v : Bool) (P : Part) : (setMute v P).mode = P.mode := rfl
@[simp] theorem setMute_bend (v : Bool) (P : Part) : (setMute v P).bend = P.bend := rfl
@[simp] theorem setMute_mod (v : Bool) (P : Part) : (setMute v P).mod = P.mod := rfl
@[simp] theorem setMute_expr (v : Bool) (P : Part) : (setMute v P).expr = P.expr := rfl
@[simp] theorem setMute_hold (v : Bool) (P : Part) : (setMute v P).hold = P.hold := rfl
@[simp] theorem setMute_mute (v : Bool) (P : Part) : (setMute v P).mute = v := rfl
@[simp] theorem setMute_chp (v : Bool) (P : Part) : (setMute v P).chp = P.chp := rfl
@[simp] theorem setMute_pkp (v : Bool) (P : Part) : (setMute v P).pkp = P.pkp := rfl
@[simp] theorem setMute_held (v : Bool) (P : Part) : (setMute v P).held = P.held := rfl
@[simp] theorem setMute_peak (v : Bool) (P : Part) : (setMute v P).peak = P.peak := rfl
@[simp] theorem setMute_slots (v : Bool) (P : Part) : (setMute v P).slots = P.slots := rfl

@[simp] theorem setParam_pr (P : Part) (id : Nat) (v : Byte) : (P.setParam id v).pr = P.pr.setIfInBounds id v := rfl
@[simp] theorem setParam_prog (P : Part) (id : Nat) (v : Byte) : (P.setParam id v).prog = P.prog := rfl
@[simp] theorem setParam_mode (P : Part) (id : Nat) (v : Byte) : (P.setParam id v).mode = P.mode := rfl
@[simp] theorem setParam_bend (P : Part) (id : Nat) (v : Byte) : (P.setParam id v).bend = P.bend := rfl
@[simp] theorem setParam_mod (P : Part) (id : Nat) (v : Byte) : (P.setParam id v).mod = P.mod := rfl
@[simp] theorem setParam_expr (P : Part) (id : Nat) (v : Byte) : (P.setParam id v).expr = P.expr := rfl
@[simp] theorem setParam_hold (P : Part) (id : Nat) (v : Byte) : (P.setParam id v).hold = P.hold := rfl
@[simp] theorem setParam_mute (P : Part) (id : Nat) (v : Byte) : (P.setParam id v).mute = P.mute := rfl
@[simp] theorem setParam_chp (P : Part) (id : Nat) (v : Byte) : (P.setParam id v).chp = P.chp := rfl
@[simp] theorem setParam_pkp (P : Part) (id : Nat) (v : Byte) : (P.setParam id v).pkp = P.pkp := rfl
@[simp] theorem setParam_held (P : Part) (id : Nat) (v : Byte) : (P.setParam id v).held = P.held := rfl
@[simp] theorem setParam_peak (P : Part) (id : Nat) (v : Byte) : (P.setParam id v).peak = P.peak := rfl
@[simp] theorem setParam_slots (P : Part) (id : Nat) (v : Byte) : (P.setParam id v).slots = P.slots := rfl

@[simp] theorem mapSlots_pr (f : Slot → Slot) (P : Part) : (P.mapSlots f).pr = P.pr := rfl
@[simp] theorem mapSlots_prog (f : Slot → Slot) (P : Part) : (P.mapSlots f).prog = P.prog := rfl
@[simp] theorem mapSlots_mode (f : Slot → Slot) (P : Part) : (P.mapSlots f).mode = P.mode := rfl
@[simp] theorem mapSlots_bend (f : Slot → Slot) (P : Part) : (P.mapSlots f).bend = P.bend := rfl
@[simp] theorem mapSlots_mod (f : Slot → Slot) (P : Part) : (P.mapSlots f).mod = P.mod := rfl
@[simp] theorem mapSlots_expr (f : Slot → Slot) (P : Part) : (P.mapSlots f).expr = P.expr := rfl
@[simp] theorem mapSlots_hold (f : Slot → Slot) (P : Part) : (P.mapSlots f).hold = P.hold := rfl
@[simp] theorem mapSlots_mute (f : Slot → Slot) (P : Part) : (P.mapSlots f).mute = P.mute := rfl
@[simp] theorem mapSlots_chp (f : Slot → Slot) (P : Part) : (P.mapSlots f).chp = P.chp := rfl
@[simp] theorem mapSlots_pkp (f : Slot → Slot) (P : Part) : (P.mapSlots f).pkp = P.pkp := rfl
@[simp] theorem mapSlots_held (f : Slot → Slot) (P : Part) : (P.mapSlots f).held = P.held := rfl
@[simp] theorem mapSlots_peak (f : Slot → Slot) (P : Part) : (P.mapSlots f).peak = P.peak := rfl
@[simp] theorem mapSlots_slots (f : Slot → Slot) (P : Part) : (P.mapSlots f).slots = mapVec f P.slots := rfl

@[simp] theorem addHeld_pr (P : Part) (k : BitVec 7) : (P.addHeld k).pr = P.pr := rfl
@[simp] theorem addHeld_prog (P : Part) (k : BitVec 7) : (P.addHeld k).prog = P.prog := rfl
@[simp] theorem addHeld_mode (P : Part) (k : BitVec 7) : (P.addHeld k).mode = P.mode := rfl
@[simp] theorem addHeld_bend (P : Part) (k : BitVec 7) : (P.addHeld k).bend = P.bend := rfl
@[simp] theorem addHeld_mod (P : Part) (k : BitVec 7) : (P.addHeld k).mod = P.mod := rfl
@[simp] theorem addHeld_expr (P : Part) (k : BitVec 7) : (P.addHeld k).expr = P.expr := rfl
@[simp] theorem addHeld_hold (P : Part) (k : BitVec 7) : (P.addHeld k).hold = P.hold := rfl
@[simp] theorem addHeld_mute (P : Part) (k : BitVec 7) : (P.addHeld k).mute = P.mute := rfl
@[simp] theorem addHeld_chp (P : Part) (k : BitVec 7) : (P.addHeld k).chp = P.chp := rfl
@[simp] theorem addHeld_pkp (P : Part) (k : BitVec 7) : (P.addHeld k).pkp = P.pkp := rfl
@[simp] theorem addHeld_held (P : Part) (k : BitVec 7) : (P.addHeld k).held = (P.held ||| (1#128 <<< k.toNat)) := rfl
@[simp] theorem addHeld_peak (P : Part) (k : BitVec 7) : (P.addHeld k).peak = P.peak := rfl
@[simp] theorem addHeld_slots (P : Part) (k : BitVec 7) : (P.addHeld k).slots = P.slots := rfl

@[simp] theorem clearHeld_pr (P : Part) : (P.clearHeld).pr = P.pr := rfl
@[simp] theorem clearHeld_prog (P : Part) : (P.clearHeld).prog = P.prog := rfl
@[simp] theorem clearHeld_mode (P : Part) : (P.clearHeld).mode = P.mode := rfl
@[simp] theorem clearHeld_bend (P : Part) : (P.clearHeld).bend = P.bend := rfl
@[simp] theorem clearHeld_mod (P : Part) : (P.clearHeld).mod = P.mod := rfl
@[simp] theorem clearHeld_expr (P : Part) : (P.clearHeld).expr = P.expr := rfl
@[simp] theorem clearHeld_hold (P : Part) : (P.clearHeld).hold = P.hold := rfl
@[simp] theorem clearHeld_mute (P : Part) : (P.clearHeld).mute = P.mute := rfl
@[simp] theorem clearHeld_chp (P : Part) : (P.clearHeld).chp = P.chp := rfl
@[simp] theorem clearHeld_pkp (P : Part) : (P.clearHeld).pkp = P.pkp := rfl
@[simp] theorem clearHeld_held (P : Part) : (P.clearHeld).held = 0 := rfl
@[simp] theorem clearHeld_peak (P : Part) : (P.clearHeld).peak = P.peak := rfl
@[simp] theorem clearHeld_slots (P : Part) : (P.clearHeld).slots = P.slots := rfl

@[simp] theorem placeNote_pr (t : Slot) (P : Part) : (placeNote t P).pr = P.pr := rfl
@[simp] theorem placeNote_prog (t : Slot) (P : Part) : (placeNote t P).prog = P.prog := rfl
@[simp] theorem placeNote_mode (t : Slot) (P : Part) : (placeNote t P).mode = P.mode := rfl
@[simp] theorem placeNote_bend (t : Slot) (P : Part) : (placeNote t P).bend = P.bend := rfl
@[simp] theorem placeNote_mod (t : Slot) (P : Part) : (placeNote t P).mod = P.mod := rfl
@[simp] theorem placeNote_expr (t : Slot) (P : Part) : (placeNote t P).expr = P.expr := rfl
@[simp] theorem placeNote_hold (t : Slot) (P : Part) : (placeNote t P).hold = P.hold := rfl
@[simp] theorem placeNote_mute (t : Slot) (P : Part) : (placeNote t P).mute = P.mute := rfl
@[simp] theorem placeNote_chp (t : Slot) (P : Part) : (placeNote t P).chp = P.chp := rfl
@[simp] theorem placeNote_pkp (t : Slot) (P : Part) : (placeNote t P).pkp = P.pkp := rfl
@[simp] theorem placeNote_held (t : Slot) (P : Part) : (placeNote t P).held = P.held := rfl
@[simp] theorem placeNote_peak (t : Slot) (P : Part) : (placeNote t P).peak = P.peak := rfl
@[simp] theorem placeNote_slots (t : Slot) (P : Part) : (placeNote t P).slots = P.slots.setIfInBounds P.lowestFree t := rfl

@[simp] theorem restoreDefaults_pr (p : PartIx) (P : Part) : (restoreDefaults p P).pr = paramReset p := rfl
@[simp] theorem restoreDefaults_prog (p : PartIx) (P : Part) : (restoreDefaults p P).prog = 0 := rfl
@[simp] theorem restoreDefaults_mode (p : PartIx) (P : Part) : (restoreDefaults p P).mode = .normal := rfl
@[simp] theorem restoreDefaults_bend (p : PartIx) (P : Part) : (restoreDefaults p P).bend = 8192 := rfl
@[simp] theorem restoreDefaults_mod (p : PartIx) (P : Part) : (restoreDefaults p P).mod = 0 := rfl
@[simp] theorem restoreDefaults_expr (p : PartIx) (P : Part) : (restoreDefaults p P).expr = 127 := rfl
@[simp] theorem restoreDefaults_hold (p : PartIx) (P : Part) : (restoreDefaults p P).hold = P.hold := rfl
@[simp] theorem restoreDefaults_mute (p : PartIx) (P : Part) : (restoreDefaults p P).mute = P.mute := rfl
@[simp] theorem restoreDefaults_chp (p : PartIx) (P : Part) : (restoreDefaults p P).chp = 0 := rfl
@[simp] theorem restoreDefaults_pkp (p : PartIx) (P : Part) : (restoreDefaults p P).pkp = Vector.replicate 128 0 := rfl
@[simp] theorem restoreDefaults_held (p : PartIx) (P : Part) : (restoreDefaults p P).held = P.held := rfl
@[simp] theorem restoreDefaults_peak (p : PartIx) (P : Part) : (restoreDefaults p P).peak = P.peak := rfl
@[simp] theorem restoreDefaults_slots (p : PartIx) (P : Part) : (restoreDefaults p P).slots = P.slots := rfl

end Sys2Proof.Machine
end

