-- ==== Sys2Proof/Laws/Parts.lean ====
section
/-! SUPPORT. Reading and writing the parts and their slots: what `State.part`, `State.setPart` and `mapVec` give, and
what the held-key buffer holds. -/

namespace Sys2Proof.Machine

/-- Reading back the part just written. -/
@[simp] theorem part_setPart_self (s : State) (p : PartIx) (P : Part) : (s.setPart p P).part p = P := by
  simp [State.part]

/-- Writing one part leaves every other part alone. -/
theorem part_setPart_ne (s : State) {p q : PartIx} (h : q ≠ p) (P : Part) : (s.setPart p P).part q = s.part q := by
  have hv : p.val ≠ q.val := fun e => h (Fin.ext e.symm)
  simp [State.part, hv]

/-- Reading a part of a completed command. -/
@[simp] theorem part_complete (r : Word) (s : State) (q : PartIx) : (complete r s).part q = s.part q := rfl

/-- Reading a part of a rejected command. -/
@[simp] theorem part_reject (s : State) (q : PartIx) : (reject s).part q = s.part q := rfl

/-- Reading a part of a dropped command. -/
@[simp] theorem part_drop (s : State) (q : PartIx) : (drop s).part q = s.part q := rfl

/-- Reading a part after VFAULT was raised. -/
@[simp] theorem part_raiseVFault (b : Bool) (s : State) (q : PartIx) : (raiseVFault b s).part q = s.part q := rfl

/-- Reading a part after a load was committed. -/
@[simp] theorem part_commitLoad (l : Loaded) (s : State) (q : PartIx) : (commitLoad l s).part q = s.part q := rfl

/-- Reading a part after a load was aborted. -/
@[simp] theorem part_abortLoad (e : ECode) (s : State) (q : PartIx) : (abortLoad e s).part q = s.part q := rfl

/-- Two writes to one part: the later one stays. -/
@[simp] theorem setPart_setPart (s : State) (p : PartIx) (P Q : Part) : (s.setPart p P).setPart p Q = s.setPart p Q := by
  simp [State.setPart]

/-- Writing a part as it is changes nothing. -/
@[simp] theorem setPart_part (s : State) (p : PartIx) : s.setPart p (s.part p) = s := by
  simp [State.setPart, State.part]

@[simp] theorem toList_mapVec {α β : Type} {n : Nat} (f : α → β) (v : Vector α n) :
    (mapVec f v).toList = v.toList.map f := by
  simp [mapVec, Vector.toList]

@[simp] theorem getElem_mapVec {α β : Type} {n : Nat} (f : α → β) (v : Vector α n) (i : Nat) (h : i < n) :
    (mapVec f v)[i] = f v[i] := by
  simp [mapVec]

/-- Mapping twice is mapping the composition. -/
theorem mapVec_mapVec {α β γ : Type} {n : Nat} (g : β → γ) (f : α → β) (v : Vector α n) :
    mapVec g (mapVec f v) = mapVec (fun x => g (f x)) v := by
  ext i hi
  simp

/-- Mapping a function that changes no element of the vector changes nothing. -/
theorem mapVec_id_of {α : Type} {n : Nat} {f : α → α} {v : Vector α n} (h : ∀ (i : Nat) (hi : i < n), f v[i] = v[i]) :
    mapVec f v = v := by
  ext i hi
  simp [h i hi]

/-- The live registers do not depend on the slots. -/
@[simp] theorem live_mapSlots (f : Slot → Slot) (P : Part) : (P.mapSlots f).live = P.live := rfl

/-- Adding a key to the held-key buffer puts that key in it and no other. -/
theorem isHeld_addHeld (P : Part) (k j : BitVec 7) : (P.addHeld k).isHeld j = (P.isHeld j || j == k) := by
  have hk := k.isLt
  have hj := j.isLt
  have hkj : (j == k) = decide (j.toNat = k.toNat) := by
    rw [Bool.eq_iff_iff]; simp [BitVec.toNat_eq]
  rw [hkj]
  simp only [Part.isHeld, Part.addHeld, BitVec.getLsbD_or, BitVec.getLsbD_shiftLeft, BitVec.getLsbD_one]
  congr 1
  rw [Bool.eq_iff_iff]
  simp
  omega

/-- An empty buffer holds no key. -/
@[simp] theorem isHeld_clearHeld (P : Part) (k : BitVec 7) : P.clearHeld.isHeld k = false := by
  simp [Part.isHeld]

/-- A part with fewer occupied slots than NSLOTS has a free one, and the lowest of them is free. -/
theorem lowestFree_lt {P : Part} (h : P.active < Config.numSlots) : P.lowestFree < Config.numSlots := by
  have hlen : P.slots.toList.length = Config.numSlots := by simp
  by_contra hno
  have hall : ∀ t ∈ P.slots.toList, t.occupied = true := fun t ht => by
    by_contra hocc
    exact hno (hlen ▸ List.findIdx_lt_length_of_exists ⟨t, ht, by simpa using hocc⟩)
  have : P.active = P.slots.toList.length := List.countP_eq_length.mpr hall
  omega

end Sys2Proof.Machine
end

