-- ==== Sys2Proof/Laws/Voice.lean ====
section
/-! SUPPORT. What the envelope and playback operations can do to a slot, said once each (rules R182 to R187, R204,
R207, R209). -/

namespace Sys2Proof.Machine

/-- The loop of ENV_NORMALIZE writes phase and cnt only. -/
theorem envLoop_frame (n : Nat) (t : Slot) :
    ∃ ph c, envLoop n t = { t with phase := ph, cnt := c } := by
  induction n generalizing t with
  | zero => exact ⟨t.phase, t.cnt, rfl⟩
  | succ n ih =>
    simp only [envLoop]
    split
    · exact ⟨t.phase, t.cnt, rfl⟩
    · split
      · obtain ⟨ph, c, h⟩ := ih { t with phase := envNext t.phase, cnt := 0 }
        exact ⟨ph, c, h⟩
      · exact ⟨t.phase, t.cnt, rfl⟩

/-- ENV_NORMALIZE writes phase and cnt only (rule R182). -/
theorem envNormalize_frame (t : Slot) : ∃ ph c, envNormalize t = { t with phase := ph, cnt := c } :=
  envLoop_frame 4 t

/-- A phase that has not run its length stays (rule R182). -/
theorem envNormalize_of_lt {t : Slot} {d : BitVec 24} (hd : envDur t = some d) (h : t.cnt.toNat < d.toNat) :
    envNormalize t = t := by
  simp only [envNormalize, envLoop, hd, if_neg (Nat.not_le.mpr h)]

/-- In a phase without a duration ENV_NORMALIZE and ENV_ADVANCE change nothing (rules R182, R185). -/
theorem env_stays_of_none {t : Slot} (hd : envDur t = none) : envNormalize t = t ∧ envAdvance t = t := by
  simp only [envNormalize, envLoop, envAdvance, hd, and_self]

/-- ENV_ADVANCE writes phase and cnt only (rule R185). -/
theorem envAdvance_frame (t : Slot) : ∃ ph c, envAdvance t = { t with phase := ph, cnt := c } := by
  unfold envAdvance
  split
  · obtain ⟨ph, c, h⟩ := envNormalize_frame { t with cnt := t.cnt + 1 }
    exact ⟨ph, c, h⟩
  · exact ⟨t.phase, t.cnt, rfl⟩

/-- ENV_RELEASE writes rl, phase and cnt only, and rl only with the level the slot had (rule R186). -/
theorem envRelease_frame (t : Slot) :
    envRelease t = t ∨ ∃ ph c, envRelease t = { t with phase := ph, cnt := c, rl := envLevel t } := by
  unfold envRelease
  split
  · obtain ⟨ph, c, h⟩ := envNormalize_frame { t with rl := envLevel t, phase := .release, cnt := 0 }
    exact .inr ⟨ph, c, h⟩
  · exact .inl rfl

/-- OSC_ADVANCE writes pos, and phase only with DONE (rule R204). -/
theorem oscAdvance_frame (g : SampleSet) (inc : BitVec 32) (t : Slot) :
    ∃ x, oscAdvance g inc t = { t with pos := x } ∨ oscAdvance g inc t = { t with pos := x, phase := .done } := by
  unfold oscAdvance
  dsimp only
  split
  · split
    · exact ⟨_, .inl rfl⟩
    · exact ⟨_, .inl rfl⟩
  · split
    · exact ⟨_, .inr rfl⟩
    · exact ⟨_, .inl rfl⟩

/-- A voice step either records a fault or plays, and says when (rules R207, R209). -/
theorem voiceStep_cases (c : Cfg) (ss : List SampleSet) (live : Live) (xpose : Byte) (t : Slot) :
    (voiceStep c ss live xpose t = voiceFault t ∧
      (ss[t.sset.toNat]? = none ∨ ∃ g, ss[t.sset.toNat]? = some g ∧ badGeometry g t.pos = true)) ∨
    ∃ g, ss[t.sset.toNat]? = some g ∧ badGeometry g t.pos = false ∧
      voiceStep c ss live xpose t = voicePlay c g live xpose t := by
  rcases hg : ss[t.sset.toNat]? with _ | g
  · exact .inl ⟨by simp [voiceStep, hg], .inl rfl⟩
  · rcases hb : badGeometry g t.pos with _ | _
    · exact .inr ⟨g, rfl, hb, by simp [voiceStep, hg, hb]⟩
    · exact .inl ⟨by simp [voiceStep, hg, hb], .inr ⟨g, rfl, hb⟩⟩

/-- Freeing DONE slots leaves no slot in DONE. -/
theorem freeIfDone_ne_done (t : Slot) : (freeIfDone t).phase ≠ .done := by
  unfold freeIfDone
  split
  · simp [freeSlot, Slot.reset]
  · assumption

/-- Killing leaves a slot free. -/
@[simp] theorem killOccupied_free (t : Slot) : (killOccupied t).occupied = false := by
  unfold killOccupied
  split
  · rfl
  · rename_i h
    simpa using h

end Sys2Proof.Machine
end

