-- ==== Sys2Proof/Laws/Commands.lean ====
section
/-! SUPPORT. What the larger commands can do, each said once: the state they leave is the old one with the named fields
replaced. Frames and invariants follow from these without unfolding a command. -/

namespace Sys2Proof.Machine

/-- NOTE_ON either drops, or replaces its part's slots (rules R141 to R144). -/
theorem noteOn_cases (c : Cfg) (p : PartIx) (key vel : Byte) (s : State) :
    noteOn c p key vel s = drop s ∨
      ∃ (k v : BitVec 7) (set : BitVec 24), midi7 key = some k ∧ velocity7 vel = some v ∧ noteSet c s p k = some set ∧
        notesKept (s.part p) < slotBudget (s.part p) ∧
        noteOn c p key vel s = complete 0 (s.setPart p (startNote c k v set (s.part p))) := by
  unfold noteOn
  split
  · next k v hk hv =>
    cases hs : noteSet c s p k with
    | none => exact .inl rfl
    | some set =>
      simp only
      split
      · exact .inl rfl
      · next hb => exact .inr ⟨k, v, set, hk, hv, hs, by omega, rfl⟩
  · exact .inl rfl

/-- The sample set a NOTE_ON binds exists, and the decoder is READY (rule R141). -/
theorem noteSet_some {c : Cfg} {s : State} {p : PartIx} {key : BitVec 7} {k : BitVec 24} (h : noteSet c s p key = some k) :
    s.dstate = .ready ∧ c.sampleSelect (s.part p).live key = some k ∧ k.toNat < s.ss.length := by
  unfold noteSet at h
  split at h
  · next hr =>
    split at h
    · cases h
    · next k' hk' =>
      split at h
      · next hlt => exact ⟨hr, (Option.some.inj h) ▸ hk', (Option.some.inj h) ▸ hlt⟩
      · cases h
  · cases h

/-- An admitted NOTE_ON changes nothing of its part but the slots (rule R141). -/
theorem startNote_frame (c : Cfg) (key vel : BitVec 7) (set : BitVec 24) (P : Part) :
    startNote c key vel set P = { P with slots := (startNote c key vel set P).slots } := by
  simp only [startNote, placeNote]
  split <;> rfl

/-- A released slot, as rules R145 and R148 say it. -/
theorem release_if (t : Slot) (q : Bool) :
    (if (t.occupied && q) = true then envRelease t else t) =
      if q = true ∧ t.phase ∈ [Phase.attack, Phase.hold, Phase.decay, Phase.sustain] then envRelease t else t := by
  cases q <;> cases h : t.phase <;> simp [Slot.occupied, h, envRelease, releasable]

/-- The sum of a TICK is the fold of `+f` over the occupied slots' outputs in ascending order (rule R208). -/
theorem sumVoices_eq (voice : Slot → Voice) (acc : F32) (l : List Slot) :
    sumVoices voice acc l = (l.filter fun t => t.phase ≠ .free).foldl (fun a t => fadd a (voice t).y) acc := by
  induction l generalizing acc with
  | nil => rfl
  | cons t l ih =>
    simp only [sumVoices, ih]
    by_cases h : t.phase = .free <;> simp [Slot.occupied, h]

/-- The slots a TICK starts from: those in DONE are freed (rule R208). -/
def tickSlots (s : State) (p : PartIx) : Vector Slot Config.numSlots := mapVec freeIfDone (s.part p).slots

/-- The voice step of a TICK (rule R209). -/
def tickVoice (c : Cfg) (s : State) (p : PartIx) : Slot → Voice := voiceStep c s.ss (s.part p).live s.xpose

/-- TICK, whole: the slots, the peak, MIX, VFAULT and the result are written, and nothing else (rules R208, R210). -/
theorem tick_eq (c : Cfg) (p : PartIx) (s : State) :
    tick c p s =
      complete (BitVec.ofNat 32
          ((mapVec (fun t => freeIfDone (stepSlot (tickVoice c s p) t)) (tickSlots s p)).toList.countP Slot.occupied))
        { s.setPart p { s.part p with
            slots := mapVec (fun t => freeIfDone (stepSlot (tickVoice c s p) t)) (tickSlots s p)
            peak := if (s.part p).mute then (s.part p).peak
              else fmax (s.part p).peak (fabs (sumVoices (tickVoice c s p) F32.zero (tickSlots s p).toList)) } with
          mix := if (s.part p).mute then s.mix
            else fadd s.mix (sumVoices (tickVoice c s p) F32.zero (tickSlots s p).toList)
          vfault := s.vfault || (tickSlots s p).toList.any (slotFaults (tickVoice c s p)) } := by
  have hpart : ∀ (b : Bool) (P : Part), (raiseVFault b (s.setPart p P)).part p = P := fun b P => by simp
  have hmix : ∀ (t : State) (m : F32) (P : Part), ({ t.setPart p P with mix := m }).part p = P := fun t m P =>
    part_setPart_self t p P
  cases hm : (s.part p).mute
  · have h1 : ∀ (b : Bool) (P : Part) (acc : F32), P.mute = false → mixPart acc p (raiseVFault b (s.setPart p P)) =
        { (raiseVFault b (s.setPart p P)).setPart p { P with peak := fmax P.peak (fabs acc) } with
          mix := fadd s.mix acc } := fun b P acc hP => by
      simp only [mixPart, hpart, hP]; rfl
    simp only [tick]
    rw [h1 _ _ _ (by simpa using hm)]
    simp only [hmix]
    simp only [live_mapSlots]
    simp [State.setPart, complete, raiseVFault, Part.mapSlots, Part.active, mapVec_mapVec, tickSlots, tickVoice]
  · have h1 : ∀ (b : Bool) (P : Part) (acc : F32), P.mute = true → mixPart acc p (raiseVFault b (s.setPart p P)) =
        raiseVFault b (s.setPart p P) := fun b P acc hP => by
      simp only [mixPart, hpart, hP]; rfl
    simp only [tick]
    rw [h1 _ _ _ (by simpa using hm)]
    simp only [hpart, live_mapSlots, part_setPart_self]
    simp [State.setPart, complete, raiseVFault, Part.mapSlots, Part.active, mapVec_mapVec, tickSlots, tickVoice]

end Sys2Proof.Machine
end

