-- ==== Sys2Proof/Laws/Memory.lean ====
section
/-! SUPPORT. The laws of memory: a read after a write, and every memory operation keeps the canonical form. -/

namespace Sys2Proof.Machine

@[simp] theorem Memory.read_nil (a : Nat) : Memory.read [] a = Memory.unlisted := rfl

theorem Memory.read_cons (c : Host.Cell) (m : Memory) (a : Nat) :
    Memory.read (c :: m) a = if c.1 = a then c.2 else Memory.read m a := rfl

/-- An address below every listed one reads as unlisted. -/
theorem Memory.read_of_lt {m : Memory} {a : Nat} (h : ∀ c ∈ m, a < c.1) : Memory.read m a = Memory.unlisted := by
  induction m with
  | nil => rfl
  | cons c m ih =>
    have hc := h c (by simp)
    rw [Memory.read_cons, if_neg (by omega), ih fun x hx => h x (by simp [hx])]

/-- A listed byte is what its address reads as. -/
theorem Memory.read_of_mem {m : Memory} (hm : Memory.wf m) {c : Host.Cell} (hc : c ∈ m) :
    Memory.read m c.1 = c.2 := by
  induction m with
  | nil => simp at hc
  | cons d m ih =>
    obtain ⟨hp, hv⟩ := hm
    rw [List.pairwise_cons] at hp
    rw [Memory.read_cons]
    rcases List.mem_cons.mp hc with rfl | hc
    · simp
    · rw [if_neg (by have := hp.1 c hc; omega)]
      exact ih ⟨hp.2, fun x hx => hv x (by simp [hx])⟩ hc

/-- An address that reads as something else than an unlisted one is listed. -/
theorem Memory.mem_of_read {m : Memory} {a : Nat} (h : Memory.read m a ≠ Memory.unlisted) :
    (a, Memory.read m a) ∈ m := by
  induction m with
  | nil => simp at h
  | cons c m ih =>
    rw [Memory.read_cons] at h ⊢
    split at h
    · rename_i hc
      simp [← hc]
    · rename_i hc
      rw [if_neg hc]
      exact List.mem_cons_of_mem _ (ih h)

/-- What a write lists: the byte written, and bytes that were listed. -/
theorem Memory.mem_write {m : Memory} {a : Nat} {b : Byte} {c : Host.Cell} (h : c ∈ Memory.write m a b) :
    (c = (a, b) ∧ b ≠ Memory.unlisted) ∨ c ∈ m := by
  induction m with
  | nil =>
    simp only [Memory.write] at h
    split at h <;> simp_all
  | cons d m ih =>
    simp only [Memory.write] at h
    split at h
    · split at h
      · exact .inr h
      · rcases List.mem_cons.mp h with rfl | h
        · exact .inl ⟨rfl, ‹_›⟩
        · exact .inr h
    · split at h
      · split at h
        · exact .inr (List.mem_cons_of_mem _ h)
        · rcases List.mem_cons.mp h with rfl | h
          · exact .inl ⟨rfl, ‹_›⟩
          · exact .inr (List.mem_cons_of_mem _ h)
      · rcases List.mem_cons.mp h with rfl | h
        · exact .inr (by simp)
        · exact (ih h).imp id (List.mem_cons_of_mem _)

/-- A write keeps the canonical form. -/
theorem Memory.write_wf {m : Memory} (hm : Memory.wf m) (a : Nat) (b : Byte) : Memory.wf (Memory.write m a b) := by
  refine ⟨?_, fun c hc => ?_⟩
  · obtain ⟨hp, -⟩ := hm
    induction m with
    | nil => simp only [Memory.write]; split <;> simp
    | cons d m ih =>
      rw [List.pairwise_cons] at hp
      simp only [Memory.write]
      split
      · split
        · exact List.pairwise_cons.mpr hp
        · refine List.pairwise_cons.mpr ⟨fun x hx => ?_, List.pairwise_cons.mpr hp⟩
          rcases List.mem_cons.mp hx with rfl | hx
          · assumption
          · have := hp.1 x hx; simp only; omega
      · split
        · rename_i h1 h2
          split
          · exact hp.2
          · exact List.pairwise_cons.mpr ⟨fun x hx => by have := hp.1 x hx; simp only; omega, hp.2⟩
        · refine List.pairwise_cons.mpr ⟨fun x hx => ?_, ih hp.2⟩
          rcases Memory.mem_write hx with ⟨rfl, -⟩ | hx
          · simp only; omega
          · exact hp.1 x hx
  · rcases Memory.mem_write hc with ⟨rfl, hb⟩ | hc
    · exact hb
    · exact hm.2 c hc

/-- A read after a write: the byte written at its address, and every other address as before. -/
theorem Memory.read_write {m : Memory} (hm : Memory.wf m) (a : Nat) (b : Byte) (x : Nat) :
    Memory.read (Memory.write m a b) x = if x = a then b else Memory.read m x := by
  obtain ⟨hp, -⟩ := hm
  induction m with
  | nil =>
    simp only [Memory.write]
    by_cases hb : b = Memory.unlisted
    · simp [hb]
    · rw [if_neg hb, Memory.read_cons]
      simp [eq_comm]
  | cons d m ih =>
    rw [List.pairwise_cons] at hp
    simp only [Memory.write]
    split
    · rename_i hlt
      have hbelow : Memory.read (d :: m) a = Memory.unlisted :=
        Memory.read_of_lt fun c hc => by
          rcases List.mem_cons.mp hc with rfl | hc
          · exact hlt
          · have := hp.1 c hc; omega
      split
      · rename_i hb
        split
        · rename_i hx; rw [hx, hbelow, hb]
        · rfl
      · rw [Memory.read_cons]
        simp [eq_comm]
    · split
      · rename_i h1 h2
        have hnext : Memory.read m a = Memory.unlisted :=
          Memory.read_of_lt fun c hc => by have := hp.1 c hc; omega
        split
        · rename_i hb
          rw [Memory.read_cons]
          by_cases hx : x = a
          · rw [if_pos hx, hx, hnext, hb]
          · rw [if_neg hx, if_neg (by omega)]
        · rw [Memory.read_cons, Memory.read_cons]
          by_cases hx : x = a
          · simp [hx]
          · rw [if_neg (fun h => hx h.symm), if_neg hx, if_neg (by omega)]
      · rename_i h1 h2
        rw [Memory.read_cons, Memory.read_cons, ih hp.2]
        by_cases hd : d.1 = x
        · rw [if_pos hd, if_pos hd, if_neg (by omega)]
        · rw [if_neg hd, if_neg hd]

theorem Memory.foldl_write_wf (cells : List Host.Cell) :
    ∀ {m : Memory}, Memory.wf m → Memory.wf (cells.foldl (fun m c => Memory.write m c.1 c.2) m) := by
  induction cells with
  | nil => exact fun hm => hm
  | cons c cells ih => exact fun hm => ih (Memory.write_wf hm c.1 c.2)

/-- A memory made from a list of bytes is canonical. -/
theorem Memory.ofCells_wf (cells : List Host.Cell) : Memory.wf (Memory.ofCells cells) :=
  Memory.foldl_write_wf cells ⟨List.Pairwise.nil, by simp⟩

/-- The descrambled image is canonical, whatever the raw one is. -/
theorem descramble_wf (c : Cfg) (raw : Memory) : Memory.wf (descramble c raw) := Memory.ofCells_wf _

/-- The image of a state right after a committed or aborted load is the canonical one it was given, or empty. -/
theorem reset_plain_wf : Memory.wf State.reset.plain := ⟨List.Pairwise.nil, by simp [State.reset]⟩

end Sys2Proof.Machine
end

