-- ==== Sys2Proof/Laws/Decoder.lean ====
section
/-! SUPPORT. What each stage of DEC_START can answer, said once (rules R102 to R110). -/

namespace Sys2Proof.Machine

/-- A load that succeeds passed every stage, and yields what they gave (rule R102). -/
theorem load_ok {c : Cfg} {entries : List RomEntry} {records : List SampleMeta} {g : Fin Config.numGens} {l : Loaded}
    (h : load c entries records g = .ok l) :
    ∃ files, validateInputs entries = .ok (files, l.nbanks) ∧ l.plain = descramble c (rawImage files) ∧
      l.version = readVersion l.plain ∧ l.date = readDate l.plain ∧ decodeAll c l.plain l.nbanks g records = .ok l.ss := by
  unfold load at h
  split at h
  · cases h
  · rename_i files nb hv
    dsimp only at h
    split at h
    · cases h
    · rename_i ss hss
      cases h
      exact ⟨files, hv, rfl, rfl, rfl, hss⟩

/-- Inputs that pass validation: there are some, each file passes its checks, and the number of banks is in range
(rule R103). -/
theorem validateInputs_ok {entries : List RomEntry} {files : List RomFile} {nb : Nat}
    (h : validateInputs entries = .ok (files, nb)) :
    entries ≠ [] ∧ checkFiles entries = .ok files ∧ nb = imageSize files / Config.bankSize ∧ 0 < nb ∧
      nb ≤ Config.maxBanks := by
  unfold validateInputs at h
  split at h
  · cases h
  · rename_i hne
    split at h
    · cases h
    · rename_i fs hc
      dsimp only at h
      split at h
      · cases h
      · rename_i hnb
        cases h
        rw [not_or, Nat.not_lt] at hnb
        exact ⟨hne, hc, rfl, Nat.pos_of_ne_zero hnb.1, hnb.2⟩

/-- Files that pass their checks are the readable contents of the entries, each a whole number of banks (rule R103). -/
theorem checkFiles_ok {entries : List RomEntry} {files : List RomFile} (h : checkFiles entries = .ok files) :
    entries = files.map .file ∧ ∀ f ∈ files, f.size % Config.bankSize = 0 := by
  induction entries generalizing files with
  | nil => cases h; simp
  | cons e rest ih =>
    cases e with
    | unreadable => cases h
    | file f =>
      simp only [checkFiles] at h
      split at h
      · split at h
        · rename_i hs fs hfs
          cases h
          obtain ⟨he, hall⟩ := ih hfs
          exact ⟨by rw [he]; rfl, fun x hx => by
            rcases List.mem_cons.mp hx with rfl | hx
            · assumption
            · exact hall x hx⟩
        · cases h
      · cases h

/-- The table of a successful decode has one entry for each record, in order (rule R106). -/
theorem decodeAll_ok {c : Cfg} {plain : Memory} {nb : Nat} {g : Fin Config.numGens} {records : List SampleMeta}
    {ss : List SampleSet} (h : decodeAll c plain nb g records = .ok ss) :
    List.Forall₂ (fun m e => decodeOne c plain nb g m = .ok e) records ss := by
  induction records generalizing ss with
  | nil => cases h; exact .nil
  | cons m rest ih =>
    simp only [decodeAll] at h
    split at h
    · cases h
    · split at h
      · rename_i hm _ es hes
        cases h
        exact .cons hm (ih hes)
      · cases h

/-- A record that decodes: its bank id resolves, its positions are inside the image, and a ping-pong record is
unwrapped (rules R106, R107, R110). -/
theorem decodeOne_ok {c : Cfg} {plain : Memory} {nb : Nat} {g : Fin Config.numGens} {m : SampleMeta} {e : SampleSet}
    (h : decodeOne c plain nb g m = .ok e) :
    ∃ r w, bankResolve c m.addr g = some r ∧ dpcmDecode plain (Config.bankSize * nb) r m.sampleLength = .ok w ∧
      ((m.loopMode = 1 ∧ pingpongUnwrap w m = .ok e) ∨
        (m.loopMode ≠ 1 ∧ e = ⟨w, m.sampleLength, m.loopStart, m.loopLength, m.loopMode⟩)) := by
  unfold decodeOne at h
  split at h
  · cases h
  · rename_i r hr
    split at h
    · cases h
    · rename_i w hw
      split at h
      · exact ⟨r, w, hr, hw, .inl ⟨‹_›, h⟩⟩
      · cases h
        exact ⟨r, w, hr, hw, .inr ⟨‹_›, rfl⟩⟩

/-- The bank and the bank offset of the companion address (rule R62). -/
theorem companionAddr_toNat (a : BitVec 32) :
    (companionAddr a).toNat = a.toNat / 2 ^ 20 * 2 ^ 20 + a.toNat % 2 ^ 20 / 2 ^ 5 := by
  have ha := a.isLt
  have hoff : (a &&& 0x000FFFFF#32).toNat = a.toNat % 2 ^ 20 := by
    rw [BitVec.toNat_and]; exact Nat.and_two_pow_sub_one_eq_mod a.toNat 20
  have hmask : ∀ i : Fin 32, (0xFFF00000#32).getLsbD i.val = decide (20 ≤ i.val) := by decide
  have hbank : a &&& 0xFFF00000#32 = (a >>> 20) <<< 20 := by
    ext i hi
    simp only [BitVec.getElem_and, BitVec.getElem_shiftLeft]
    rw [← BitVec.getLsbD_eq_getElem, ← BitVec.getLsbD_eq_getElem, hmask ⟨i, hi⟩]
    by_cases h : 20 ≤ i
    · simp [h, show ¬ i < 20 by omega, show 20 + (i - 20) = i by omega]
    · simp [h, show i < 20 by omega]
  have hbase : (a &&& 0xFFF00000#32).toNat = 2 ^ 20 * (a.toNat / 2 ^ 20) := by
    rw [hbank, BitVec.toNat_shiftLeft, BitVec.toNat_ushiftRight, Nat.shiftRight_eq_div_pow, Nat.shiftLeft_eq]; omega
  change ((a &&& 0x000FFFFF#32) >>> 5 ||| a &&& 0xFFF00000#32).toNat = _
  rw [BitVec.toNat_or, BitVec.toNat_ushiftRight, Nat.shiftRight_eq_div_pow, hoff, Nat.or_comm, hbase,
    ← Nat.two_pow_add_eq_or_of_lt (by omega)]
  omega

/-- One position of a DPCM decode that succeeds: it is inside the image, and the rest follows from its value (rule
R107). -/
theorem dpcmFrom_succ_ok {plain : Memory} {size count a : Nat} {x : F32} {ws : List F32}
    (h : dpcmFrom plain size (count + 1) a x = .ok ws) :
    a < size ∧ ∃ rest, ws = fadd x (deltaAt plain (BitVec.ofNat 32 a)) :: rest ∧
      dpcmFrom plain size count (a + 1) (fadd x (deltaAt plain (BitVec.ofNat 32 a))) = .ok rest := by
  simp only [dpcmFrom] at h
  split at h
  · cases h
  · split at h
    · rename_i hlt rest hrest
      cases h
      exact ⟨by omega, rest, rfl, hrest⟩
    · cases h

/-- A DPCM decode yields one value for each position (rule R107). -/
theorem dpcmFrom_length {plain : Memory} {size count a : Nat} {x : F32} {ws : List F32}
    (h : dpcmFrom plain size count a x = .ok ws) : ws.length = count := by
  induction count generalizing a x ws with
  | zero => cases h; rfl
  | succ count ih =>
    obtain ⟨-, rest, rfl, hrest⟩ := dpcmFrom_succ_ok h
    simp [ih hrest]

/-- A ping-pong record that unwraps (rule R110). -/
theorem pingpongUnwrap_ok {w : List F32} {m : SampleMeta} {e : SampleSet} (h : pingpongUnwrap w m = .ok e) :
    m.loopLength.toNat ≤ m.sampleLength.toNat ∧ m.sampleLength.toNat + m.loopLength.toNat + 1 < 2 ^ 32 ∧
      e.w = w ++ (List.range (m.loopLength.toNat + 1)).map (fun i => fneg (w.getD (m.sampleLength.toNat - i) F32.zero)) ∧
      e.sampleLength = BitVec.ofNat 32 (m.sampleLength.toNat + m.loopLength.toNat + 1) ∧
      e.loopStart = m.loopStart ∧ e.loopLength = BitVec.ofNat 32 (2 * m.loopLength.toNat + 1) ∧ e.loopMode = 0 := by
  simp only [pingpongUnwrap] at h
  split at h
  · cases h
  · split at h
    · cases h
    · cases h
      exact ⟨by omega, by omega, rfl, rfl, rfl, rfl, rfl⟩

end Sys2Proof.Machine
end

