-- ==== Sys2Proof/Laws/Encoding.lean ====
section
/-! SUPPORT. The fields of an encoded command, and what decoding a word can answer, format by format. -/

namespace Sys2Proof

/-- The opcode field of an encoded command is its opcode. -/
@[simp] theorem opField_encode (i : Instr) : opField (encode i) = i.opcode :=
  BitVec.extractLsb'_append_eq_left

/-- The low 24 bits of an encoded command are its operand bits. -/
@[simp] theorem immField_encode (i : Instr) : immField (encode i) = i.operandBits :=
  BitVec.extractLsb'_append_eq_right

/-- A word is its opcode field followed by its low 24 bits. -/
theorem opField_append_immField (w : Word) : opField w ++ immField w = w := by
  apply BitVec.eq_of_getLsbD_eq
  intro j hj
  simp only [opField, immField, BitVec.getLsbD_append, BitVec.getLsbD_extractLsb']
  by_cases h : j < 24
  · simp [h]
  · have : 24 + (j - 24) = j := by omega
    have h2 : j - 24 < 8 := by omega
    simp [h, h2, this]

/-- Putting the four carried bytes of a word together gives the word back (rule R52). -/
theorem wordOfBytes_byteOfWord (w : Word) :
    wordOfBytes (byteOfWord w 0) (byteOfWord w 1) (byteOfWord w 2) (byteOfWord w 3) = w := by
  apply BitVec.eq_of_getLsbD_eq
  intro j hj
  simp only [wordOfBytes, byteOfWord, BitVec.getLsbD_append, BitVec.getLsbD_extractLsb']
  by_cases h0 : j < 8
  · simp [h0]
  by_cases h1 : j - 8 < 8
  · have e : 8 * 1 + (j - 8) = j := by omega
    simp only [h0, h1, e, if_false, if_true, decide_true, Bool.true_and]
  by_cases h2 : j - 8 - 8 < 8
  · have e : 8 * 2 + (j - 8 - 8) = j := by omega
    simp only [h0, h1, h2, e, if_false, if_true, decide_true, Bool.true_and]
  · have e : 8 * 3 + (j - 8 - 8 - 8) = j := by omega
    have h3 : j - 8 - 8 - 8 < 8 := by omega
    simp only [h0, h1, h2, h3, e, if_false, decide_true, Bool.true_and]

/-- What format N answers when it answers a command. -/
theorem decodeN_ok {op : Byte} {imm : BitVec 24} {i j : Instr} (h : decodeN op imm i = .ok j) : imm = 0 ∧ j = i := by
  unfold decodeN at h
  split at h
  · exact ⟨‹_›, by simpa using h.symm⟩
  · cases h

/-- What format D answers when it answers a command. -/
theorem decodeD_ok {op : Byte} {imm : BitVec 24} {n : Nat} {f : BitVec n → Instr} {j : Instr}
    (h : decodeD op imm n f = .ok j) : imm.extractLsb' n (24 - n) = 0 ∧ j = f (imm.extractLsb' 0 n) := by
  unfold decodeD at h
  split at h
  · exact ⟨‹_›, by simpa using h.symm⟩
  · cases h

/-- What format P answers when it answers a command. -/
theorem decodeP_ok {op : Byte} {imm : BitVec 24} {f : PartIx → Byte → Byte → Instr} {j : Instr}
    (h : decodeP op imm f = .ok j) :
    reservedField imm = 0 ∧ ∃ p : PartIx, p.val = (partField imm).toNat ∧ j = f p (aField imm) (bField imm) := by
  unfold decodeP at h
  split at h
  · split at h
    · exact ⟨‹_›, _, rfl, by simpa using h.symm⟩
    · cases h
  · cases h

end Sys2Proof
end

