-- ==== Sys2Proof/Laws/Float.lean ====
section
/-! SUPPORT. What rounding does, said once: against every representable bound, `roundMag` keeps the order, and it
rounds to nearest, ties to even (`roundMag_nearest`, `roundsTo_fpack`). Exactness, monotonicity, range and rounding facts of
the binary32 operations follow from these lemmas. -/

namespace Sys2Proof.Machine

/-- The units of 2^-149 of a magnitude encoding. -/
def magUnits (e : Nat) : Nat :=
  if e / 2 ^ 23 = 0 then e % 2 ^ 23 else (2 ^ 23 + e % 2 ^ 23) * 2 ^ (e / 2 ^ 23 - 1)

theorem funits_eq (x : F32) : funits x = magUnits (fmag x) := rfl

/-- Below 2^24 an encoding is its own number of units. -/
theorem magUnits_small {e : Nat} (h : e < 2 ^ 24) : magUnits e = e := by
  unfold magUnits
  split
  · omega
  · have : e / 2 ^ 23 = 1 := by omega
    rw [this]; simp; omega

/-- From 2^24 on, an encoding has an exponent of at least 2. -/
theorem magUnits_large {e : Nat} (h : 2 ^ 24 ≤ e) :
    magUnits e = (2 ^ 23 + e % 2 ^ 23) * 2 ^ (e / 2 ^ 23 - 1) := by
  unfold magUnits
  rw [if_neg (by omega)]

/-- What the parts of `roundMag` are: the rounded quotient, its exponent, and the encoding they make. -/
theorem roundMag_parts (num den : Nat) (hd : 0 < den) :
    ∃ s k k' : Nat, roundMag num den = min (s * 2 ^ 23 + k') infMag ∧ k = num / (den * 2 ^ s) ∧
      k ≤ k' ∧ k' ≤ k + 1 ∧ (num = den * 2 ^ s * k → k' = k) ∧ k < 2 ^ 24 ∧
      (s = 0 ∨ 2 ^ 23 ≤ k) ∧ s = Nat.log2 (num / den) - 23 := by
  have hpos : 0 < den * 2 ^ (Nat.log2 (num / den) - 23) := Nat.mul_pos hd (Nat.two_pow_pos _)
  refine ⟨Nat.log2 (num / den) - 23, num / (den * 2 ^ (Nat.log2 (num / den) - 23)), _, rfl, rfl, ?_, ?_, ?_, ?_, ?_, rfl⟩
  · split <;> omega
  · split <;> omega
  · intro hexact
    have hr : num % (den * 2 ^ (Nat.log2 (num / den) - 23)) = 0 :=
      Nat.mod_eq_zero_of_dvd ⟨_, hexact⟩
    rw [if_neg (by rw [hr]; omega)]
  · rw [← Nat.div_div_eq_div_mul, Nat.div_lt_iff_lt_mul (Nat.two_pow_pos _), ← pow_add]
    rcases Nat.eq_zero_or_pos (num / den) with h0 | h0
    · rw [h0]; exact Nat.two_pow_pos _
    · exact lt_of_lt_of_le Nat.lt_log2_self (Nat.pow_le_pow_right (by omega) (by omega))
  · by_cases hs : Nat.log2 (num / den) - 23 = 0
    · exact .inl hs
    · right
      rw [← Nat.div_div_eq_div_mul, Nat.le_div_iff_mul_le (Nat.two_pow_pos _), ← pow_add]
      have h0 : num / den ≠ 0 := by intro h; rw [h] at hs; simp at hs
      exact le_trans (Nat.pow_le_pow_right (by omega) (by omega)) (Nat.log2_self_le h0)

theorem roundMag_le_inf (num den : Nat) : roundMag num den ≤ infMag := Nat.min_le_right _ _

/-- A ratio of at most a representable value rounds to at most that value. -/
theorem roundMag_le {num den e : Nat} (hd : 0 < den) (h : num ≤ magUnits e * den) : roundMag num den ≤ e := by
  obtain ⟨s, k, k', hr, hk, hkk', hk1, hex, hk24, hs, hsl⟩ := roundMag_parts num den hd
  rw [hr]
  refine le_trans (Nat.min_le_left _ _) ?_
  have hds : 0 < den * 2 ^ s := Nat.mul_pos hd (Nat.two_pow_pos _)
  -- a bound on the quotient at the step's own exponent bounds the rounded quotient
  have key : ∀ b : Nat, num ≤ b * (den * 2 ^ s) → k' ≤ b := by
    intro b hb
    have hkb : k ≤ b := by rw [hk]; exact Nat.div_le_of_le_mul (by rw [Nat.mul_comm]; exact hb)
    rcases Nat.lt_or_ge k b with hlt | hge
    · omega
    · have hkeq : k = b := by omega
      have hle : den * 2 ^ s * k ≤ num := by rw [hk]; exact Nat.mul_div_le num _
      have : num = den * 2 ^ s * k := by
        refine le_antisymm ?_ hle
        rw [hkeq, Nat.mul_comm]; exact hb
      rw [hex this]; omega
  rcases Nat.lt_or_ge e (2 ^ 24) with he | he
  · rw [magUnits_small he] at h
    have hq : num / den < 2 ^ 24 := lt_of_le_of_lt (Nat.div_le_of_le_mul (by rw [Nat.mul_comm]; exact h)) he
    have hs0 : s = 0 := by
      rw [hsl]
      rcases Nat.eq_zero_or_pos (num / den) with h0 | h0
      · rw [h0]; simp
      · have : Nat.log2 (num / den) < 24 := (Nat.log2_lt (by omega)).mpr hq
        omega
    subst hs0
    have := key e (by simpa using h)
    omega
  · rw [magUnits_large he] at h
    have he1 : e = e / 2 ^ 23 * 2 ^ 23 + e % 2 ^ 23 := by omega
    have he2 : 2 ≤ e / 2 ^ 23 := by omega
    by_cases hs0 : s = 0
    · subst hs0; omega
    have hq0 : num / den ≠ 0 := by intro h0; rw [h0] at hsl; simp at hsl; omega
    have hqlow : 2 ^ (s + 23) ≤ num / den :=
      le_trans (Nat.pow_le_pow_right (by omega) (by omega)) (Nat.log2_self_le hq0)
    have hqhigh : num / den ≤ (2 ^ 23 + e % 2 ^ 23) * 2 ^ (e / 2 ^ 23 - 1) :=
      Nat.div_le_of_le_mul (by rw [Nat.mul_comm]; exact h)
    have hlt : 2 ^ (s + 23) < 2 ^ (e / 2 ^ 23 + 23) := by
      refine lt_of_le_of_lt hqlow (lt_of_le_of_lt hqhigh ?_)
      calc (2 ^ 23 + e % 2 ^ 23) * 2 ^ (e / 2 ^ 23 - 1)
          < 2 ^ 24 * 2 ^ (e / 2 ^ 23 - 1) :=
            Nat.mul_lt_mul_of_pos_right (by omega) (Nat.two_pow_pos _)
        _ = 2 ^ (e / 2 ^ 23 + 23) := by rw [← pow_add]; congr 1; omega
    have hse : s < e / 2 ^ 23 := by
      have := (Nat.pow_lt_pow_iff_right (by omega : 1 < 2)).mp hlt
      omega
    by_cases hs1 : s = e / 2 ^ 23 - 1
    · have := key (2 ^ 23 + e % 2 ^ 23) (by rw [hs1]; calc
          num ≤ (2 ^ 23 + e % 2 ^ 23) * 2 ^ (e / 2 ^ 23 - 1) * den := h
          _ = (2 ^ 23 + e % 2 ^ 23) * (den * 2 ^ (e / 2 ^ 23 - 1)) := by ring)
      omega
    · omega

/-- A ratio of at least a representable value rounds to at least that value. -/
theorem le_roundMag {num den e : Nat} (hd : 0 < den) (he : e ≤ infMag) (h : magUnits e * den ≤ num) :
    e ≤ roundMag num den := by
  obtain ⟨s, k, k', hr, hk, hkk', hk1, hex, hk24, hs, hsl⟩ := roundMag_parts num den hd
  rw [hr]
  refine le_min ?_ he
  have hds : 0 < den * 2 ^ s := Nat.mul_pos hd (Nat.two_pow_pos _)
  rcases Nat.lt_or_ge e (2 ^ 24) with he | he
  · rw [magUnits_small he] at h
    rcases hs with hs | hs
    · subst hs
      have : e ≤ k := by rw [hk]; exact (Nat.le_div_iff_mul_le hds).mpr (by simpa using h)
      omega
    · by_cases hs0 : s = 0
      · subst hs0
        have : e ≤ k := by rw [hk]; exact (Nat.le_div_iff_mul_le hds).mpr (by simpa using h)
        omega
      · have : 2 ^ 23 ≤ s * 2 ^ 23 := Nat.le_mul_of_pos_left _ (by omega)
        omega
  · rw [magUnits_large he] at h
    have hq : (2 ^ 23 + e % 2 ^ 23) * 2 ^ (e / 2 ^ 23 - 1) ≤ num / den := (Nat.le_div_iff_mul_le hd).mpr h
    have hlow : 2 ^ (e / 2 ^ 23 + 22) ≤ num / den := by
      refine le_trans ?_ hq
      calc 2 ^ (e / 2 ^ 23 + 22) = 2 ^ 23 * 2 ^ (e / 2 ^ 23 - 1) := by rw [← pow_add]; congr 1; omega
        _ ≤ (2 ^ 23 + e % 2 ^ 23) * 2 ^ (e / 2 ^ 23 - 1) := Nat.mul_le_mul_right _ (by omega)
    have hq0 : num / den ≠ 0 := by have := Nat.two_pow_pos (e / 2 ^ 23 + 22); omega
    have hlog : e / 2 ^ 23 + 22 ≤ Nat.log2 (num / den) := (Nat.le_log2 hq0).mpr hlow
    have hse : e / 2 ^ 23 - 1 ≤ s := by omega
    by_cases hs1 : s = e / 2 ^ 23 - 1
    · have : 2 ^ 23 + e % 2 ^ 23 ≤ k := by
        rw [hk, Nat.le_div_iff_mul_le hds, hs1]
        calc (2 ^ 23 + e % 2 ^ 23) * (den * 2 ^ (e / 2 ^ 23 - 1))
            = (2 ^ 23 + e % 2 ^ 23) * 2 ^ (e / 2 ^ 23 - 1) * den := by ring
          _ ≤ num := h
      have : s * 2 ^ 23 = (e / 2 ^ 23) * 2 ^ 23 - 2 ^ 23 := by rw [hs1, Nat.sub_mul]; omega
      omega
    · have hge : e / 2 ^ 23 ≤ s := by omega
      have hk23 : 2 ^ 23 ≤ k := by
        rcases hs with hs | hs
        · omega
        · exact hs
      have : e / 2 ^ 23 * 2 ^ 23 ≤ s * 2 ^ 23 := Nat.mul_le_mul_right _ hge
      omega

/-- A representable value rounds to itself. -/
theorem roundMag_exact {den e : Nat} (hd : 0 < den) (he : e ≤ infMag) : roundMag (magUnits e * den) den = e :=
  le_antisymm (roundMag_le hd le_rfl) (le_roundMag hd he le_rfl)

/-- A whole number below 2^24, times a power of two that stays in range, is representable. -/
theorem exists_magUnits_eq {n k : Nat} (hn : n < 2 ^ 24) (hk : k ≤ 229) : ∃ e < infMag, magUnits e = n * 2 ^ k := by
  rcases Nat.eq_zero_or_pos n with rfl | h0
  · exact ⟨0, by decide, by rw [Nat.zero_mul]; rfl⟩
  have hlog := Nat.log2_self_le (show n ≠ 0 by omega)
  have hlog' := Nat.lt_log2_self (n := n)
  have hl : Nat.log2 n < 24 := (Nat.log2_lt (by omega)).mpr hn
  generalize Nat.log2 n = l at *
  by_cases hs : l + k < 24
  · have hlt : n * 2 ^ k < 2 ^ 24 := by
      calc n * 2 ^ k < 2 ^ (l + 1) * 2 ^ k := Nat.mul_lt_mul_of_pos_right hlog' (Nat.two_pow_pos _)
        _ = 2 ^ (l + 1 + k) := (pow_add ..).symm
        _ ≤ 2 ^ 24 := Nat.pow_le_pow_right (by omega) (by omega)
    exact ⟨n * 2 ^ k, lt_trans hlt (by decide), magUnits_small hlt⟩
  · -- the significand n * 2^(23 - l) has its leading bit at 23, and the exponent makes up the difference
    have e1 : 2 ^ 23 = 2 ^ l * 2 ^ (23 - l) := by rw [← pow_add]; congr 1; omega
    have e2 : 2 ^ 24 = 2 ^ (l + 1) * 2 ^ (23 - l) := by rw [← pow_add]; congr 1; omega
    have b1 : 2 ^ 23 ≤ n * 2 ^ (23 - l) := by rw [e1]; exact Nat.mul_le_mul_right _ hlog
    have b2 : n * 2 ^ (23 - l) < 2 ^ 24 := by rw [e2]; exact Nat.mul_lt_mul_of_pos_right hlog' (Nat.two_pow_pos _)
    generalize hm : n * 2 ^ (23 - l) = m at *
    refine ⟨(l + k - 22) * 2 ^ 23 + (m - 2 ^ 23), by unfold infMag; omega, ?_⟩
    rw [magUnits_large (by omega), show ((l + k - 22) * 2 ^ 23 + (m - 2 ^ 23)) / 2 ^ 23 = l + k - 22 by omega,
      show ((l + k - 22) * 2 ^ 23 + (m - 2 ^ 23)) % 2 ^ 23 = m - 2 ^ 23 by omega, Nat.add_sub_cancel' b1, ← hm,
      Nat.mul_assoc, ← pow_add]
    congr 2; omega

/-- The value of an encoding put together from an exponent and a significand of at most 24 bits. -/
theorem magUnits_scale {s k : Nat} (hk : k ≤ 2 ^ 24) (hs : s = 0 ∨ 2 ^ 23 ≤ k) :
    magUnits (s * 2 ^ 23 + k) = k * 2 ^ s := by
  rcases Nat.lt_or_ge (s * 2 ^ 23 + k) (2 ^ 24) with h | h
  · rcases Nat.eq_zero_or_pos s with rfl | h0
    · rw [magUnits_small h]; omega
    · omega
  · rw [magUnits_large h]
    rcases Nat.lt_or_ge k (2 ^ 24) with hlt | hge
    · have hk23 : 2 ^ 23 ≤ k := by omega
      rw [show (s * 2 ^ 23 + k) / 2 ^ 23 = s + 1 by omega, show (s * 2 ^ 23 + k) % 2 ^ 23 = k - 2 ^ 23 by omega,
        Nat.add_sub_cancel' hk23, Nat.add_sub_cancel]
    · have hk24 : k = 2 ^ 24 := by omega
      rw [show (s * 2 ^ 23 + k) / 2 ^ 23 = s + 2 by omega, show (s * 2 ^ 23 + k) % 2 ^ 23 = 0 by omega, hk24,
        show s + 2 - 1 = 1 + s by omega, pow_add, ← Nat.mul_assoc]
      rfl

/-- An encoding of at least a given exponent is a multiple of that exponent's step; one below it is smaller than the
smallest of these. -/
theorem magUnits_step (s e : Nat) : (∃ j, magUnits e = j * 2 ^ s) ∨ (0 < s ∧ magUnits e < 2 ^ 23 * 2 ^ s) := by
  rcases Nat.eq_zero_or_pos s with rfl | hs
  · exact .inl ⟨magUnits e, by simp⟩
  rcases Nat.lt_or_ge e (2 ^ 24) with he | he
  · rw [magUnits_small he]
    by_cases h1 : e = 2 ^ 23 * 2 ^ s
    · exact .inl ⟨_, h1⟩
    · right
      have : 2 ^ 23 * 2 ^ 1 ≤ 2 ^ 23 * 2 ^ s := Nat.mul_le_mul_left _ (Nat.pow_le_pow_right (by omega) hs)
      exact ⟨hs, by omega⟩
  · rw [magUnits_large he]
    rcases Nat.lt_or_ge (e / 2 ^ 23 - 1) s with h | h
    · refine .inr ⟨hs, ?_⟩
      calc (2 ^ 23 + e % 2 ^ 23) * 2 ^ (e / 2 ^ 23 - 1) < 2 ^ 24 * 2 ^ (e / 2 ^ 23 - 1) :=
            Nat.mul_lt_mul_of_pos_right (by omega) (Nat.two_pow_pos _)
        _ = 2 ^ 23 * 2 ^ (e / 2 ^ 23 - 1 + 1) := by rw [pow_succ]; ring
        _ ≤ 2 ^ 23 * 2 ^ s := Nat.mul_le_mul_left _ (Nat.pow_le_pow_right (by omega) (by omega))
    · refine .inl ⟨(2 ^ 23 + e % 2 ^ 23) * 2 ^ (e / 2 ^ 23 - 1 - s), ?_⟩
      rw [Nat.mul_assoc, ← pow_add]; congr 2; omega

/-- What `roundMag` does with the quotient `k` and the remainder of the exact ratio by its own step `den * 2^s`: it takes
`k`, or `k + 1`, whichever is nearer, and the even one of two that are equally near. -/
theorem roundMag_quotient (num den : Nat) (hd : 0 < den) :
    ∃ s k k' rem : Nat, roundMag num den = min (s * 2 ^ 23 + k') infMag ∧ num = den * 2 ^ s * k + rem ∧
      rem < den * 2 ^ s ∧ k < 2 ^ 24 ∧ (s = 0 ∨ 2 ^ 23 ≤ k) ∧ s = Nat.log2 (num / den) - 23 ∧
      (k' = k ∧ 2 * rem ≤ den * 2 ^ s ∧ (2 * rem = den * 2 ^ s → k' % 2 = 0) ∨
        k' = k + 1 ∧ den * 2 ^ s ≤ 2 * rem ∧ (2 * rem = den * 2 ^ s → k' % 2 = 0)) := by
  obtain ⟨s, k, -, -, hk, -, -, -, hk24, hs, hsl⟩ := roundMag_parts num den hd
  have hpos : 0 < den * 2 ^ s := Nat.mul_pos hd (Nat.two_pow_pos _)
  subst hk hsl
  refine ⟨_, _, _, num % (den * 2 ^ (Nat.log2 (num / den) - 23)), rfl, (Nat.div_add_mod ..).symm, Nat.mod_lt _ hpos,
    hk24, hs, rfl, ?_⟩
  split <;> [right; left] <;> exact ⟨rfl, by omega, by omega⟩

/-- The nearer of the two multiples of a step around a number is at least as near as any multiple, and even on a tie. -/
theorem steps_nearest {num d k k' rem : Nat} (hnum : num = k * d + rem) (hrem : rem < d)
    (hk' : k' = k ∧ 2 * rem ≤ d ∧ (2 * rem = d → k' % 2 = 0) ∨ k' = k + 1 ∧ d ≤ 2 * rem ∧ (2 * rem = d → k' % 2 = 0))
    (j : Nat) :
    |((k' * d : Nat) - num : Int)| ≤ |((j * d : Nat) - num : Int)| ∧
      (j ≠ k' → |((j * d : Nat) - num : Int)| = |((k' * d : Nat) - num : Int)| → k' % 2 = 0) := by
  have hsucc : (k + 1) * d = k * d + d := Nat.succ_mul k d
  rcases Nat.lt_or_ge j (k + 1) with h | h
  · -- from below: j * d ≤ k * d
    have hj : j = k ∨ j * d + d ≤ k * d := by
      rcases Nat.lt_or_ge j k with h' | h'
      · right; rw [← Nat.succ_mul]; exact Nat.mul_le_mul_right _ h'
      · left; omega
    rcases hk' with ⟨rfl, h2, h3⟩ | ⟨rfl, h2, h3⟩ <;> rcases hj with rfl | hj <;>
      constructor <;> intros <;> simp only [abs_eq_max_neg] at * <;> omega
  · -- from above: (k + 1) * d ≤ j * d
    have hj : j = k + 1 ∨ (k + 1) * d + d ≤ j * d := by
      rcases Nat.lt_or_ge (k + 1) j with h' | h'
      · right; rw [← Nat.succ_mul]; exact Nat.mul_le_mul_right _ h'
      · left; omega
    rcases hk' with ⟨rfl, h2, h3⟩ | ⟨rfl, h2, h3⟩ <;> rcases hj with rfl | hj <;>
      constructor <;> intros <;> simp only [abs_eq_max_neg] at * <;> omega

/-- `roundMag` rounds to nearest, ties to even, and overflows where rule R10 says. -/
theorem roundMag_nearest (num den : Nat) (hd : 0 < den) :
    (num < 0x1FFFFFF * 2 ^ 252 * den → roundMag num den < infMag) ∧
    (0x1FFFFFF * 2 ^ 252 * den ≤ num → roundMag num den = infMag) ∧
    (roundMag num den < infMag → ∀ e < infMag,
      |((magUnits (roundMag num den) * den : Nat) - num : Int)| ≤ |((magUnits e * den : Nat) - num : Int)| ∧
      (magUnits e ≠ magUnits (roundMag num den) →
        |((magUnits e * den : Nat) - num : Int)| = |((magUnits (roundMag num den) * den : Nat) - num : Int)| →
        roundMag num den % 2 = 0)) := by
  obtain ⟨s, k, k', rem, hr, hnum, hrem, hk, hs, hsl, hk'⟩ := roundMag_quotient num den hd
  have hi : infMag = 255 * 2 ^ 23 := rfl
  have hk'le : k' ≤ 2 ^ 24 := by omega
  refine ⟨fun hlt => ?_, fun hge => ?_, fun hfin e he => ?_⟩
  · have hs253 : s ≤ 253 := by
      have hq : num / den < 2 ^ 25 * 2 ^ 252 := by
        rw [Nat.div_lt_iff_lt_mul hd]
        exact lt_trans hlt (Nat.mul_lt_mul_of_pos_right (Nat.mul_lt_mul_of_pos_right (by decide) (Nat.two_pow_pos _)) hd)
      rw [← pow_add] at hq
      rcases Nat.eq_zero_or_pos (num / den) with h0 | h0
      · rw [hsl, h0]; simp
      · have := (Nat.log2_lt (by omega)).mpr hq; omega
    rw [hr, hi]
    refine lt_of_le_of_lt (Nat.min_le_left _ _) ?_
    rcases Nat.lt_or_ge s 253 with h | h
    · omega
    · have h253 : s = 253 := by omega
      subst h253
      have : den * 2 ^ 253 = 2 * (2 ^ 252 * den) := by
        rw [Nat.mul_comm, show 2 ^ 253 = 2 * 2 ^ 252 from rfl, Nat.mul_assoc]
      rw [Nat.mul_assoc] at hlt
      rw [this] at hnum hk'
      generalize 2 ^ 252 * den = u at *
      by_cases hkk : k = 2 ^ 24 - 1
      · subst hkk; omega
      · omega
  · have hs253 : 253 ≤ s := by
      have hq : 2 ^ 24 * 2 ^ 252 ≤ num / den := by
        rw [Nat.le_div_iff_mul_le hd]
        exact le_trans (Nat.mul_le_mul_right _ (Nat.mul_le_mul_right _ (by decide))) hge
      rw [← pow_add] at hq
      have h0 : num / den ≠ 0 := by have := Nat.two_pow_pos (24 + 252); omega
      have := (Nat.le_log2 h0).mpr hq; omega
    rw [hr, hi]
    refine Nat.min_eq_right ?_
    have hk23 : 2 ^ 23 ≤ k := by omega
    rcases Nat.lt_or_ge 253 s with h | h
    · omega
    · have h253 : s = 253 := by omega
      subst h253
      have : den * 2 ^ 253 = 2 * (2 ^ 252 * den) := by
        rw [Nat.mul_comm, show 2 ^ 253 = 2 * 2 ^ 252 from rfl, Nat.mul_assoc]
      rw [Nat.mul_assoc] at hge
      rw [this] at hnum hk' hrem
      generalize 2 ^ 252 * den = u at *
      have hkk : k = 2 ^ 24 - 1 := by
        by_contra hne
        have : k ≤ 2 ^ 24 - 2 := by omega
        have : 2 * u * k ≤ 2 * u * (2 ^ 24 - 2) := Nat.mul_le_mul_left _ this
        omega
      subst hkk; omega
  · have hre : roundMag num den = s * 2 ^ 23 + k' := by omega
    have hval : magUnits (s * 2 ^ 23 + k') = k' * 2 ^ s := magUnits_scale hk'le (by omega)
    have heven : k' % 2 = 0 → (s * 2 ^ 23 + k') % 2 = 0 := by omega
    rw [hre, hval]
    have hstep : ∀ j : Nat, j * 2 ^ s * den = j * (den * 2 ^ s) := fun j => by ring
    rw [hstep k']
    rw [Nat.mul_comm (den * 2 ^ s) k] at hnum
    rcases magUnits_step s e with ⟨j, hj⟩ | ⟨hs0, hsmall⟩
    · rw [hj, hstep j]
      obtain ⟨hle, htie⟩ := steps_nearest hnum hrem hk' j
      exact ⟨hle, fun hne heq => heven (htie (fun h => hne (by rw [h])) heq)⟩
    · have hlt : magUnits e * den < k * (den * 2 ^ s) := by
        calc magUnits e * den < 2 ^ 23 * 2 ^ s * den := Nat.mul_lt_mul_of_pos_right hsmall hd
          _ = 2 ^ 23 * (den * 2 ^ s) := by ring
          _ ≤ k * (den * 2 ^ s) := Nat.mul_le_mul_right _ (by omega)
      have := (steps_nearest hnum hrem hk' k).1
      have : |((k * (den * 2 ^ s) : Nat) - num : Int)| < |((magUnits e * den : Nat) - num : Int)| := by
        rw [abs_of_nonpos (by omega), abs_of_nonpos (by omega)]; omega
      exact ⟨by omega, fun _ heq => by omega⟩

/-- A larger encoding has a larger value. -/
theorem magUnits_lt {a b : Nat} (h : a < b) (hb : b ≤ infMag) : magUnits a < magUnits b := by
  by_contra hge
  have hexact : roundMag (magUnits b * 1) 1 = b := roundMag_exact (by omega) hb
  have hle := roundMag_le (num := magUnits b * 1) (den := 1) (e := a) (by omega) (by omega)
  omega

theorem magUnits_zero : magUnits 0 = 0 := by decide

/-- The sign and the magnitude of a packed value are those it was packed from. -/
theorem fmag_fpack (neg : Bool) {m : Nat} (h : m < 2 ^ 31) : fmag (fpack neg m) = m := by
  cases neg <;> simp [fmag, fpack] <;> omega

theorem fsign_fpack (neg : Bool) {m : Nat} (h : m < 2 ^ 31) : fsign (fpack neg m) = neg := by
  have h2 : (fpack neg m).bits.toNat = (if neg then 2 ^ 31 else 0) + m := by
    cases neg <;> simp [fpack] <;> omega
  rw [fsign, BitVec.msb_eq_decide, h2]
  cases neg
  · simpa using h
  · simp

theorem infMag_lt : infMag < 2 ^ 31 := by decide

/-- A finite value is no NaN and no infinity. -/
theorem isFinite_iff (x : F32) : isFinite x = true ↔ isNaN x = false ∧ isInf x = false := by
  simp only [isFinite, isNaN, isInf, decide_eq_true_eq, decide_eq_false_iff_not, beq_eq_false_iff_ne]
  omega

/-- The sum of finite values is the exact sum, rounded once. -/
theorem fadd_of_finite {x y : F32} (hx : isFinite x = true) (hy : isFinite y = true) :
    fadd x y = fpack (if fval x + fval y = 0 then fsign x && fsign y else decide (fval x + fval y < 0))
      (roundMag (fval x + fval y).natAbs 1) := by
  obtain ⟨hx1, hx2⟩ := (isFinite_iff x).mp hx
  obtain ⟨hy1, hy2⟩ := (isFinite_iff y).mp hy
  simp [fadd, hx1, hx2, hy1, hy2]

/-- The product of finite values is the exact product, rounded once. -/
theorem fmul_of_finite {x y : F32} (hx : isFinite x = true) (hy : isFinite y = true) :
    fmul x y = fpack (fsign x != fsign y) (roundMag (funits x * funits y) (2 ^ 149)) := by
  obtain ⟨hx1, hx2⟩ := (isFinite_iff x).mp hx
  obtain ⟨hy1, hy2⟩ := (isFinite_iff y).mp hy
  simp [fmul, hx1, hx2, hy1, hy2]

/-- The quotient of finite values, the divisor not zero, is the exact quotient, rounded once. -/
theorem fdiv_of_finite {x y : F32} (hx : isFinite x = true) (hy : isFinite y = true) (h0 : funits y ≠ 0) :
    fdiv x y = fpack (fsign x != fsign y) (roundMag (funits x * 2 ^ 149) (funits y)) := by
  obtain ⟨hx1, hx2⟩ := (isFinite_iff x).mp hx
  obtain ⟨hy1, hy2⟩ := (isFinite_iff y).mp hy
  simp [fdiv, hx1, hx2, hy1, hy2, h0]

/-- The value of a packed encoding. -/
theorem fval_fpack (neg : Bool) {m : Nat} (h : m < 2 ^ 31) :
    fval (fpack neg m) = if neg then -(magUnits m : Int) else (magUnits m : Int) := by
  rw [fval, fsign_fpack neg h, funits_eq, fmag_fpack neg h]

/-- An exact ratio, rounded by `roundMag` apart from its sign and packed, is the ratio rounded to nearest (rule R10). -/
theorem roundsTo_fpack (neg dneg : Bool) (n d : Nat) (hd : 0 < d) (num den : Int)
    (hden : den = if dneg then -(d : Int) else d) (hnum : num = if neg != dneg then -(n : Int) else n) :
    RoundsTo (fpack neg (roundMag n d)) num den := by
  obtain ⟨h1, h2, h3⟩ := roundMag_nearest n d hd
  have hle := roundMag_le_inf n d
  have hlt : roundMag n d < 2 ^ 31 := lt_of_le_of_lt hle infMag_lt
  have hfin : isFinite (fpack neg (roundMag n d)) = true ↔ roundMag n d < infMag := by
    simp [isFinite, fmag_fpack neg hlt]
  have hinf : isInf (fpack neg (roundMag n d)) = true ↔ roundMag n d = infMag := by
    simp [isInf, fmag_fpack neg hlt]
  have hsgn := fsign_fpack neg hlt
  have hv := fval_fpack neg hlt
  have an : |num| = n := by rw [hnum]; split <;> simp
  have ad : |den| = d := by rw [hden]; split <;> simp
  have hbit : roundMag n d % 2 = 0 → (fpack neg (roundMag n d)).bits.getLsbD 0 = false := by
    intro h
    have h2' : (fpack neg (roundMag n d)).bits.toNat = (if neg then 2 ^ 31 else 0) + roundMag n d := by
      cases neg <;> simp [fpack] <;> omega
    rw [BitVec.getLsbD, h2', Nat.testBit_zero]
    cases neg <;> simp <;> omega
  generalize hR : roundMag n d = R at *
  generalize fpack neg R = r at *
  have hd' : (0 : Int) < d := by exact_mod_cast hd
  -- the error of a value, read with the sign of the exact result
  have herr : ∀ v : Int, |v * den - num| = |(if neg then -v else v) * d - n| := by
    intro v
    rw [hden, hnum]
    cases neg <;> cases dneg <;> simp
    · rw [← abs_neg]; congr 1; ring
    · rw [← abs_neg]; congr 1; ring
  have hrv : (if neg then -fval r else fval r) = magUnits R := by rw [hv]; cases neg <;> simp
  have key : isFinite r = true → ∀ z : F32, isFinite z = true →
      |fval r * den - num| ≤ |fval z * den - num| ∧
      (fval z ≠ fval r → |fval z * den - num| = |fval r * den - num| → R % 2 = 0) := by
    intro hr z hz
    have hR' := hfin.mp hr
    rw [herr, herr, hrv]
    have hzm : fmag z < infMag := by simpa [isFinite] using hz
    have hzv : fval z = if fsign z then -(magUnits (fmag z) : Int) else magUnits (fmag z) := rfl
    have hne : fval z ≠ fval r → (if neg then -fval z else fval z) ≠ magUnits R := by
      intro h h'; rw [← hrv] at h'; cases neg <;> simp at h' <;> exact h h'
    generalize hw : (if neg then -fval z else fval z) = w at *
    have hw' : w = magUnits (fmag z) ∨ w = -(magUnits (fmag z) : Int) := by
      rw [← hw, hzv]; cases neg <;> cases fsign z <;> simp
    rcases hw' with hw' | hw'
    · obtain ⟨a, b⟩ := h3 hR' _ hzm
      push_cast at a b
      rw [hw']
      refine ⟨a, fun h h' => b ?_ h'⟩
      intro heq; exact hne h (by rw [hw', heq])
    · obtain ⟨a, b⟩ := h3 hR' 0 (by decide)
      rw [magUnits_zero] at a b
      push_cast at a b
      rw [hw']
      have hp : (0 : Int) ≤ magUnits (fmag z) * d := by positivity
      have e0 : |(0 * (d : Int) - n)| = n := by simp
      have ez : |(-(magUnits (fmag z) : Int)) * d - n| = magUnits (fmag z) * d + n := by
        rw [show (-(magUnits (fmag z) : Int)) * d - n = -(magUnits (fmag z) * d + n) by ring, abs_neg,
          abs_of_nonneg (by positivity)]
      rw [e0] at a b
      rw [ez]
      refine ⟨by omega, fun h h' => b ?_ (by omega)⟩
      have : (magUnits (fmag z) : Int) * d = 0 := by omega
      have hz0 : magUnits (fmag z) = 0 := by
        rcases mul_eq_zero.mp this with h | h
        · exact_mod_cast h
        · omega
      have := hne h
      rw [hw', hz0] at this
      intro h0; apply this; rw [← h0]; rfl
  refine ⟨fun h => ?_, fun h => ?_, fun h => ?_, fun hr z hz => (key hr z hz).1,
    fun hr z hz hne he => hbit ((key hr z hz).2 hne he)⟩
  · rw [an, ad] at h; exact hfin.mpr (h1 (by exact_mod_cast h))
  · rw [an, ad] at h; exact hinf.mpr (h2 (by exact_mod_cast h))
  · rw [hsgn, hden]
    have hn : 0 < (n : Int) := by
      rcases Nat.eq_zero_or_pos n with h0 | h0
      · subst h0; simp at hnum; exact absurd hnum h
      · exact_mod_cast h0
    have hm := mul_pos hn hd'
    rw [hnum]
    cases neg <;> cases dneg <;> simp <;> omega

/-- What flipping the sign bit does to a value (rule R10). -/
theorem fneg_parts (x : F32) : fval (fneg x) = -fval x ∧ fmag (fneg x) = fmag x ∧ fsign (fneg x) = !fsign x := by
  have hb : ∀ b : BitVec 32, (b ^^^ 0x80000000#32).toNat % 2 ^ 31 = b.toNat % 2 ^ 31 := by
    intro b
    rw [BitVec.toNat_xor, Nat.xor_mod_two_pow]; simp
  have h1 : fmag (fneg x) = fmag x := hb x.bits
  have h2 : fsign (fneg x) = !fsign x := by
    simp only [fsign, fneg]
    change (x.bits ^^^ 0x80000000#32).msb = _
    rw [BitVec.msb_xor, show (0x80000000#32).msb = true from rfl]; simp
  refine ⟨?_, h1, h2⟩
  rw [fval, fval, h2, funits_eq, funits_eq, h1]
  cases fsign x <;> simp

/-- What clearing the sign bit does to a value (rule R10). -/
theorem fabs_parts (x : F32) : fval (fabs x) = |fval x| ∧ fsign (fabs x) = false ∧ fmag (fabs x) = fmag x := by
  have h1 : fmag (fabs x) = fmag x := by
    simp only [fmag, fabs]
    rw [BitVec.toNat_and, show (0x7FFFFFFF : BitVec 32).toNat = 2 ^ 31 - 1 from rfl, Nat.and_two_pow_sub_one_eq_mod]
    omega
  have h2 : fsign (fabs x) = false := by
    simp only [fsign, fabs]
    rw [BitVec.msb_and]; simp
    intro; decide
  refine ⟨?_, h2, h1⟩
  rw [fval, fval, h2, funits_eq, funits_eq, h1]
  cases fsign x <;> simp

end Sys2Proof.Machine
end

