-- ==== Sys2Proof/Laws/Operands.lean ====
section
/-! SUPPORT. What the operand forms give (rules R85, R140, R156, R159): each form's value, and when it gives none. -/

namespace Sys2Proof.Machine

/-- A MIDI operand in range is its own value. -/
theorem midi7_of_le {b : Byte} (h : b.toNat ≤ 127) : midi7 b = some (b.setWidth 7) := if_pos h

/-- A MIDI operand out of range gives none. -/
theorem midi7_of_lt {b : Byte} (h : 127 < b.toNat) : midi7 b = none := if_neg (by omega)

/-- What a MIDI operand that was given stands for. -/
theorem midi7_some {b : Byte} {v : BitVec 7} (h : midi7 b = some v) : b.toNat ≤ 127 ∧ v = b.setWidth 7 := by
  unfold midi7 at h
  split at h
  · next hb => exact ⟨hb, (Option.some.inj h).symm⟩
  · cases h

/-- A velocity in range is its own value. -/
theorem velocity7_of_le {b : Byte} (h1 : 1 ≤ b.toNat) (h2 : b.toNat ≤ 127) : velocity7 b = some (b.setWidth 7) :=
  if_pos ⟨h1, h2⟩

/-- A velocity out of range gives none. -/
theorem velocity7_of_out {b : Byte} (h : b.toNat < 1 ∨ 127 < b.toNat) : velocity7 b = none := if_neg (by omega)

/-- What a velocity that was given stands for. -/
theorem velocity7_some {b : Byte} {v : BitVec 7} (h : velocity7 b = some v) :
    1 ≤ b.toNat ∧ b.toNat ≤ 127 ∧ v = b.setWidth 7 := by
  unfold velocity7 at h
  split at h
  · next hb => exact ⟨hb.1, hb.2, (Option.some.inj h).symm⟩
  · cases h

/-- A data byte in range keeps its value in 7 bits. -/
theorem toNat_setWidth7 {b : Byte} (h : b.toNat ≤ 127) : (b.setWidth 7).toNat = b.toNat := by
  rw [BitVec.toNat_setWidth]
  omega

/-- And in 8 bits again. -/
theorem setWidth7_setWidth8 {b : Byte} (h : b.toNat ≤ 127) : (b.setWidth 7).setWidth 8 = b := by
  apply BitVec.eq_of_toNat_eq
  rw [BitVec.toNat_setWidth, toNat_setWidth7 h]
  omega

/-- The program index is B * 256 + A. -/
theorem programIndex_toNat (lo hi : Byte) : (programIndex lo hi).toNat = hi.toNat * 256 + lo.toNat := by
  have h := lo.isLt
  rw [programIndex, BitVec.toNat_append, Nat.shiftLeft_eq, Nat.mul_comm, ← Nat.two_pow_add_eq_or_of_lt h]

/-- The bend value is B * 128 + A. -/
theorem bendValue_toNat (lsb msb : BitVec 7) : (bendValue lsb msb).toNat = msb.toNat * 128 + lsb.toNat := by
  have h := lsb.isLt
  rw [bendValue, BitVec.toNat_append, Nat.shiftLeft_eq, Nat.mul_comm, ← Nat.two_pow_add_eq_or_of_lt h]

/-- A parameter register's own id names it. -/
theorem paramId_ofNat (id : Fin Config.numParams) : paramId (BitVec.ofNat 8 id.val) = some id := by
  have hid : id.val < 24 := id.isLt
  have hval : (BitVec.ofNat 8 id.val).toNat = id.val := by rw [BitVec.toNat_ofNat]; omega
  unfold paramId
  rw [dif_pos (by rw [hval]; exact id.isLt)]
  exact congrArg some (Fin.ext hval)

/-- An id past 0x17 names no parameter register. -/
theorem paramId_of_le {id : Byte} (h : 0x18 ≤ id.toNat) : paramId id = none := dif_neg (by change ¬ id.toNat < 24; omega)

/-- A slot's own number names it. -/
theorem slotId_ofNat (i : SlotIx) : slotId (BitVec.ofNat 8 i.val) = some i := by
  have hi : i.val < 24 := i.isLt
  have hval : (BitVec.ofNat 8 i.val).toNat = i.val := by rw [BitVec.toNat_ofNat]; omega
  unfold slotId
  rw [dif_pos (by rw [hval]; exact i.isLt)]
  exact congrArg some (Fin.ext hval)

/-- A number from NSLOTS up names no slot. -/
theorem slotId_of_le {b : Byte} (h : 24 ≤ b.toNat) : slotId b = none := dif_neg (by change ¬ b.toNat < 24; omega)

/-- The operands SETPARAM accepts are the well-formed ones. -/
theorem legalValue_iff (id : Fin Config.numParams) (v : Byte) :
    legalValue id v = legalParam (BitVec.ofNat 8 id.val) v := by
  revert id v
  decide +kernel

end Sys2Proof.Machine
end

