-- ==== Sys2Proof/Laws/PerInstr.lean ====
section
/-! SUPPORT. The family `TableRow`, one lemma for each command: the encoded word carries the row's opcode, and every bit
the row of the opcode table fixes to 0 below it is 0 (rules R81 to R83, R86). -/

namespace Sys2Proof.Laws

/-- The bits below the opcode that the opcode table fixes to 0, by opcode. -/
def rowZeroBits (op : Byte) : BitVec 24 :=
  match op.toNat with
  | 0x00 => 0xFFFFFF
  | 0x01 => 0xFFFFFC
  | 0x02 => 0xFFFFFF
  | 0x03 => 0xFFFFFF
  | 0x04 => 0xF00000
  | 0x05 => 0xFFFF00
  | 0x06 => 0x000000
  | 0x07 => 0xFFFFF0
  | 0x08 => 0x000000
  | 0x09 => 0x000000
  | 0x0A => 0xFFFFF8
  | 0x22 => 0xFFFFFF
  | 0x23 => 0xFFFFFF
  | 0x24 => 0xFFFF00
  | _ => 0x0F0000

/-- The word of a command matches its row of the opcode table. -/
def TableRow.Statement (i : Instr) : Prop :=
  opField (encode i) = i.opcode ∧ immField (encode i) &&& rowZeroBits i.opcode = 0

/-- A format-P word has CW[19:16] = 0 (rule R83). -/
theorem immP_reserved (p : PartIx) (a b : Byte) : immP p a b &&& 0x0F0000 = 0 := by
  have h : reservedField (immP p a b) = 0 := by
    apply BitVec.eq_of_getLsbD_eq
    intro j hj
    have h1 : ¬ 16 + j < 8 := by omega
    have h2 : ¬ 16 + j - 8 < 8 := by omega
    have h3 : 16 + j - 8 - 8 < 4 := by omega
    simp only [reservedField, immP, BitVec.getLsbD_extractLsb', BitVec.getLsbD_append, h1, h2, h3, if_false, if_true]
    simp
  apply BitVec.eq_of_getLsbD_eq
  intro j hj
  rw [BitVec.getLsbD_and]
  by_cases hj2 : 16 ≤ j ∧ j < 20
  · have := congrArg (fun v => v.getLsbD (j - 16)) h
    simp only [reservedField, BitVec.getLsbD_extractLsb'] at this
    rw [show 16 + (j - 16) = j by omega] at this
    have hlt : j - 16 < 4 := by omega
    simp [hlt] at this
    simp [this]
  · have : (0x0F0000#24).getLsbD j = false := by
      interval_cases j <;> first | rfl | omega
    simp [this]

/-- A format-D word is 0 in every bit past the operand's width (rule R82). -/
theorem immD_zero {n : Nat} (v : BitVec n) (z : BitVec 24) (hz : ∀ j < 24, z.getLsbD j = true → n ≤ j) :
    immD v &&& z = 0 := by
  apply BitVec.eq_of_getLsbD_eq
  intro j hj
  rw [BitVec.getLsbD_and]
  by_cases h : z.getLsbD j = true
  · simp [immD, BitVec.getLsbD_of_ge v j (hz j hj h)]
  · simp [h]

theorem TableRow.nop : TableRow.Statement .nop := ⟨by decide, by decide⟩
theorem TableRow.decStart : TableRow.Statement .decStart := ⟨by decide, by decide⟩
theorem TableRow.decStatus : TableRow.Statement .decStatus := ⟨by decide, by decide⟩
theorem TableRow.mixClear : TableRow.Statement .mixClear := ⟨by decide, by decide⟩
theorem TableRow.mixRead : TableRow.Statement .mixRead := ⟨by decide, by decide⟩

theorem TableRow.decSetgen (g : BitVec 2) : TableRow.Statement (.decSetgen g) :=
  ⟨opField_encode _, (congrArg (· &&& _) (immField_encode _)).trans (immD_zero g 0xFFFFFC (by decide))⟩
theorem TableRow.decAddr (o : BitVec 20) : TableRow.Statement (.decAddr o) :=
  ⟨opField_encode _, (congrArg (· &&& _) (immField_encode _)).trans (immD_zero o 0xF00000 (by decide))⟩
theorem TableRow.decData (x : Byte) : TableRow.Statement (.decData x) :=
  ⟨opField_encode _, (congrArg (· &&& _) (immField_encode _)).trans (immD_zero x 0xFFFF00 (by decide))⟩
theorem TableRow.decBank (addr : BitVec 24) : TableRow.Statement (.decBank addr) :=
  ⟨opField_encode _, (congrArg (· &&& _) (immField_encode _)).trans (immD_zero addr 0x000000 (by decide))⟩
theorem TableRow.decMeta (idx : BitVec 4) : TableRow.Statement (.decMeta idx) :=
  ⟨opField_encode _, (congrArg (· &&& _) (immField_encode _)).trans (immD_zero idx 0xFFFFF0 (by decide))⟩
theorem TableRow.decSel (k : BitVec 24) : TableRow.Statement (.decSel k) :=
  ⟨opField_encode _, (congrArg (· &&& _) (immField_encode _)).trans (immD_zero k 0x000000 (by decide))⟩
theorem TableRow.decRead (i : BitVec 24) : TableRow.Statement (.decRead i) :=
  ⟨opField_encode _, (congrArg (· &&& _) (immField_encode _)).trans (immD_zero i 0x000000 (by decide))⟩
theorem TableRow.decInfo (f : BitVec 3) : TableRow.Statement (.decInfo f) :=
  ⟨opField_encode _, (congrArg (· &&& _) (immField_encode _)).trans (immD_zero f 0xFFFFF8 (by decide))⟩
theorem TableRow.setXpose (v : Byte) : TableRow.Statement (.setXpose v) :=
  ⟨opField_encode _, (congrArg (· &&& _) (immField_encode _)).trans (immD_zero v 0xFFFF00 (by decide))⟩

theorem TableRow.noteOn (p : PartIx) (key vel : Byte) : TableRow.Statement (.noteOn p key vel) :=
  ⟨opField_encode _, (congrArg (· &&& _) (immField_encode _)).trans (immP_reserved p key vel)⟩
theorem TableRow.noteOff (p : PartIx) (key : Byte) : TableRow.Statement (.noteOff p key) :=
  ⟨opField_encode _, (congrArg (· &&& _) (immField_encode _)).trans (immP_reserved p key 0)⟩
theorem TableRow.ctrl (p : PartIx) (controller value : Byte) : TableRow.Statement (.ctrl p controller value) :=
  ⟨opField_encode _, (congrArg (· &&& _) (immField_encode _)).trans (immP_reserved p controller value)⟩
theorem TableRow.prog (p : PartIx) (indexLo indexHi : Byte) : TableRow.Statement (.prog p indexLo indexHi) :=
  ⟨opField_encode _, (congrArg (· &&& _) (immField_encode _)).trans (immP_reserved p indexLo indexHi)⟩
theorem TableRow.chpress (p : PartIx) (value : Byte) : TableRow.Statement (.chpress p value) :=
  ⟨opField_encode _, (congrArg (· &&& _) (immField_encode _)).trans (immP_reserved p value 0)⟩
theorem TableRow.polypress (p : PartIx) (key value : Byte) : TableRow.Statement (.polypress p key value) :=
  ⟨opField_encode _, (congrArg (· &&& _) (immField_encode _)).trans (immP_reserved p key value)⟩
theorem TableRow.bend (p : PartIx) (lsb msb : Byte) : TableRow.Statement (.bend p lsb msb) :=
  ⟨opField_encode _, (congrArg (· &&& _) (immField_encode _)).trans (immP_reserved p lsb msb)⟩
theorem TableRow.alloff (p : PartIx) : TableRow.Statement (.alloff p) :=
  ⟨opField_encode _, (congrArg (· &&& _) (immField_encode _)).trans (immP_reserved p 0 0)⟩
theorem TableRow.preset (p : PartIx) : TableRow.Statement (.preset p) :=
  ⟨opField_encode _, (congrArg (· &&& _) (immField_encode _)).trans (immP_reserved p 0 0)⟩
theorem TableRow.mute (p : PartIx) (m : Byte) : TableRow.Statement (.mute p m) :=
  ⟨opField_encode _, (congrArg (· &&& _) (immField_encode _)).trans (immP_reserved p m 0)⟩
theorem TableRow.setparam (p : PartIx) (id value : Byte) : TableRow.Statement (.setparam p id value) :=
  ⟨opField_encode _, (congrArg (· &&& _) (immField_encode _)).trans (immP_reserved p id value)⟩
theorem TableRow.getparam (p : PartIx) (id : Byte) : TableRow.Statement (.getparam p id) :=
  ⟨opField_encode _, (congrArg (· &&& _) (immField_encode _)).trans (immP_reserved p id 0)⟩
theorem TableRow.heldq (p : PartIx) (key : Byte) : TableRow.Statement (.heldq p key) :=
  ⟨opField_encode _, (congrArg (· &&& _) (immField_encode _)).trans (immP_reserved p key 0)⟩
theorem TableRow.voiceq (p : PartIx) (slot : Byte) : TableRow.Statement (.voiceq p slot) :=
  ⟨opField_encode _, (congrArg (· &&& _) (immField_encode _)).trans (immP_reserved p slot 0)⟩
theorem TableRow.pkpq (p : PartIx) (key : Byte) : TableRow.Statement (.pkpq p key) :=
  ⟨opField_encode _, (congrArg (· &&& _) (immField_encode _)).trans (immP_reserved p key 0)⟩
theorem TableRow.tick (p : PartIx) : TableRow.Statement (.tick p) :=
  ⟨opField_encode _, (congrArg (· &&& _) (immField_encode _)).trans (immP_reserved p 0 0)⟩
theorem TableRow.peak (p : PartIx) : TableRow.Statement (.peak p) :=
  ⟨opField_encode _, (congrArg (· &&& _) (immField_encode _)).trans (immP_reserved p 0 0)⟩

end Sys2Proof.Laws
end

