-- ==== Sys2Proof/Laws/Step.lean ====
section
/-! SUPPORT. What one step can do, said once: the port's event decides, and a command word either decodes and runs or
is rejected. -/

namespace Sys2Proof.Machine

/-- Everything a step that answers a next state can have done. -/
theorem step_cases {s t : State} (h : step s = .next t) :
    (s.port = [] ∧ t = s) ∨
    (∃ cw rest, s.port = .command cw :: rest ∧ runWord cw { s with port := rest } = .next t) ∨
    (∃ rest, s.port = .hardwareReset :: rest ∧ t = hardwareReset { s with port := rest }) ∨
    (∃ files records rest, s.port = .supply files records :: rest ∧ inputsOk files records = true ∧
      t = { s with port := rest, romFiles := files, smeta := records }) := by
  rcases hp : s.port with _ | ⟨e, rest⟩
  · simp only [step, takeEvent, hp] at h
    exact .inl ⟨rfl, by simpa using h.symm⟩
  · cases e with
    | command cw =>
      simp only [step, takeEvent, hp] at h
      exact .inr (.inl ⟨cw, rest, rfl, h⟩)
    | hardwareReset =>
      simp only [step, takeEvent, hp] at h
      exact .inr (.inr (.inl ⟨rest, rfl, by simpa using h.symm⟩))
    | supply files records =>
      simp only [step, takeEvent, hp, supplyInputs] at h
      split at h
      · exact .inr (.inr (.inr ⟨files, records, rest, rfl, ‹_›, by simpa using h.symm⟩))
      · cases h

/-- Everything running a command word can have done. -/
theorem runWord_cases {cw : Word} {s t : State} (h : runWord cw s = .next t) :
    (∃ i, decode cw = .ok i ∧ exec i s = .next t) ∨ ((∃ e, decode cw = .error e) ∧ t = reject s) := by
  rcases hd : decode cw with e | i
  · simp only [runWord, hd] at h
    exact .inr ⟨⟨e, rfl⟩, by simpa using h.symm⟩
  · simp only [runWord, hd] at h
    exact .inl ⟨i, rfl, h⟩

end Sys2Proof.Machine
end

