-- ==== Sys2Proof/Tests/Slice0.lean ====
section
/-! SUPPORT. Checks of the model against the spec's own words, tables and vectors (95_test_vectors.md), one step each; the
smoke test of WellFormed; and, for each statement of the obligations that has hypotheses, a theorem `witness_<its name>`
that shows a state and operands that meet them, at the boundaries of each clause. The configuration is the spec's CFG-T
and the image its IMG-T, which are test choices and no claims about the hardware. -/

namespace Sys2Proof.Tests

open Sys2Proof Sys2Proof.Machine

set_option Elab.async false

/-! ### Fixtures -/

/-- CFG-T, but for the envelope and the pitch increment. -/
def cfgOf (env : EnvParams) (inc : BitVec 32) : Cfg where
  addrPerm := Equiv.refl _
  dataPerm := Equiv.refl _
  bankLow := fun b => match b with | .id0 => some .base0 | .id1 => some .base1 | .id2 => none | .id4 => none
  bankHigh := fun b => match b with | .id0 => some .base0 | .id1 => some .base1 | .id2 => none | .id4 => none
  bankThird := .id2
  sampleRate := 0
  frameDeadline := 0
  sampleSelect := fun _ k => some (if k.toNat < 100 then 0 else BitVec.ofNat 24 (k.toNat - 100))
  programValid := fun i => i.toNat < 128
  programMode := fun _ => none
  envParams := fun _ _ _ _ => env
  pitchInc := fun _ _ _ => inc
  voiceGain := fun _ _ => ⟨0x3F800000, by decide⟩

/-- CFG-T. -/
def cfgT : Cfg := cfgOf ⟨2, 1, 2, ⟨0x3F000000, by decide⟩, 2⟩ 0x00010000

/-- CFG-H. -/
def cfgH : Cfg := cfgOf ⟨0, 0xFFFFFF, 0, ⟨0x3F800000, by decide⟩, 0⟩ 0x00010000

/-- CFG-T with PROGRAM_MODE giving Drum1. -/
def cfgDrum : Cfg := { cfgT with programMode := fun _ => some .drum1 }

/-- CFG-T with SAMPLE_SELECT giving none. -/
def cfgNoSample : Cfg := { cfgT with sampleSelect := fun _ _ => none }

/-- The bytes of IMG-T. -/
def imgFile : RomFile where
  size := 2 ^ 20
  cells := [(0x10, 0x53), (0x1C, 0x31), (0x1D, 0x2E), (0x1E, 0x30), (0x1F, 0x30), (0x20, 0x0F),
    (0x30, 0x32), (0x31, 0x30), (0x32, 0x32), (0x33, 0x36), (0x34, 0x2D), (0x35, 0x31), (0x36, 0x31), (0x37, 0x2D),
    (0x38, 0x31), (0x39, 0x31), (0x200, 0x10), (0x201, 0xF0), (0x202, 0x7F), (0x203, 0x80), (0x210, 0x04),
    (0x211, 0x04), (0x212, 0x04), (0x213, 0xFC), (0x214, 0xFC), (0x400, 0x01)]

/-- SMETA of IMG-T. -/
def imgMeta : List SampleMeta := [⟨0x400, 8, 1, 6, 0⟩, ⟨0x200, 3, 0, 0, 2⟩, ⟨0x210, 4, 2, 2, 1⟩]

/-- After reset, with IMG-T supplied. -/
def supplied : State := { State.reset with romFiles := [.file imgFile], smeta := imgMeta }

/-- After a successful DEC_START on IMG-T. -/
def ready : State := decStart cfgT supplied

/-- With the note of key 60, velocity 100 in slot 0 of part 0. -/
def sounding : State := noteOn cfgT 0 60 100 ready

/-- After reset, with one word at the port. -/
def waiting (cw : Word) : State := { State.reset with port := [.command cw] }

/-- Change part 0. -/
def onPart (f : Part → Part) (s : State) : State := s.setPart 0 (f (s.part 0))

/-- The next state of an answer. -/
def after : Answer → State
  | .next s => s
  | .fault _ => State.reset
  | .refused _ => State.reset

/-- Slot 0 of part 0. -/
def slot0 (s : State) : Slot := (s.part 0).slots[0]

/-- A slot in a phase, with CFG-T's envelope. -/
def envSlot (ph : Phase) (cnt : BitVec 24) : Slot :=
  { Slot.reset with phase := ph, cnt := cnt, tA := 2, tH := 1, tD := 2, tR := 2, sus := ⟨0x3F000000⟩, rl := ⟨0x3F000000⟩ }

/-- What the host sees of a rejected step. -/
abbrev rejected (t : State) : Prop := t.cmdErr = true ∧ t.res = 0xFFFFFFFF

/-- A computation that has not failed has a result. -/
theorem ok_of_isOk {ε α : Type} {x : Except ε α} (h : x.isOk = true) : ∃ a, x = .ok a := by
  cases x with
  | ok a => exact ⟨a, rfl⟩
  | error e => exact absurd h (by simp [Except.isOk, Except.toBool])

/-! ### WellFormed: an ill-formed command for each check -/

theorem test_wf_setgen : Instr.wellFormed (.decSetgen 3) = false ∧ Instr.wellFormed (.decSetgen 2) = true := by decide
theorem test_wf_meta : Instr.wellFormed (.decMeta 14) = false ∧ Instr.wellFormed (.decMeta 13) = true := by decide
theorem test_wf_info : Instr.wellFormed (.decInfo 6) = false ∧ Instr.wellFormed (.decInfo 5) = true := by decide
theorem test_wf_mute : Instr.wellFormed (.mute 0 2) = false ∧ Instr.wellFormed (.mute 0 1) = true := by decide
theorem test_wf_heldq : Instr.wellFormed (.heldq 0 128) = false ∧ Instr.wellFormed (.heldq 0 127) = true := by decide
theorem test_wf_voiceq : Instr.wellFormed (.voiceq 0 24) = false ∧ Instr.wellFormed (.voiceq 0 23) = true := by decide
theorem test_wf_pkpq : Instr.wellFormed (.pkpq 0 128) = false ∧ Instr.wellFormed (.pkpq 0 127) = true := by decide
theorem test_wf_xpose : Instr.wellFormed (.setXpose 128) = false ∧ Instr.wellFormed (.setXpose 127) = true := by decide
theorem test_wf_getparam : Instr.wellFormed (.getparam 0 0x18) = false ∧ Instr.wellFormed (.getparam 0 0x1F) = false ∧
    Instr.wellFormed (.getparam 0 0x2B) = false ∧ Instr.wellFormed (.getparam 0 0x2A) = true := by decide
theorem test_wf_setparam_id : Instr.wellFormed (.setparam 0 0x18 0) = false ∧
    Instr.wellFormed (.setparam 0 0x20 0) = false ∧ Instr.wellFormed (.setparam 0 0x17 127) = true := by decide
theorem test_wf_setparam_value : Instr.wellFormed (.setparam 0 0x00 16) = false ∧
    Instr.wellFormed (.setparam 0 0x01 128) = false ∧ Instr.wellFormed (.setparam 0 0x14 2) = false ∧
    Instr.wellFormed (.setparam 0 0x15 25) = false ∧ Instr.wellFormed (.setparam 0 0x16 2) = false := by decide

/-! ### The encoding: the words of V-ENC-1 to V-ENC-3, written out from the formats of rules R81 to R83 -/

theorem test_decode_decoder : decode 0x00000000 = .ok .nop ∧ decode 0x01000002 = .ok (.decSetgen 2) ∧
    decode 0x02000000 = .ok .decStart ∧ decode 0x03000000 = .ok .decStatus ∧
    decode 0x0400001F = .ok (.decAddr 0x1F) ∧ decode 0x050000FF = .ok (.decData 0xFF) ∧
    decode 0x06100040 = .ok (.decBank 0x100040) ∧ decode 0x0700000D = .ok (.decMeta 13) ∧
    decode 0x08000002 = .ok (.decSel 2) ∧ decode 0x09000007 = .ok (.decRead 7) ∧
    decode 0x0A000004 = .ok (.decInfo 4) ∧ decode 0x24000042 = .ok (.setXpose 66) := by decide

theorem test_decode_part : decode 0x10003C64 = .ok (.noteOn 0 60 100) ∧ decode 0x11003C00 = .ok (.noteOff 0 60) ∧
    decode 0x1220075A = .ok (.ctrl 2 7 90) ∧ decode 0x13000501 = .ok (.prog 0 5 1) ∧
    decode 0x14002100 = .ok (.chpress 0 33) ∧ decode 0x15003C0A = .ok (.polypress 0 60 10) ∧
    decode 0x16000040 = .ok (.bend 0 0 64) ∧ decode 0x17000000 = .ok (.alloff 0) ∧
    decode 0x18000000 = .ok (.preset 0) ∧ decode 0x19100100 = .ok (.mute 1 1) ∧
    decode 0x1A001400 = .ok (.setparam 0 0x14 0) ∧ decode 0x1B002A00 = .ok (.getparam 0 0x2A) ∧
    decode 0x1C003C00 = .ok (.heldq 0 60) ∧ decode 0x1D000100 = .ok (.voiceq 0 1) ∧
    decode 0x1E003C00 = .ok (.pkpq 0 60) := by decide

theorem test_decode_mix : decode 0x20000000 = .ok (.tick 0) ∧ decode 0x20F00000 = .ok (.tick 15) ∧
    decode 0x21000000 = .ok (.peak 0) ∧ decode 0x22000000 = .ok .mixClear ∧ decode 0x23000000 = .ok .mixRead := by
  decide

/-- V-ENC-2: the words no command has, and the order of rule R237. -/
theorem test_decode_rejects : decode 0x0B000000 = .error (.unassignedOpcode 0x0B) ∧
    decode 0x1F000000 = .error (.unassignedOpcode 0x1F) ∧ decode 0x25000000 = .error (.unassignedOpcode 0x25) ∧
    decode 0xFF000000 = .error (.unassignedOpcode 0xFF) ∧ decode 0x00000001 = .error (.reservedBits 0x00) ∧
    decode 0x02000100 = .error (.reservedBits 0x02) ∧ decode 0x01000004 = .error (.reservedBits 0x01) ∧
    decode 0x05000100 = .error (.reservedBits 0x05) ∧ decode 0x04100000 = .error (.reservedBits 0x04) ∧
    decode 0x20010000 = .error (.reservedBits 0x20) ∧ decode 0x0B010000 = .error (.unassignedOpcode 0x0B) := by decide

/-- Rules R83 and I16: a byte its command does not use is ignored. -/
theorem test_decode_ignored_bytes : decode 0x20F01234 = .ok (.tick 15) ∧ decode 0x11003C7F = .ok (.noteOff 0 60) := by
  decide

theorem test_encode : encode (.noteOn 0 60 100) = 0x10003C64 ∧ encode (.bend 0 0 64) = 0x16000040 ∧
    encode (.decBank 0x100040) = 0x06100040 ∧ encode (.peak 15) = 0x21F00000 := by decide

/-- Rule R91: two pseudo-instructions of V-ENC-1. -/
theorem test_pseudo : (Pseudo.holdOn 0).expand.map encode = [0x1200407F] ∧
    (Pseudo.setMono 0).expand.map encode = [0x1A001400] ∧ (Pseudo.bend14 0 8192).expand.map encode = [0x16000040] ∧
    Pseudo.frame.expand.length = 18 := by decide

/-- Rule R52: byte 0 of a carried word holds bits [7:0]. -/
theorem test_carried_word : wordOfBytes 0x64 0x3C 0x00 0x10 = 0x10003C64 ∧
    decodeBytes 0x64 0x3C 0x00 0x10 = .ok (.noteOn 0 60 100) := by decide

/-- Rule R90's example, a hexadecimal operand, a comment alone and a line that is none. -/
theorem test_assembler : assembleLine "NOTE_ON p0, 60, 100 ; a note".toList = some [0x10003C64] ∧
    assembleLine "DEC_ADDR 0x1F".toList = some [0x0400001F] ∧ assembleLine "; nothing".toList = some [] ∧
    assembleLine "NOTE_ON p16, 60, 100".toList = none := by decide +kernel

/-- The host's entry: the word as the next command at the port, and what the decoder reads from it. -/
theorem test_fetch_word : decodeTableWord 32 0x1220075A = some (.ctrl 2 7 90) ∧
    (State.reset.withFetchWord 32 0x24000042).port = [.command 0x24000042] := by decide +kernel

/-! ### The decoder -/

/-- The candidate tables I3 and I4 of 93_implementation_defined.md, in V-DESC-2: not normative. -/
def cfgI3I4 : Cfg := { cfgT with
  addrPerm := ⟨fun i => #v[(2 : Fin 20), 0, 3, 4, 1, 9, 13, 10, 18, 17, 6, 15, 11, 16, 8, 5, 12, 7, 14, 19][i.val],
    fun i => #v[(1 : Fin 20), 4, 0, 2, 3, 15, 10, 17, 14, 5, 7, 12, 16, 6, 18, 11, 13, 9, 8, 19][i.val],
    by decide, by decide⟩
  dataPerm := ⟨fun i => #v[(2 : Fin 8), 0, 4, 5, 7, 6, 3, 1][i.val], fun i => #v[(1 : Fin 8), 7, 0, 6, 2, 3, 5, 4][i.val],
    by decide, by decide⟩ }

theorem test_amap : amap cfgI3I4 0x0001F = 0x0001F ∧ amap cfgI3I4 0x00020 = 0x00200 ∧ amap cfgI3I4 0x00021 = 0x00204 ∧
    amap cfgI3I4 0x00400 = 0x00040 ∧ amap cfgI3I4 0x12345 = 0x7300C ∧ amap cfgI3I4 0xFFFFF = 0xFFFFF := by
  decide +kernel

theorem test_dmap : dmap cfgI3I4 0x01 = 0x02 ∧ dmap cfgI3I4 0x08 = 0x40 ∧ dmap cfgI3I4 0x80 = 0x10 ∧
    dmap cfgI3I4 0x5A = 0xE4 ∧ dmap cfgI3I4 0xFF = 0xFF := by decide +kernel

/-- V-DESC-2: RAW[0x200] = 0x01 gives PLAIN[0x20] = 0x02, and a header byte is copied. -/
theorem test_descramble : (descramble cfgI3I4 [(0x1C, 0x31), (0x200, 0x01)]).read 0x20 = 0x02 ∧
    (descramble cfgI3I4 [(0x1C, 0x31), (0x200, 0x01)]).read 0x1C = 0x31 := by decide +kernel

/-- V-DESC-5. -/
theorem test_companion : companionAddr 0x000210 = 0x000010 ∧ companionAddr 0x0FFFFF = 0x007FFF ∧
    companionAddr 0x1FFFFF = 0x107FFF := by decide

/-- V-DPCM-1: an exact delta, the largest without a wrap, and three that wrap. -/
theorem test_delta : (delta 16 3).bits = 0x3A800000 ∧ (delta 63 11).bits = 0x3F7C0000 ∧
    (delta 64 11).bits = 0xBF800000 ∧ (delta 0x80 11).bits = 0x00000000 ∧ (delta 127 15).bits = 0xBE800000 := by
  decide +kernel

/-- V-DPCM-2 and V-DPCM-3. -/
theorem test_sample_sets : (ready.ss.map fun e => (e.w.map F32.bits).take 4) = [
      [0x3E800000, 0x3E800000, 0x3E800000, 0x3E800000], [0x3A800000, 0x00000000, 0x3BFE0000, 0xB8800000],
      [0x3A800000, 0x3B000000, 0x3B400000, 0x3B000000]] ∧
    (ready.ss.map fun e => (e.sampleLength, e.loopStart, e.loopLength, e.loopMode)) =
      [(8, 1, 6, 0), (3, 0, 0, 2), (7, 2, 5, 0)] := by decide +kernel

theorem test_nop : (after (exec .nop ready)).res = 0 ∧ (after (exec .nop ready)).dstate = .ready := by decide +kernel
theorem test_dec_setgen : (after (exec (.decSetgen 2) State.reset)).gen = 2 := by decide +kernel
theorem test_dec_setgen_rejects : rejected (after (exec (.decSetgen 3) State.reset)) := by decide +kernel
theorem test_dec_start : ready.dstate = .ready ∧ ready.res = 0 ∧ ready.nbanks = 1 := by decide +kernel
theorem test_dec_start_error : (decStart cfgT State.reset).dstate = .error ∧ (decStart cfgT State.reset).res = 1 ∧
    statusWord (decStart cfgT State.reset) = 0x12 := by decide +kernel
theorem test_dec_status : (after (exec .decStatus { ready with gen := 2 })).res = 0x00000009 := by decide +kernel
theorem test_dec_addr : (decAddr cfgI3I4 0x00021 State.reset).res = 0x00204 := by decide +kernel
theorem test_dec_data : (decData cfgI3I4 0x5A State.reset).res = 0xE4 := by decide +kernel
theorem test_dec_bank : (decBank cfgT 0x900040 State.reset).res = 0x00100040 := by decide +kernel
theorem test_dec_bank_rejects : rejected (decBank cfgT 0x300040 State.reset) := by decide +kernel
theorem test_dec_meta : (after (exec (.decMeta 3) ready)).res = 0x30 ∧ (after (exec (.decMeta 4) ready)).res = 0x32 := by
  decide +kernel
theorem test_dec_meta_rejects : (after (exec (.decMeta 14) ready)).res = 0xFFFFFFFF := by decide +kernel
theorem test_dec_sel : (after (exec (.decSel 3) State.reset)).ssel = 3 := by decide +kernel
/-- 95_test_vectors.md section 3.5: DEC_SEL 5 on a table of three sets is stored, and DEC_INFO 0 is then rejected. -/
theorem test_dec_sel_past_the_table : (after (exec (.decSel 5) ready)).ssel = 5 ∧
    (after (exec (.decSel 5) ready)).cmdErr = false ∧ (after (exec (.decSel 5) ready)).res = 0 ∧
    rejected (after (exec (.decInfo 0) (after (exec (.decSel 5) ready)))) := by decide +kernel
theorem test_dec_read : (after (exec (.decRead 5) { ready with ssel := 2 })).res = 0xBA800000 := by decide +kernel
theorem test_dec_read_rejects : (after (exec (.decRead 8) { ready with ssel := 2 })).res = 0xFFFFFFFF := by
  decide +kernel
theorem test_dec_info : (after (exec (.decInfo 2) { ready with ssel := 2 })).res = 5 ∧
    (after (exec (.decInfo 4) ready)).res = 3 := by decide +kernel
theorem test_dec_info_rejects : (after (exec (.decInfo 0) { ready with ssel := 3 })).res = 0xFFFFFFFF := by
  decide +kernel

/-! ### Part commands -/

theorem test_note_on : (slot0 sounding).phase = .attack ∧ (slot0 sounding).key = 60 ∧ (slot0 sounding).vel = 100 := by
  decide +kernel
/-- SV-MONO. -/
theorem test_note_on_mono : (slot0 (noteOn cfgT 0 64 100 (onPart (·.setParam 0x14 0) sounding))).key = 64 ∧
    ((noteOn cfgT 0 64 100 (onPart (·.setParam 0x14 0) sounding)).part 0).active = 1 := by decide +kernel
theorem test_note_off : (slot0 (after (exec (.noteOff 0 60) sounding))).phase = .release := by decide +kernel
/-- SV-HOLD. -/
theorem test_note_off_held : (slot0 (after (exec (.noteOff 0 60) (onPart (setHold true) sounding)))).phase = .attack ∧
    ((after (exec (.noteOff 0 60) (onPart (setHold true) sounding))).part 0).isHeld 60 = true := by decide +kernel
theorem test_ctrl : ((after (exec (.ctrl 2 7 90) State.reset)).part 2).pr[0x01] = 90 ∧
    ((after (exec (.ctrl 2 65 64) State.reset)).part 2).pr[0x16] = 1 := by decide +kernel
theorem test_ctrl_pedal_up :
    (slot0 (after (exec (.ctrl 0 64 63) (onPart (fun P => (setHold true P).addHeld 60) sounding)))).phase = .release := by
  decide +kernel
theorem test_prog : ((setProgram cfgT 0 5 0 State.reset).part 0).prog = 5 ∧
    ((setProgram cfgDrum 0 5 0 State.reset).part 0).mode = .drum1 := by decide +kernel
theorem test_prog_drops : ((setProgram cfgT 0 0 1 State.reset).part 0).prog = 0 ∧
    (setProgram cfgT 0 0 1 State.reset).cmdErr = false := by decide +kernel
theorem test_chpress : ((after (exec (.chpress 0 33) State.reset)).part 0).chp = 33 := by decide +kernel
theorem test_polypress : ((after (exec (.polypress 0 60 10) State.reset)).part 0).pkp[60] = 10 := by decide +kernel
theorem test_bend : ((after (exec (.bend 0 1 64) State.reset)).part 0).bend = 8193 := by decide +kernel
theorem test_alloff : ((after (exec (.alloff 0) sounding)).part 0).active = 0 := by decide +kernel
theorem test_preset : ((after (exec (.preset 3) (after (exec (.ctrl 3 7 10) State.reset)))).part 3).pr[0x01] = 100 ∧
    ((after (exec (.preset 3) State.reset)).part 3).pr[0x00] = 3 := by decide +kernel
theorem test_mute : ((after (exec (.mute 1 1) State.reset)).part 1).mute = true := by decide +kernel
theorem test_setparam : ((after (exec (.setparam 0 0x14 0) State.reset)).part 0).pr[0x14] = 0 := by decide +kernel
theorem test_setparam_rejects : rejected (after (exec (.setparam 0 0x15 25) State.reset)) := by decide +kernel
theorem test_getparam : (after (exec (.getparam 0 0x26) State.reset)).res = 127 ∧
    (after (exec (.getparam 0 0x24) State.reset)).res = 64 := by decide +kernel
theorem test_heldq : (after (exec (.heldq 0 127) (onPart (·.addHeld 127) State.reset))).res = 1 := by decide +kernel
theorem test_voiceq : (after (exec (.voiceq 0 0) sounding)).res = 0x00643C00 ∧
    (after (exec (.voiceq 0 1) sounding)).res = 7 := by decide +kernel
theorem test_pkpq : (after (exec (.pkpq 0 60) (after (exec (.polypress 0 60 10) State.reset)))).res = 10 := by
  decide +kernel
theorem test_set_xpose : (after (exec (.setXpose 66) State.reset)).xpose = 66 := by decide +kernel

/-! ### Envelope, playback and mix -/

/-- SV-ENV, the table of rule R189: the level used in each TICK. -/
theorem test_env_levels : (envLevel (envSlot .attack 1)).bits = 0x3F000000 ∧ (envLevel (envSlot .hold 0)).bits = 0x3F800000 ∧
    (envLevel (envSlot .decay 1)).bits = 0x3F400000 ∧ (envLevel (envSlot .sustain 0)).bits = 0x3F000000 ∧
    (envLevel (envSlot .release 1)).bits = 0x3E800000 := by decide +kernel

/-- SV-ENV: the phase and counter after each TICK. -/
theorem test_env_advance : envAdvance (envSlot .attack 1) = envSlot .hold 0 ∧ envAdvance (envSlot .hold 0) = envSlot .decay 0 ∧
    envAdvance (envSlot .decay 1) = envSlot .sustain 0 ∧ envAdvance (envSlot .sustain 0) = envSlot .sustain 0 ∧
    envAdvance (envSlot .release 1) = envSlot .done 0 := by decide +kernel

/-- Half way between two values of sample set 2 (rule R203), a wrap and a one-shot's end (rule R204). -/
theorem test_playback : (ready.ss.map fun e => (interp e 0x8000).bits) = [0x3E800000, 0x3A000000, 0x3AC00000] ∧
    (ready.ss.map fun e => (oscAdvance e 0x20000 { Slot.reset with phase := .hold, pos := 0x68000 }).pos) =
      [0x28000, 0x88000, 0x38000] ∧
    (ready.ss.map fun e => (oscAdvance e 0x20000 { Slot.reset with phase := .hold, pos := 0x10000 }).phase) =
      [.hold, .done, .hold] := by decide +kernel

/-- The second TICK of program P2: level 0.5 on 0.25. -/
theorem test_tick : (tick cfgT 0 (onPart (·.mapSlots fun t => { t with cnt := 1 }) sounding)).mix.bits = 0x3E000000 := by
  decide +kernel
/-- Rule R236: an undefined loop silences the voice, frees its slot and sets VFAULT. -/
theorem test_tick_fault :
    (tick cfgT 0 { sounding with ss := sounding.ss.map fun e => { e with loopLength := 0 } }).vfault = true ∧
    (tick cfgT 0 { sounding with ss := sounding.ss.map fun e => { e with loopLength := 0 } }).res = 0 := by
  decide +kernel
theorem test_peak : (after (exec (.peak 0) (onPart ({ · with peak := ⟨0x3E800000⟩ }) State.reset))).res = 0x3E800000 ∧
    ((after (exec (.peak 0) (onPart ({ · with peak := ⟨0x3E800000⟩ }) State.reset))).part 0).peak.bits = 0 := by
  decide +kernel
theorem test_mix_clear : (after (exec .mixClear { State.reset with mix := ⟨0x3E000000⟩ })).mix.bits = 0 := by
  decide +kernel
theorem test_mix_read : (after (exec .mixRead { State.reset with mix := ⟨0x3E000000⟩ })).res = 0x3E000000 := by
  decide +kernel

/-- Binary32 corners of rule R10: ties to even, a subnormal kept, an overflow to infinity, a zero sum. -/
theorem test_binary32 : (fadd ⟨0x4B800000⟩ F32.one).bits = 0x4B800000 ∧ (fmul ⟨0x00800000⟩ ⟨0x3F000000⟩).bits = 0x00400000 ∧
    (fadd ⟨0x7F7FFFFF⟩ ⟨0x7F7FFFFF⟩).bits = 0x7F800000 ∧ (fsub F32.one F32.one).bits = 0 ∧
    (fdiv F32.one ⟨0x40400000⟩).bits = 0x3EAAAAAB := by decide +kernel

/-! ### Witnesses: inputs that meet the hypotheses of each statement, clause by clause -/

theorem witness_DecodedCommandKeepsUsedBits : decode 0x20F01234 = .ok (.tick 15) ∧
    decode 0x110FFF00 = .error (.reservedBits 0x11) ∧ decode 0x1DF0FFFF = .ok (.voiceq 15 255) := by decide

theorem witness_UnassignedOpcodesAreRejected : (waiting 0x0B000000).port = .command 0x0B000000 :: [] ∧
    unassignedOp (opField 0x0B000000) ∧ unassignedOp (opField 0x0FFFFFFF) ∧ unassignedOp (opField 0x1F000000) ∧
    unassignedOp (opField 0x25000000) ∧ unassignedOp (opField 0xFFFFFFFF) := by
  unfold unassignedOp; decide

theorem witness_MustBeZeroFieldsReject : (waiting 0x00000001).port = .command 0x00000001 :: [] ∧
    (formatN (opField 0x00000001) ∧ immField 0x00000001 ≠ 0) ∧
    (formatD (opField 0x01000004) 2 ∧ 2 ^ 2 ≤ (immField 0x01000004).toNat) ∧
    (formatD (opField 0x04100000) 20 ∧ 2 ^ 20 ≤ (immField 0x04100000).toNat) ∧
    (formatP (opField 0x20010000) ∧ (0x20010000 : Word).extractLsb' 16 4 ≠ 0) ∧
    (formatP (opField 0x1E080000) ∧ (0x1E080000 : Word).extractLsb' 16 4 ≠ 0) := by
  unfold formatN formatD formatP; decide

theorem witness_StepRunsTheDecodedCommand : (waiting 0x24000042).port = .command 0x24000042 :: [] ∧
    decode 0x24000042 = .ok (.setXpose 66) := by decide

theorem witness_StepWithoutACommand : State.reset.port = [] ∧
    ({ State.reset with port := [.supply [.file imgFile, .unreadable] imgMeta] }).port =
      .supply [.file imgFile, .unreadable] imgMeta :: [] ∧
    RomFile.wf imgFile ∧ (∀ f, RomEntry.file f ∈ [RomEntry.file imgFile, .unreadable] → RomFile.wf f) ∧
    imgMeta.length < 2 ^ 24 := by
  have h : RomFile.wf imgFile := by decide +kernel
  exact ⟨rfl, rfl, h, fun f hf => by simp at hf; exact hf ▸ h, by decide⟩

theorem witness_StepWithoutACommand_refused :
    ({ State.reset with port := [.supply [] (List.replicate (2 ^ 24) ⟨0, 0, 0, 0, 0⟩)] }).port =
      .supply [] (List.replicate (2 ^ 24) ⟨0, 0, 0, 0, 0⟩) :: [] ∧
    2 ^ 24 ≤ (List.replicate (2 ^ 24) (⟨0, 0, 0, 0, 0⟩ : SampleMeta)).length :=
  ⟨rfl, by rw [List.length_replicate]⟩

/-- The two ways in which a file's contents are no byte sequence: a byte past its size, and a list out of order. -/
theorem witness_StepWithoutACommand_badFile :
    (∃ f, RomEntry.file f ∈ [RomEntry.file ⟨1, [(1, 0x01)]⟩] ∧ ¬ RomFile.wf f) ∧
    (∃ f, RomEntry.file f ∈ [RomEntry.file ⟨2, [(1, 0x01), (0, 0x01)]⟩] ∧ ¬ RomFile.wf f) ∧
    ({ State.reset with port := [.supply [.file ⟨1, [(1, 0x01)]⟩] []] }).port =
      .supply [.file ⟨1, [(1, 0x01)]⟩] [] :: [] :=
  ⟨⟨_, List.mem_singleton.mpr rfl, by decide⟩, ⟨_, List.mem_singleton.mpr rfl, by decide⟩, rfl⟩

theorem witness_HardwareResetRestoresEveryElement :
    ({ sounding with port := [.hardwareReset] }).port = .hardwareReset :: [] := rfl

theorem witness_IllFormedOperandsReject : Instr.wellFormed (.decMeta 14) = false ∧
    Instr.wellFormed (.setparam 0 0x15 25) = false ∧ Instr.wellFormed (.setXpose 128) = false := by decide

theorem witness_OutOfRangeMidiOperandsDrop : 127 < (128 : Byte).toNat ∧ (0 : Byte).toNat < 1 := by decide

theorem witness_RejectWritesOnlyCmdErr : ∃ t, exec (.setXpose 128) State.reset = .next t ∧
    State.reset.cmdErr = false ∧ t.cmdErr = true := ⟨_, rfl, rfl, rfl⟩

theorem witness_AnyCommandStreamRunsToItsEnd :
    ({ State.reset with port := [.command 0x0B000000, .command 0x22000000, .hardwareReset] }).port =
      [0x0B000000, 0x22000000].map PortEvent.command ++ [.hardwareReset] := rfl

theorem witness_OnlyDecStartChangesTheDecodedData : (∃ t, exec (.decSel 3) ready = .next t) ∧
    Instr.decSel 3 ≠ .decStart := ⟨⟨_, rfl⟩, by decide⟩

theorem witness_CommandsTouchOnlyTheirPart : (∃ t, exec (.ctrl 2 7 90) sounding = .next t) ∧
    instrPart (.ctrl 2 7 90) ≠ some 0 ∧ changesSlots (.ctrl 2 7 90) = false := ⟨⟨_, rfl⟩, by decide, by decide⟩

theorem witness_GlobalRegistersHaveTheirWriters : (∃ t, exec (.preset 0) { sounding with vfault := true, cmdErr := true } =
    .next t) ∧ (∀ g, Instr.preset 0 ≠ .decSetgen g) ∧ (∀ k, Instr.preset 0 ≠ .decSel k) ∧
    (∀ v, Instr.preset 0 ≠ .setXpose v) ∧ Instr.preset 0 ≠ .mixClear ∧ (∀ p, Instr.preset 0 ≠ .tick p) :=
  ⟨⟨_, rfl⟩, by simp, by simp, by simp, by simp, by simp⟩

theorem witness_PlainRegisterCommands : (127 : Byte).toNat ≤ 127 ∧ 127 < (128 : Byte).toNat := by decide

theorem witness_DecAddrReturnsAmap : (0x1F : BitVec 20).toNat < 0x20 ∧ 0x20 ≤ (0x20 : BitVec 20).toNat := by decide

theorem witness_BankMapMeetsItsConstraints : bankBase cfgT 1 1 = some 0x100000 ∧ bankBase cfgT 2 2 = some 0x200000 ∧
    (1 : Fin Config.numGens) ≠ 2 := by decide +kernel

theorem witness_DecBankResolvesTheAddress :
    bankBase cfgT ready.gen ((0x300040 : BitVec 24).extractLsb' 20 3) = none ∧
    bankBase cfgT ready.gen ((0x900040 : BitVec 24).extractLsb' 20 3) = some 0x100000 := by decide +kernel

theorem witness_RawImageIsTheConcatenation : (∀ x ∈ [imgFile] ++ imgFile :: [], RomFile.wf x) ∧ 0x400 < imgFile.size := by
  have h : RomFile.wf imgFile := by decide +kernel
  exact ⟨fun x hx => by simp at hx; exact hx ▸ h, by decide⟩

theorem witness_PlainImageReadsAsDescrambled : Memory.wf imgFile.cells := by decide +kernel

/-- Finite operands, a divisor that is not 0, a zero sum and difference, and the special operands of an addition. -/
theorem witness_OperationsRoundToNearestAndDeltaIsExact :
    isFinite ⟨0x7F7FFFFF⟩ = true ∧ isFinite ⟨0x00000001⟩ = true ∧ fval ⟨0x00000001⟩ ≠ 0 ∧
    fval F32.one + fval ⟨0xBF800000⟩ = 0 ∧ fval F32.negZero - fval F32.zero = 0 ∧ isNaN ⟨0x7FC00000⟩ = true ∧
    isInf ⟨0x7F800000⟩ = true ∧ isInf ⟨0xFF800000⟩ = true ∧ fsign ⟨0x7F800000⟩ ≠ fsign ⟨0xFF800000⟩ ∧
    isNaN ⟨0x7F7FFFFF⟩ = false := by decide +kernel

/-- The hypotheses of `RoundsTo` at their boundary: half a step past the largest finite value, and one unit below it; and
a tie, 2^24 + 1 between the neighbours 2^24 and 2^24 + 2. -/
theorem witness_OperationsRoundToNearestAndDeltaIsExact_rounding :
    (0x1FFFFFF * 2 ^ 252 * |1| ≤ |fval ⟨0x7F7FFFFF⟩ + fval ⟨0x73000000⟩|) ∧
    (|fval ⟨0x7F7FFFFF⟩ + fval ⟨0x72FFFFFF⟩| < 0x1FFFFFF * 2 ^ 252 * |1|) ∧
    fval (fadd ⟨0x4B800000⟩ F32.one) = fval ⟨0x4B800000⟩ ∧ fval ⟨0x4B800001⟩ ≠ fval ⟨0x4B800000⟩ ∧
    |fval ⟨0x4B800001⟩ * 1 - (fval ⟨0x4B800000⟩ + fval F32.one)| =
      |fval ⟨0x4B800000⟩ * 1 - (fval ⟨0x4B800000⟩ + fval F32.one)| := by decide +kernel

theorem witness_DpcmDecodeRunsOverThePositions :
    2 ^ 20 ≤ (0xFFFFF : BitVec 32).toNat + (1 : BitVec 32).toNat ∧
    (0xFFFFE : BitVec 32).toNat + (1 : BitVec 32).toNat < 2 ^ 20 ∧ 0 < (1 : BitVec 32).toNat ∧
    Memory.read imgFile.cells (companionAddr 0x210).toNat = 0x53 ∧ (0x210 : BitVec 32).toNat / 2 ^ 4 % 2 = 1 ∧
    (0x20F : BitVec 32).toNat / 2 ^ 4 % 2 ≠ 1 := by decide

theorem witness_DpcmIsTheExactSum : (∃ w, dpcmDecode imgFile.cells (2 ^ 20) 0x200 3 = .ok w) ∧ 2 ^ 20 ≤ 2 ^ 32 ∧
    3 ≤ (3 : BitVec 32).toNat ∧ (∀ j ≤ 3, |fixedSum imgFile.cells (j + 1) 0x200| < 2 ^ 38) :=
  ⟨ok_of_isOk (by decide +kernel), by decide, by decide, by decide +kernel⟩

theorem witness_PingpongUnwrapsToForward :
    (List.replicate 5 F32.one).length = (4 : BitVec 32).toNat + 1 ∧ (4 : BitVec 32).toNat < (5 : BitVec 32).toNat ∧
    (4 : BitVec 32).toNat ≤ (4 : BitVec 32).toNat ∧ (4 : BitVec 32).toNat + (4 : BitVec 32).toNat + 1 < 2 ^ 32 := by decide

/-- The clause for a set too long to unwrap: S = L = 2^31, so S + L + 1 = 2^32 + 1. -/
theorem witness_PingpongUnwrapsToForward_long :
    (List.replicate (2 ^ 31 + 1) F32.one).length = (0x80000000 : BitVec 32).toNat + 1 ∧
    2 ^ 32 ≤ (0x80000000 : BitVec 32).toNat + (0x80000000 : BitVec 32).toNat + 1 := by
  rw [List.length_replicate]; decide

theorem witness_InputChecksInOrder : (∀ f ∈ [imgFile], f.size % 2 ^ 20 = 0) ∧ [imgFile] ≠ [] ∧
    (⟨2 ^ 20 + 1, []⟩ : RomFile).size % 2 ^ 20 ≠ 0 ∧ ([⟨0, []⟩].map RomFile.size).sum = 0 ∧
    16 * 2 ^ 20 < ((List.replicate 17 imgFile).map RomFile.size).sum ∧
    0 < ((List.replicate 16 imgFile).map RomFile.size).sum ∧
    ((List.replicate 16 imgFile).map RomFile.size).sum ≤ 16 * 2 ^ 20 := by
  refine ⟨fun f hf => ?_, by simp, by decide, by decide, by decide, by decide, by decide⟩
  simp at hf; subst hf; decide

theorem witness_DecStartCommitsOrAborts : ready.dstate = .ready ∧ supplied.dstate ≠ .ready ∧
    validateInputs supplied.romFiles = .ok ([imgFile], 1) ∧
    (∃ ss, decodeAll cfgT (descramble cfgT (rawImage [imgFile])) 1 supplied.gen supplied.smeta = .ok ss) ∧
    validateInputs State.reset.romFiles = .error .noRom ∧
    decodeAll cfgT (descramble cfgT (rawImage [imgFile])) 1 0 [⟨0x300000, 1, 0, 0, 0⟩] = .error .bankId :=
  ⟨by decide +kernel, by decide, rfl, ok_of_isOk (by decide +kernel), rfl, rfl⟩

/-- The clauses of rule R106: an undefined id, a decode past the image, a one-shot record, a ping-pong record, and a table
whose second record is the first to fail. -/
theorem witness_DecStartCommitsOrAborts_records :
    bankBase cfgT 0 ((0x300000 : BitVec 32).extractLsb' 20 3) = none ∧
    bankBase cfgT 0 ((0x210 : BitVec 32).extractLsb' 20 3) = some 0 ∧
    (0x210 : BitVec 32) = 0 + ((0x210 : BitVec 32).extractLsb' 0 20).setWidth 32 ∧
    dpcmDecode imgFile.cells (1 * 2 ^ 20) 0x100000 0 = .error .undef ∧
    (∃ w, dpcmDecode imgFile.cells (1 * 2 ^ 20) 0x210 4 = .ok w) ∧
    [(⟨0x200, 3, 0, 0, 2⟩ : SampleMeta), ⟨0x300000, 1, 0, 0, 0⟩][1]? = some ⟨0x300000, 1, 0, 0, 0⟩ ∧
    decodeOne cfgT imgFile.cells 1 0 ⟨0x300000, 1, 0, 0, 0⟩ = .error .bankId ∧
    (∃ d, decodeOne cfgT imgFile.cells 1 0 ⟨0x200, 3, 0, 0, 2⟩ = .ok d) :=
  ⟨by decide +kernel, by decide +kernel, by decide, by rfl, ok_of_isOk (by decide +kernel), rfl, by rfl,
    ok_of_isOk (by decide +kernel)⟩

theorem witness_SuccessfulLoadMakesAGoodTable : (∃ l, load cfgT [.file imgFile] imgMeta 0 = .ok l) ∧
    RomFile.wf imgFile := ⟨ok_of_isOk (by decide +kernel), by decide +kernel⟩

theorem witness_DecMetaReadsTheStrings : ready.dstate = .ready ∧ (3 : BitVec 4).toNat ≤ 3 ∧
    (4 ≤ (4 : BitVec 4).toNat ∧ (13 : BitVec 4).toNat ≤ 13) ∧ State.reset.dstate ≠ .ready ∧
    13 < (14 : BitVec 4).toNat := by decide +kernel

theorem witness_DecReadReturnsTheValue : ready.dstate = .ready ∧
    (ready.ss[ready.ssel.toNat]?.map fun e => (e.sampleLength, e.w[8]?)) = some (8, some ⟨0x3E800000⟩) ∧
    (8 : BitVec 24).toNat ≤ (8 : BitVec 32).toNat ∧ (8 : BitVec 32).toNat < (9 : BitVec 24).toNat ∧
    State.reset.dstate ≠ .ready ∧ ({ ready with ssel := 3 }).ss.length ≤ ({ ready with ssel := 3 }).ssel.toNat := by
  decide +kernel

theorem witness_DecInfoReadsTheFields : ready.dstate = .ready ∧ ready.ss[ready.ssel.toNat]?.isSome = true ∧
    (3 : BitVec 3).toNat ≤ 3 ∧ 6 ≤ (6 : BitVec 3).toNat ∧
    ({ ready with ssel := 3 }).ss.length ≤ ({ ready with ssel := 3 }).ssel.toNat := by decide +kernel

theorem witness_NoteOnStartsANote : (127 : Byte).toNat ≤ 127 ∧ 1 ≤ (1 : Byte).toNat ∧ (1 : Byte).toNat ≤ 127 ∧
    ready.dstate = .ready ∧ cfgT.sampleSelect (ready.part 0).live ((60 : Byte).setWidth 7) = some 0 ∧
    (0 : BitVec 24).toNat < ready.ss.length ∧ (ready.part 0).pr[0x14] ≠ 0 ∧
    (ready.part 0).active < min (ready.part 0).pr[0x15].toNat 24 := by decide +kernel

theorem witness_MonoNoteOnLeavesOneNote : sounding.dstate = .ready ∧
    cfgT.sampleSelect ((onPart (·.setParam 0x14 0) sounding).part 0).live ((64 : Byte).setWidth 7) = some 0 ∧
    (0 : BitVec 24).toNat < sounding.ss.length ∧ ((onPart (·.setParam 0x14 0) sounding).part 0).pr[0x14] = 0 ∧
    ((onPart (·.setParam 0x14 0) sounding).part 0).pr[0x15] ≠ 0 ∧ (64 : Byte).toNat ≤ 127 := by decide +kernel

theorem witness_NoteOnDropsBeforeAnyWrite : State.reset.dstate ≠ .ready ∧
    cfgNoSample.sampleSelect (ready.part 0).live ((60 : Byte).setWidth 7) = none ∧
    cfgT.sampleSelect (ready.part 0).live ((103 : Byte).setWidth 7) = some 3 ∧
    ready.ss.length ≤ (3 : BitVec 24).toNat ∧ ((onPart (·.setParam 0x15 0) ready).part 0).pr[0x15] = 0 ∧
    ((onPart (·.setParam 0x15 1) sounding).part 0).pr[0x14] ≠ 0 ∧
    min ((onPart (·.setParam 0x15 1) sounding).part 0).pr[0x15].toNat 24 ≤
      ((onPart (·.setParam 0x15 1) sounding).part 0).active := by decide +kernel

theorem witness_NoteOffReleasesOrHolds : (127 : Byte).toNat ≤ 127 ∧ (sounding.part 0).hold = false ∧
    ((onPart (setHold true) sounding).part 0).hold = true := by decide +kernel

theorem witness_ControllersWriteTheirRegister : (127 : Byte).toNat ≤ 127 ∧ (123 : Byte).toNat ≤ 127 ∧
    (123 : Byte).toNat ∉ [1, 5, 7, 10, 11, 64, 65, 91, 93] := by decide

theorem witness_HoldPedalReleasesHeldKeys : (127 : Byte).toNat ≤ 127 ∧ 64 ≤ (64 : Byte).toNat ∧ (63 : Byte).toNat < 64 ∧
    (sounding.part 0).hold = false ∧ ((onPart (setHold true) sounding).part 0).hold = true := by decide +kernel

theorem witness_ProgSetsProgramAndMode : (0x0105 : BitVec 16).toNat = (1 : Byte).toNat * 256 + (5 : Byte).toNat ∧
    cfgT.programValid 5 = true ∧ cfgT.programMode 5 = none ∧ cfgDrum.programMode 5 = some .drum1 ∧
    cfgT.programValid 0x0105 = false := by decide +kernel

theorem witness_PressureBendAndMute : (127 : Byte).toNat ≤ 127 ∧ 1 < (2 : Byte).toNat := by decide

theorem witness_AlloffEmptiesThePart : (sounding.part 0).slots[(1 : SlotIx).val].phase = .free := by decide +kernel

theorem witness_PresetRestoresTheDefaults : (sounding.part 0).hold = false ∧
    ((onPart (setHold true) sounding).part 0).hold = true := by decide +kernel

theorem witness_SetparamThenGetparam : legalParam (BitVec.ofNat 8 (0x15 : Fin Config.numParams).val) 24 = true := by decide

theorem witness_RegisterQueriesReadTheirRegister : (127 : Byte).toNat ≤ 127 ∧ 0x18 ≤ (0x18 : Byte).toNat ∧
    (0x1F : Byte).toNat ≤ 0x1F ∧ 0x2B ≤ (0x2B : Byte).toNat := by decide

theorem witness_VoiceqReadsOneSlot : (sounding.part 0).slots[(1 : SlotIx).val].phase = .free ∧
    (sounding.part 0).slots[(0 : SlotIx).val].phase ≠ .free := by decide +kernel

theorem witness_EnvelopeMovesThroughItsPhases :
    (envDur (envSlot .attack 5)).isSome = true ∧ (envSlot .sustain 0).cnt = 0 ∧
    ((envSlot .attack 1).phase, (envSlot .attack 1).tA, Phase.hold) ∈
      [(Phase.attack, (envSlot .attack 1).tA, if (envSlot .attack 1).tH ≠ 0 then Phase.hold
          else if (envSlot .attack 1).tD ≠ 0 then Phase.decay else Phase.sustain),
        (Phase.hold, (envSlot .attack 1).tH, if (envSlot .attack 1).tD ≠ 0 then Phase.decay else Phase.sustain),
        (Phase.decay, (envSlot .attack 1).tD, Phase.sustain), (Phase.release, (envSlot .attack 1).tR, Phase.done)] ∧
    (envSlot .attack 1).cnt.toNat < (2 : BitVec 24).toNat ∧ (2 : BitVec 24).toNat ≤ (envSlot .attack 2).cnt.toNat ∧
    (envSlot .attack 0).cnt.toNat + 1 < (2 : BitVec 24).toNat ∧ (envSlot .attack 1).cnt.toNat + 1 = (2 : BitVec 24).toNat ∧
    (envSlot .hold 0).cnt.toNat + 1 = (1 : BitVec 24).toNat ∧ (envSlot .done 0).phase = .done := by
  decide

theorem witness_EnvelopeLevelStaysInUnit : (envSlot .decay 1).phase ≠ .free ∧ EnvTimed (envSlot .decay 1) ∧
    InUnit (envSlot .decay 1).sus ∧ InUnit (envSlot .decay 1).rl ∧ (envSlot .attack 0).phase = .attack ∧
    (envSlot .hold 0).phase = .hold ∧ (envSlot .decay 1).phase = .decay ∧ (envSlot .sustain 0).phase = .sustain ∧
    (envSlot .release 1).phase = .release ∧ (envSlot .done 0).phase = .done := by
  unfold InUnit
  exact ⟨by decide, show (1 : BitVec 24).toNat < (2 : BitVec 24).toNat by decide, by decide⟩

theorem witness_ReleaseStartsAtTheLevelAndLastsItsTime :
    (envSlot .sustain 0).phase ∈ [Phase.attack, Phase.hold, Phase.decay, Phase.sustain] ∧ EnvTimed (envSlot .sustain 0) ∧
    InUnit (envSlot .sustain 0).sus ∧ InUnit (envSlot .sustain 0).rl ∧ (envSlot .sustain 0).tR ≠ 0 ∧
    ({ envSlot .sustain 0 with tR := 0 }).tR = 0 ∧ 2 ≤ (envSlot .sustain 0).tR.toNat ∧
    (envSlot .release 1).phase = .release ∧ (envSlot .done 0).phase = .done := by
  unfold InUnit
  exact ⟨by decide, rfl, by decide⟩

/-- A waveform of eight equal values, looped as a whole. -/
def flatSet : SampleSet := ⟨List.replicate 8 ⟨0x3E800000⟩, 7, 0, 8, 0⟩

/-- Between two values, at the guard with the largest fraction, and at fraction 0. -/
theorem witness_InterpolationBetweenNeighbours :
    (0x38000 : BitVec 48).toNat = 3 * 2 ^ 16 + 0x8000 ∧ (0x7FFFF : BitVec 48).toNat = 7 * 2 ^ 16 + 0xFFFF ∧
    (0x70000 : BitVec 48).toNat = 7 * 2 ^ 16 + 0 ∧ 7 ≤ flatSet.sampleLength.toNat ∧
    flatSet.w[3]? = some ⟨0x3E800000⟩ ∧ flatSet.w[min (3 + 1) flatSet.sampleLength.toNat]? = some ⟨0x3E800000⟩ ∧
    flatSet.w[7]? = some ⟨0x3E800000⟩ ∧ flatSet.w[min (7 + 1) flatSet.sampleLength.toNat]? = some ⟨0x3E800000⟩ ∧
    fmag ⟨0x3E800000⟩ < 0x7F000000 := by decide +kernel

theorem witness_OscAdvanceLoopsOrEnds : (7 : Nat) = (posIndex (0x60000 + (0x10000 : BitVec 32).setWidth 48)).toNat ∧
    (8 : Nat) = (posIndex (0x70000 + (0x10000 : BitVec 32).setWidth 48)).toNat ∧
    flatSet.loopMode = 0 ∧ flatSet.loopLength ≠ 0 ∧
    flatSet.loopStart.toNat + flatSet.loopLength.toNat ≤ setLen flatSet ∧
    7 < flatSet.loopStart.toNat + flatSet.loopLength.toNat ∧ flatSet.loopStart.toNat + flatSet.loopLength.toNat ≤ 8 ∧
    ({ flatSet with loopMode := 2 }).loopMode ≠ 0 := by decide +kernel

theorem witness_VoiceFaultsOrPlays : [flatSet][(slot0 State.reset).sset.toNat]? = some flatSet ∧
    ({ flatSet with loopLength := 0 }).loopLength = 0 ∧
    setLen flatSet < ({ flatSet with loopLength := 9 }).loopStart.toNat + ({ flatSet with loopLength := 9 }).loopLength.toNat ∧
    setLen flatSet ≤ (posIndex 0x80000).toNat ∧ (posIndex 0x7FFFF).toNat < setLen flatSet ∧
    flatSet.loopLength ≠ 0 ∧ flatSet.loopStart.toNat + flatSet.loopLength.toNat ≤ setLen flatSet := by decide +kernel

theorem witness_TickMixesThePart : (sounding.part 0).mute = false ∧ ((onPart (setMute true) sounding).part 0).mute = true ∧
    (∃ before : SlotIx → Slot, ∀ i, before i =
      if (sounding.part 0).slots[i.val].phase = .done then Slot.reset else (sounding.part 0).slots[i.val]) :=
  ⟨by decide +kernel, by decide +kernel, ⟨_, fun _ => rfl⟩⟩

/-- One note in HOLD on the flat waveform. -/
def flatState : State := { State.reset with
  ss := [flatSet], dstate := .ready,
  parts := State.reset.parts.set 0 { Part.reset 0 with
    slots := (Part.reset 0).slots.set 0 { envSlot .hold 0 with key := 60, vel := 100 } } }

theorem witness_ConstantWaveformPeaksAtItsMagnitude : (flatState.part 0).mute = false ∧
    (flatState.part 0).slots[(0 : SlotIx).val].phase = .hold ∧ (flatState.part 0).peak.bits = 0 ∧
    isNaN (flatState.part 0).peak = false ∧ isNaN ⟨0x7F800000⟩ = false ∧ fval F32.one < fval ⟨0x7F800000⟩ ∧
    (((onPart (·.mapSlots fun t => if t.occupied then { t with phase := .sustain, sus := ⟨0x3F800000⟩ } else t)
      flatState).part 0).slots[(0 : SlotIx).val].phase = .sustain ∧
    ((onPart (·.mapSlots fun t => if t.occupied then { t with phase := .sustain, sus := ⟨0x3F800000⟩ } else t)
      flatState).part 0).slots[(0 : SlotIx).val].sus.bits = 0x3F800000) ∧
    (∀ j : SlotIx, j ≠ 0 → (flatState.part 0).slots[j.val].phase = .free) ∧
    flatState.ss[(flatState.part 0).slots[(0 : SlotIx).val].sset.toNat]? = some flatSet ∧
    flatSet.w = List.replicate (setLen flatSet) ⟨0x3E800000⟩ ∧ isFinite ⟨0x3E800000⟩ = true ∧
    badGeometry flatSet (flatState.part 0).slots[(0 : SlotIx).val].pos = false ∧
    (cfgT.voiceGain (flatState.part 0).slots[(0 : SlotIx).val].snap (flatState.part 0).live).val = 0x3F800000 := by
  decide +kernel

/-- A sounding note and a word at the port. -/
def flatWaiting : State := { flatState with port := [.command 0x24000042] }

theorem witness_EveryStepKeepsTheInvariant : flatWaiting.Inv ∧ ∃ t, step flatWaiting = .next t := by
  have hslots : ∀ p : PartIx, ∀ t ∈ (flatWaiting.part p).slots.toList, t.occupied = true →
      t = { envSlot .hold 0 with key := 60, vel := 100 } := by decide +kernel
  refine ⟨⟨⟨?_, ?_, ?_, ?_, ?_, ?_, ?_, ?_, ?_⟩, fun p => ⟨?_, ?_, ?_, ?_⟩⟩, _, rfl⟩
  · decide +kernel
  · decide +kernel
  · decide +kernel
  · decide +kernel
  · decide +kernel
  · intro g hg
    have : g = flatSet := by simpa [flatWaiting, flatState] using hg
    subst this
    exact ⟨by decide +kernel, by decide, by decide +kernel⟩
  · decide +kernel
  · decide +kernel
  · decide +kernel
  · revert p; clear hslots; decide +kernel
  · revert p; clear hslots; decide +kernel
  · intro _ _ _; rfl
  · intro t ht ho
    rw [hslots p t ht ho]
    refine ⟨by decide +kernel, ?_, ?_, ?_, ?_⟩
    · intro g hg _
      have : g = flatSet := by simpa [flatWaiting, flatState, envSlot, Slot.reset] using hg.symm
      subst this
      decide +kernel
    · show (0 : BitVec 24).toNat < (1 : BitVec 24).toNat; decide
    · unfold InUnit; decide
    · unfold InUnit; decide

theorem witness_InterleavedVolumeChangesEndAtTheLastValue : (∀ v ∈ [(10 : Byte), 127], v.toNat ≤ 127) ∧
    Interleave ([(10 : Byte), 127].map fun v => Instr.ctrl 0 7 v) (List.replicate 1 (.tick 0))
      [.ctrl 0 7 10, .tick 0, .ctrl 0 7 127] ∧
    ({ State.reset with port := [.command 0x1200070A, .command 0x20000000, .command 0x1200077F] }).port =
      ([Instr.ctrl 0 7 10, .tick 0, .ctrl 0 7 127].map fun i => PortEvent.command (encode i)) ++ [] :=
  ⟨by decide, .left _ (.right _ (.left _ .nil)), by decide +kernel⟩

end Sys2Proof.Tests
end

section
/-! SUPPORT. The binary32 operations against rule R10's rounding, and the results that are exact: what the rounding
lemmas of Laws/Float.lean give for each operation, and the delta of rule R108. -/

namespace Sys2Proof.Machine

/-! ### Signs, magnitudes and special values -/

theorem fval_eq_zero_iff (x : F32) : fval x = 0 ↔ funits x = 0 := by
  cases h : fsign x <;> simp [fval, h]

/-- A value's magnitude in units is the magnitude of its value. -/
theorem natAbs_fval (x : F32) : (fval x).natAbs = funits x := by
  cases h : fsign x <;> simp [fval, h]

/-- A value is packed from its sign and its magnitude encoding. -/
theorem fpack_fsign_fmag (x : F32) : fpack (fsign x) (fmag x) = x := by
  obtain ⟨b⟩ := x
  have hb := b.isLt
  simp only [fpack, fsign, fmag, BitVec.msb_eq_decide, F32.mk.injEq]
  apply BitVec.eq_of_toNat_eq
  rw [BitVec.toNat_ofNat]
  split <;> simp_all <;> omega

/-- Two values of one sign and one magnitude encoding are the same value. -/
theorem eq_of_fsign_fmag {x y : F32} (hs : fsign x = fsign y) (hm : fmag x = fmag y) : x = y := by
  rw [← fpack_fsign_fmag x, ← fpack_fsign_fmag y, hs, hm]

theorem roundMag_lt (num den : Nat) : roundMag num den < 2 ^ 31 := lt_of_le_of_lt (roundMag_le_inf ..) infMag_lt

theorem isFinite_congr {x y : F32} (h : fmag x = fmag y) : isFinite x = isFinite y := by
  simp only [isFinite, h]

theorem isNaN_congr {x y : F32} (h : fmag x = fmag y) : isNaN x = isNaN y := by
  simp only [isNaN, h]

theorem isFinite_fneg (x : F32) : isFinite (fneg x) = isFinite x := isFinite_congr (fneg_parts x).2.1

theorem isNaN_fabs (x : F32) : isNaN (fabs x) = isNaN x := isNaN_congr (fabs_parts x).2.2

theorem toNat_append_eq_add {v w : Nat} (x : BitVec v) (y : BitVec w) : (x ++ y).toNat = x.toNat * 2 ^ w + y.toNat := by
  rw [BitVec.toNat_append, ← Nat.shiftLeft_add_eq_or_of_lt y.isLt, Nat.shiftLeft_eq]

/-- The default NaN is a NaN, whatever its open bits are (assumption log 2). -/
theorem isNaN_defaultNaN : isNaN defaultNaN = true := by
  have hhead : (BitVec.ofBool Config.nanSign ++ 0xFF#8 ++ 1#1).toNat % 2 ^ 9 = 0x1FF := by
    cases Config.nanSign <;> rfl
  have hbits := toNat_append_eq_add (BitVec.ofBool Config.nanSign ++ 0xFF#8 ++ 1#1) Config.nanPayload
  have hmag : fmag defaultNaN = _ % 2 ^ 31 := congrArg (· % 2 ^ 31) hbits
  have hpayload := Config.nanPayload.isLt
  simp only [isNaN, decide_eq_true_eq, hmag, infMag]
  omega

/-- An integer is its magnitude with its sign. -/
theorem eq_signed_natAbs (n : Int) : n = if decide (n < 0) then -(n.natAbs : Int) else n.natAbs := by
  simp only [decide_eq_true_eq]
  omega

/-! ### Each operation is the exact result rounded once (rule R10) -/

theorem fadd_roundsTo {x y : F32} (hx : isFinite x = true) (hy : isFinite y = true) :
    RoundsTo (fadd x y) (fval x + fval y) 1 := by
  rw [fadd_of_finite hx hy]
  refine roundsTo_fpack _ false _ 1 (by decide) _ _ rfl ?_
  by_cases h0 : fval x + fval y = 0
  · simp [h0]
  · rw [if_neg h0, Bool.bne_false]
    exact eq_signed_natAbs _

/-- A difference of finite values is the exact difference, rounded once. -/
theorem fsub_roundsTo {x y : F32} (hx : isFinite x = true) (hy : isFinite y = true) :
    RoundsTo (fsub x y) (fval x - fval y) 1 := by
  have h := fadd_roundsTo hx ((isFinite_fneg y).trans hy)
  rwa [(fneg_parts y).1, ← sub_eq_add_neg] at h

theorem fmul_roundsTo {x y : F32} (hx : isFinite x = true) (hy : isFinite y = true) :
    RoundsTo (fmul x y) (fval x * fval y) (2 ^ 149) := by
  rw [fmul_of_finite hx hy]
  refine roundsTo_fpack _ false _ (2 ^ 149) (by decide) _ _ rfl ?_
  cases hsx : fsign x <;> cases hsy : fsign y <;> simp [fval, hsx, hsy]

theorem fdiv_roundsTo {x y : F32} (hx : isFinite x = true) (hy : isFinite y = true) (h0 : fval y ≠ 0) :
    RoundsTo (fdiv x y) (fval x * 2 ^ 149) (fval y) := by
  have hu : funits y ≠ 0 := fun h => h0 ((fval_eq_zero_iff y).mpr h)
  rw [fdiv_of_finite hx hy hu]
  refine roundsTo_fpack _ (fsign y) _ _ (Nat.pos_of_ne_zero hu) _ _ rfl ?_
  cases hsx : fsign x <;> cases hsy : fsign y <;> simp [fval, hsx]

theorem f32OfInt_roundsTo (n : Int) : RoundsTo (f32OfInt n) (n * 2 ^ 149) 1 := by
  refine roundsTo_fpack _ false _ 1 (by decide) _ _ rfl ?_
  rw [Bool.bne_false]
  conv_lhs => rw [eq_signed_natAbs n]
  split <;> push_cast <;> ring

/-- A zero sum is negative only when both terms are. -/
theorem fsign_fadd_of_zero {x y : F32} (hx : isFinite x = true) (hy : isFinite y = true) (h : fval x + fval y = 0) :
    fsign (fadd x y) = (fsign x && fsign y) := by
  rw [fadd_of_finite hx hy, if_pos h, fsign_fpack _ (roundMag_lt ..)]

theorem fsign_fsub_of_zero {x y : F32} (hx : isFinite x = true) (hy : isFinite y = true) (h : fval x - fval y = 0) :
    fsign (fsub x y) = (fsign x && !fsign y) := by
  obtain ⟨hval, -, hsign⟩ := fneg_parts y
  rw [fsub, fsign_fadd_of_zero hx ((isFinite_fneg y).trans hy) (by rw [hval]; omega), hsign]

theorem fsign_fmul {x y : F32} (hx : isFinite x = true) (hy : isFinite y = true) :
    fsign (fmul x y) = (fsign x != fsign y) := by
  rw [fmul_of_finite hx hy, fsign_fpack _ (roundMag_lt ..)]

theorem fsign_fdiv {x y : F32} (hx : isFinite x = true) (hy : isFinite y = true) (h0 : fval y ≠ 0) :
    fsign (fdiv x y) = (fsign x != fsign y) := by
  rw [fdiv_of_finite hx hy fun h => h0 ((fval_eq_zero_iff y).mpr h), fsign_fpack _ (roundMag_lt ..)]

/-! ### Additions with operands that are not finite (assumption log 2, 16) -/

theorem fadd_of_nan {x y : F32} (h : isNaN x = true ∨ isNaN y = true) : fadd x y = defaultNaN := by
  rw [fadd, if_pos (by simpa using h)]

/-- An infinity is no NaN. -/
theorem isNaN_of_isInf {x : F32} (h : isInf x = true) : isNaN x = false := by
  simp only [isInf, beq_iff_eq] at h
  simp [isNaN, h]

theorem fadd_of_opposite_infs {x y : F32} (hx : isInf x = true) (hy : isInf y = true) (hs : fsign x ≠ fsign y) :
    fadd x y = defaultNaN := by
  simp [fadd, isNaN_of_isInf hx, isNaN_of_isInf hy, hx, hy, hs]

/-- An infinity plus a value that is no NaN and no opposite infinity is that infinity, on either side. -/
theorem fadd_inf {x y : F32} (hx : isInf x = true) (hy : isNaN y = false) (hs : isInf y = true → fsign x = fsign y) :
    fadd x y = x ∧ fadd y x = x := by
  have hxn := isNaN_of_isInf hx
  rcases hi : isInf y with _ | _
  · simp [fadd, hxn, hy, hx, hi]
  · have hyx : y = x := by
      simp only [isInf, beq_iff_eq] at hx hi
      exact eq_of_fsign_fmag (hs (by simpa [isInf] using hi)).symm (hi.trans hx.symm)
    subst hyx
    simp [fadd, hxn, hi]

/-! ### Exact results -/

/-- A ratio that is a 24-bit whole number times a power of two in range is packed exactly. -/
theorem fpack_roundMag_exact (neg : Bool) {num den m k : Nat} (hd : 0 < den) (h : num = m * 2 ^ k * den)
    (hm : m < 2 ^ 24) (hk : k ≤ 229) :
    isFinite (fpack neg (roundMag num den)) = true ∧
      fval (fpack neg (roundMag num den)) * den = if neg then -(num : Int) else num := by
  obtain ⟨e, he, hu⟩ := exists_magUnits_eq hm hk
  have he31 : e < 2 ^ 31 := lt_trans he infMag_lt
  rw [h, ← hu, roundMag_exact hd he.le]
  refine ⟨by simpa [isFinite, fmag_fpack neg he31] using he, ?_⟩
  rw [fval_fpack neg he31]
  cases neg <;> simp

/-- The conversion of an integer of at most 24 significant bits is exact (rule R10). -/
theorem f32OfInt_exact {n : Int} {m k : Nat} (h : n.natAbs = m * 2 ^ k) (hm : m < 2 ^ 24) (hk : k ≤ 80) :
    isFinite (f32OfInt n) = true ∧ fval (f32OfInt n) = n * 2 ^ 149 := by
  obtain ⟨hfin, hval⟩ := fpack_roundMag_exact (decide (n < 0)) (num := n.natAbs * 2 ^ 149) (den := 1) (m := m)
    (k := k + 149) (by decide) (by rw [h, pow_add]; ring) hm (by omega)
  refine ⟨hfin, ?_⟩
  calc fval (f32OfInt n) = fval (f32OfInt n) * (1 : Nat) := by simp
    _ = (if decide (n < 0) then -(n.natAbs : Int) else n.natAbs) * 2 ^ 149 := by
      refine hval.trans ?_
      split <;> push_cast <;> ring
    _ = n * 2 ^ 149 := by rw [← eq_signed_natAbs]

/-- A quotient of at most 24 significant bits is exact (rule R10). -/
theorem fdiv_exact {x y : F32} {m k : Nat} (hx : isFinite x = true) (hy : isFinite y = true) (h0 : fval y ≠ 0)
    (h : funits x * 2 ^ 149 = m * 2 ^ k * funits y) (hm : m < 2 ^ 24) (hk : k ≤ 229) :
    isFinite (fdiv x y) = true ∧ fval (fdiv x y) * fval y = fval x * 2 ^ 149 := by
  have hu : funits y ≠ 0 := fun h => h0 ((fval_eq_zero_iff y).mpr h)
  rw [fdiv_of_finite hx hy hu]
  obtain ⟨hfin, hval⟩ := fpack_roundMag_exact (fsign x != fsign y) (Nat.pos_of_ne_zero hu) h hm hk
  refine ⟨hfin, ?_⟩
  have hxv : fval x * 2 ^ 149 = if fsign x then -((funits x * 2 ^ 149 : Nat) : Int) else (funits x * 2 ^ 149 : Nat) := by
    rw [fval]; split <;> push_cast <;> ring
  have hyv : fval y = if fsign y then -(funits y : Int) else funits y := rfl
  rw [hxv, hyv]
  generalize funits x * 2 ^ 149 = num at hval ⊢
  cases hsx : fsign x <;> cases hsy : fsign y <;> simp [hsx, hsy] at hval ⊢ <;> omega

/-! ### The delta (rule R108) -/

/-- The fixed-point delta is the shifted byte, wrapped to a signed 32-bit integer. -/
theorem deltaFixed_eq_bmod (b : Byte) (n : BitVec 4) :
    deltaFixed b n = (b.toInt * 2 ^ (n.toNat + 14)).bmod (2 ^ 32) := by
  rw [deltaFixed, BitVec.toInt_shiftLeft, ← BitVec.toInt_signExtend_of_le (x := b) (v := 32) (by decide),
    BitVec.toInt_eq_toNat_bmod, Int.bmod_mul_bmod, Nat.shiftLeft_eq]
  push_cast
  rfl

theorem dvd_deltaFixed_sub (b : Byte) (n : BitVec 4) : (2 ^ 32 : Int) ∣ deltaFixed b n - b.toInt * 2 ^ (n.toNat + 14) := by
  rw [deltaFixed_eq_bmod]
  exact Int.dvd_bmod_sub_self

theorem deltaFixed_range (b : Byte) (n : BitVec 4) : -2 ^ 31 ≤ deltaFixed b n ∧ deltaFixed b n < 2 ^ 31 :=
  ⟨BitVec.le_toInt _, BitVec.toInt_lt⟩

/-- The fixed-point delta has at most 18 significant bits: the shift clears the 14 below them. -/
theorem deltaFixed_natAbs (b : Byte) (n : BitVec 4) : ∃ m < 2 ^ 24, (deltaFixed b n).natAbs = m * 2 ^ 14 := by
  obtain ⟨hlo, hhi⟩ := deltaFixed_range b n
  have hshift : (2 ^ 14 : Int) ∣ b.toInt * 2 ^ (n.toNat + 14) := Dvd.dvd.mul_left (pow_dvd_pow 2 (by omega)) _
  have hdvd : (2 ^ 14 : Int) ∣ deltaFixed b n :=
    (dvd_sub_left hshift).mp ((pow_dvd_pow 2 (by decide)).trans (dvd_deltaFixed_sub b n))
  obtain ⟨q, hq⟩ := hdvd
  exact ⟨q.natAbs, by omega, by omega⟩

theorem twoPow31_exact : isFinite twoPow31 = true ∧ fval twoPow31 = 2 ^ 180 :=
  f32OfInt_exact (n := 2 ^ 31) (m := 1) (k := 31) (by decide) (by decide) (by decide)

/-- The binary32 delta is the fixed-point delta divided by 2^31, with no rounding (rules R108, R120). -/
theorem delta_exact (b : Byte) (n : BitVec 4) :
    isFinite (delta b n) = true ∧ fval (delta b n) = deltaFixed b n * 2 ^ 118 := by
  obtain ⟨m, hm, habs⟩ := deltaFixed_natAbs b n
  obtain ⟨hfin, hval⟩ := f32OfInt_exact habs hm (by decide)
  obtain ⟨hfin31, hval31⟩ := twoPow31_exact
  have hunits : funits (f32OfInt (deltaFixed b n)) * 2 ^ 149 = m * 2 ^ 132 * funits twoPow31 := by
    rw [← natAbs_fval, ← natAbs_fval, hval, hval31, Int.natAbs_mul, habs]
    rw [Int.natAbs_pow, Int.natAbs_pow, show (2 : Int).natAbs = 2 from rfl]
    ring
  obtain ⟨hd, hq⟩ := fdiv_exact hfin hfin31 (by rw [hval31]; positivity) hunits hm (by decide)
  rw [hval, hval31] at hq
  refine ⟨hd, ?_⟩
  rw [delta]
  omega

/-- Settles O26: each clause is the rule above for its operation. -/
theorem operationsRoundToNearestAndDeltaIsExact : Obligations.OperationsRoundToNearestAndDeltaIsExact := by
  refine ⟨fun x y hx hy => ?_, f32OfInt_roundsTo, fun x y => ?_, fun x => ?_, fun b n => ?_⟩
  · exact ⟨fadd_roundsTo hx hy, fsub_roundsTo hx hy, fmul_roundsTo hx hy, fdiv_roundsTo hx hy,
      fsign_fadd_of_zero hx hy, fsign_fsub_of_zero hx hy, fsign_fmul hx hy, fsign_fdiv hx hy⟩
  · exact ⟨fun h => fadd_of_nan h ▸ isNaN_defaultNaN,
      fun hx hy hs => fadd_of_opposite_infs hx hy hs ▸ isNaN_defaultNaN, fadd_inf⟩
  · obtain ⟨-, hnegMag, hnegSign⟩ := fneg_parts x
    obtain ⟨-, habsSign, habsMag⟩ := fabs_parts x
    exact ⟨hnegMag, hnegSign, habsMag, habsSign⟩
  · obtain ⟨hlo, hhi⟩ := deltaFixed_range b n
    obtain ⟨hfin, hval⟩ := delta_exact b n
    exact ⟨dvd_deltaFixed_sub b n, hlo, hhi, hfin, hval⟩

end Sys2Proof.Machine
end

section
/-! SUPPORT. The peak meter's rules: the order `maxf` compares by, the operations that keep a magnitude, and the sum of a
TICK with one sounding slot (rules R10, R203, R208, R212). -/

namespace Sys2Proof.Machine

/-! ### The order of the values that are not NaN -/

theorem magUnits_lt_iff {a b : Nat} (ha : a ≤ infMag) (hb : b ≤ infMag) : magUnits a < magUnits b ↔ a < b := by
  refine ⟨fun h => ?_, fun h => magUnits_lt h hb⟩
  by_contra hba
  rcases Nat.lt_or_eq_of_le (Nat.not_lt.mp hba) with hlt | heq
  · exact absurd (magUnits_lt hlt ha) (Nat.lt_asymm h)
  · exact absurd h (heq ▸ Nat.lt_irrefl _)

theorem isNaN_eq_false_iff (x : F32) : isNaN x = false ↔ fmag x ≤ infMag := by
  simp [isNaN]

/-- The order of the encodings is the order of the values. -/
theorem forder_lt_iff {x y : F32} (hx : isNaN x = false) (hy : isNaN y = false) :
    forder y < forder x ↔ fval y < fval x := by
  rw [isNaN_eq_false_iff] at hx hy
  have hxy := magUnits_lt_iff hx hy
  have hyx := magUnits_lt_iff hy hx
  have hx0 := magUnits_lt_iff (Nat.zero_le _) hx
  have hy0 := magUnits_lt_iff (Nat.zero_le _) hy
  rw [magUnits_zero] at hx0 hy0
  rw [forder, forder, fval, fval, funits_eq, funits_eq]
  split <;> split <;> omega

/-- `maxf` of values that are not NaN is the larger, and the second when they compare equal (rule R10). -/
theorem fmax_eq {x y : F32} (hx : isNaN x = false) (hy : isNaN y = false) :
    fmax x y = if fval y < fval x then x else y := by
  simp only [fmax, hx, hy, Bool.or_self, Bool.false_eq_true, if_false, forder_lt_iff hx hy]

/-! ### Operations that keep a magnitude -/

theorem fabs_congr {x y : F32} (h : fmag x = fmag y) : fabs x = fabs y := by
  obtain ⟨-, hxs, hxm⟩ := fabs_parts x
  obtain ⟨-, hys, hym⟩ := fabs_parts y
  exact eq_of_fsign_fmag (hxs.trans hys.symm) (hxm.trans (h.trans hym.symm))

theorem fval_of_fmag_zero {x : F32} (h : fmag x = 0) : fval x = 0 := by
  rw [fval_eq_zero_iff, funits_eq, h, magUnits_zero]

theorem isFinite_of_fmag_zero {x : F32} (h : fmag x = 0) : isFinite x = true := by
  rw [isFinite, h]; rfl

/-- The magnitude of a finite value, rounded, is its own encoding. -/
theorem roundMag_funits {x : F32} {den : Nat} (hd : 0 < den) (hx : isFinite x = true) :
    roundMag (funits x * den) den = fmag x := by
  rw [isFinite, decide_eq_true_eq] at hx
  rw [funits_eq, roundMag_exact hd hx.le]

/-- The encoding of an exact sum that has the magnitude of a finite value is that value's. -/
theorem fmag_fadd_of_natAbs {x y z : F32} (hx : isFinite x = true) (hy : isFinite y = true) (hz : isFinite z = true)
    (h : (fval x + fval y).natAbs = funits z) : fmag (fadd x y) = fmag z := by
  rw [fadd_of_finite hx hy, fmag_fpack _ (roundMag_lt ..), h, ← roundMag_funits Nat.one_pos hz, Nat.mul_one]

/-- Adding a zero keeps the magnitude. -/
theorem fmag_fadd_zero {x y : F32} (hx : isFinite x = true) (hy : fmag y = 0) : fmag (fadd x y) = fmag x :=
  fmag_fadd_of_natAbs hx (isFinite_of_fmag_zero hy) hx (by rw [fval_of_fmag_zero hy, add_zero, natAbs_fval])

/-- Adding to a zero keeps the magnitude. -/
theorem fmag_zero_fadd {x y : F32} (hx : fmag x = 0) (hy : isFinite y = true) : fmag (fadd x y) = fmag y :=
  fmag_fadd_of_natAbs (isFinite_of_fmag_zero hx) hy hy (by rw [fval_of_fmag_zero hx, zero_add, natAbs_fval])

/-- A finite value minus itself is a zero. -/
theorem fmag_fsub_self {x : F32} (hx : isFinite x = true) : fmag (fsub x x) = 0 := by
  have hzero : fmag F32.zero = 0 := by decide
  rw [fsub, ← hzero]
  refine fmag_fadd_of_natAbs hx ((isFinite_fneg x).trans hx) (isFinite_of_fmag_zero hzero) ?_
  rw [(fneg_parts x).1, add_neg_cancel]
  decide

/-- A zero times a finite value is a zero. -/
theorem fmag_fmul_of_zero {x y : F32} (hx : fmag x = 0) (hy : isFinite y = true) : fmag (fmul x y) = 0 := by
  have hxf := isFinite_of_fmag_zero hx
  have hux : funits x = 0 := (fval_eq_zero_iff x).mp (fval_of_fmag_zero hx)
  rw [fmul_of_finite hxf hy, fmag_fpack _ (roundMag_lt ..), ← hx, ← roundMag_funits (Nat.two_pow_pos 149) hxf, hux,
    Nat.zero_mul, Nat.zero_mul]

/-- Multiplying by 1.0 keeps the magnitude. -/
theorem fmag_fmul_one {x : F32} (hx : isFinite x = true) : fmag (fmul x F32.one) = fmag x := by
  have hone : funits F32.one = 2 ^ 149 := by decide
  rw [fmul_of_finite hx (by decide), fmag_fpack _ (roundMag_lt ..), hone, roundMag_funits (Nat.two_pow_pos 149) hx]

/-! ### One note at full level on a constant waveform (rule R212) -/

/-- The fraction of a phase is finite: its integer part is below 2^16 and 2^-16 is exact (rule R203). -/
theorem isFinite_phaseFraction (pos : BitVec 48) :
    isFinite (fmul (f32OfInt (posFrac pos).toNat) twoPowNeg16) = true := by
  have hlt := (posFrac pos).isLt
  obtain ⟨hfin, hval⟩ := f32OfInt_exact (n := (posFrac pos).toNat) (m := (posFrac pos).toNat) (k := 0)
    (by simp) (by omega) (by decide)
  obtain ⟨hfin16, hval16⟩ : isFinite twoPowNeg16 = true ∧ fval twoPowNeg16 * (2 ^ 16 : Nat) = (1 * 2 ^ 149 : Nat) :=
    fpack_roundMag_exact false (m := 1) (k := 133) (by decide) (by decide) (by decide) (by decide)
  have h16 : fval twoPowNeg16 = 2 ^ 133 := by omega
  refine (fmul_roundsTo hfin hfin16).finite ?_
  rw [hval, h16]
  generalize (posFrac pos).toNat = n at hlt
  rw [abs_of_nonneg (by omega), abs_of_nonneg (by omega)]
  omega

/-- Interpolating between equal values gives their magnitude (rule R203). -/
theorem fmag_interp_of_const {e : SampleSet} {a : F32} {pos : BitVec 48} (hw : e.w = List.replicate (setLen e) a)
    (ha : isFinite a = true) (hpos : (posIndex pos).toNat < setLen e) : fmag (interp e pos) = fmag a := by
  have hget : ∀ i < setLen e, e.w.getD i F32.zero = a := fun i hi => by simp [hw, hi]
  simp only [interp, hget _ hpos, hget (min ((posIndex pos).toNat + 1) (setLen e - 1)) (by omega)]
  exact fmag_fadd_zero ha (fmag_fmul_of_zero (fmag_fsub_self ha) (isFinite_phaseFraction pos))

/-- In HOLD, and in SUSTAIN with sustain level 1.0, the envelope level is 1.0 (rule R184). -/
theorem envLevel_full {t : Slot} (h : t.phase = .hold ∨ (t.phase = .sustain ∧ t.sus.bits = 0x3F800000)) :
    envLevel t = F32.one := by
  rcases h with hp | ⟨hp, hsus⟩
  · simp only [envLevel, hp]
  · simp only [envLevel, hp]
    exact congrArg F32.mk hsus

/-- The output of a slot at full level and gain 1.0 on a constant waveform has that constant's magnitude. -/
theorem fmag_voiceStep_of_const {c : Cfg} {ss : List SampleSet} {live : Live} {xpose : Byte} {t : Slot} {e : SampleSet}
    {a : F32} (hset : ss[t.sset.toNat]? = some e) (hgeo : badGeometry e t.pos = false)
    (hw : e.w = List.replicate (setLen e) a) (ha : isFinite a = true) (hlevel : envLevel t = F32.one)
    (hgain : (c.voiceGain t.snap live).val = 0x3F800000) : fmag (voiceStep c ss live xpose t).y = fmag a := by
  have hpos : (posIndex t.pos).toNat < setLen e := by
    simp only [badGeometry, Bool.or_eq_false_iff, decide_eq_false_iff_not] at hgeo
    omega
  have hone : gainValue (c.voiceGain t.snap live) = F32.one := by
    rw [gainValue, hgain]; rfl
  have hinterp := fmag_interp_of_const hw ha hpos
  have hfin : isFinite (interp e t.pos) = true := (isFinite_congr hinterp).trans ha
  have hlevelled := fmag_fmul_one hfin
  simp only [voiceStep, hset, hgeo, Bool.false_eq_true, if_false, voicePlay, hlevel, hone]
  rw [fmag_fmul_one ((isFinite_congr hlevelled).trans hfin), hlevelled, hinterp]

/-! ### A TICK with one sounding slot (rule R208) -/

/-- Filtering a list of which one position alone passes leaves that position's element. -/
theorem filter_eq_singleton {α : Type} {q : α → Bool} {l : List α} {i : Nat} (hi : i < l.length) (hq : q l[i] = true)
    (hne : ∀ (j : Nat) (hj : j < l.length), j ≠ i → q l[j] = false) : l.filter q = [l[i]] := by
  induction l generalizing i with
  | nil => exact absurd hi (Nat.not_lt_zero i)
  | cons x l ih =>
    cases i with
    | zero =>
      have htail : l.filter q = [] := by
        rw [List.filter_eq_nil_iff]
        intro y hy
        obtain ⟨j, hj, rfl⟩ := List.getElem_of_mem hy
        simpa using hne (j + 1) (Nat.succ_lt_succ hj) (Nat.succ_ne_zero j)
      rw [List.getElem_cons_zero] at hq ⊢
      rw [List.filter_cons_of_pos hq, htail]
    | succ i =>
      have hhead : q x = false := hne 0 (Nat.succ_pos _) (Nat.succ_ne_zero i).symm
      rw [List.filter_cons_of_neg (by simp [hhead]), List.getElem_cons_succ]
      exact ih (Nat.lt_of_succ_lt_succ hi) hq fun j hj hji =>
        hne (j + 1) (Nat.succ_lt_succ hj) (by omega)

/-- The peak an unmuted TICK leaves (rules R208, R210). -/
theorem peak_tick {c : Cfg} {p : PartIx} {s : State} (hm : (s.part p).mute = false) :
    ((tick c p s).part p).peak =
      fmax (s.part p).peak (fabs (sumVoices (tickVoice c s p) F32.zero (tickSlots s p).toList)) := by
  rw [tick_eq, part_complete]
  exact (congrArg Part.peak (part_setPart_self s p _)).trans (if_neg (by simp [hm]))

/-- With one slot sounding and the others free, a TICK's sum is that slot's output, added to +0.0. -/
theorem sumVoices_tick_of_single {c : Cfg} {p : PartIx} {s : State} {i : SlotIx}
    (hocc : (s.part p).slots[i.val].phase ≠ .free) (hdone : (s.part p).slots[i.val].phase ≠ .done)
    (hothers : ∀ j : SlotIx, j ≠ i → (s.part p).slots[j.val].phase = .free) :
    sumVoices (tickVoice c s p) F32.zero (tickSlots s p).toList =
      fadd F32.zero (tickVoice c s p (s.part p).slots[i.val]).y := by
  have hslot : ∀ j : SlotIx, (s.part p).slots[j.val].phase ≠ .done →
      (tickSlots s p).toList[j.val]'(by simp) = (s.part p).slots[j.val] := fun j hj => by
    simp [tickSlots, freeIfDone, hj]
  have hfilter : (tickSlots s p).toList.filter (fun t => t.phase ≠ .free) = [(s.part p).slots[i.val]] := by
    rw [← hslot i hdone]
    refine filter_eq_singleton (by simp) (by simpa [hslot i hdone] using hocc) fun j hj hji => ?_
    have hj' : j < Config.numSlots := by simpa using hj
    have hjfree := hothers ⟨j, hj'⟩ fun h => hji (congrArg Fin.val h)
    rw [hslot ⟨j, hj'⟩ (by rw [hjfree]; decide)]
    simp [hjfree]
  rw [sumVoices_eq, hfilter, List.foldl_cons, List.foldl_nil]

/-- Settles O57: the one sounding slot's output has the constant's magnitude, and so has the part's sum. -/
theorem constantWaveformPeaksAtItsMagnitude : Obligations.ConstantWaveformPeaksAtItsMagnitude := by
  refine ⟨fun x y => fmax_eq, fun x => (fabs_parts x).1, ?_⟩
  intro c p s i e a hmute hphase hothers hset hw ha hgeo hgain
  have hsounding : (s.part p).slots[i.val].phase ≠ .free ∧ (s.part p).slots[i.val].phase ≠ .done := by
    rcases hphase with h | ⟨h, -⟩ <;> simp [h]
  have houtput : fmag (tickVoice c s p (s.part p).slots[i.val]).y = fmag a :=
    fmag_voiceStep_of_const hset hgeo hw ha (envLevel_full hphase) hgain
  have hpeak : ((tick c p s).part p).peak = fmax (s.part p).peak (fabs a) := by
    rw [peak_tick hmute, sumVoices_tick_of_single hsounding.1 hsounding.2 hothers]
    refine congrArg (fmax _) (fabs_congr ?_)
    rw [fmag_zero_fadd (by decide) ((isFinite_congr houtput).trans ha), houtput]
  have habs : isNaN (fabs a) = false := (isNaN_fabs a).trans ((isFinite_iff a).mp ha).1
  have hmax : isNaN (s.part p).peak = false →
      ((tick c p s).part p).peak = if |fval a| < fval (s.part p).peak then (s.part p).peak else fabs a := fun hold => by
    rw [hpeak, fmax_eq hold habs, (fabs_parts a).1]
  refine ⟨hpeak, hmax, fun hbits => ?_⟩
  have hzero : (s.part p).peak = F32.zero := congrArg F32.mk hbits
  have hcmp : ¬ |fval a| < fval F32.zero := not_lt.mpr (abs_nonneg (fval a))
  rw [hmax (by rw [hzero]; decide), hzero, if_neg hcmp]

end Sys2Proof.Machine
end

section
/-! SUPPORT. Everything a command can write, said once: the state it leaves is the old one with named fields replaced
(rules R22 to R35). The frames of rule R35 and the invariant of rule R36 follow by cases on `Effect`. -/

namespace Sys2Proof.Machine

/-- What an admitted command makes of the part it names, TICK apart (rules R141 to R156, R213). -/
inductive PartEdit (s : State) (p : PartIx) : Instr → Part → Prop where
  | noteOn (a b : Byte) (k v : BitVec 7) (set : BitVec 24) (hset : noteSet Config.hw s p k = some set) :
    PartEdit s p (.noteOn p a b) (startNote Config.hw k v set (s.part p))
  | noteOff (a : Byte) (k : BitVec 7) : PartEdit s p (.noteOff p a) (stopNote k (s.part p))
  | ctrl (a b : Byte) (c v : BitVec 7) (hc : a.toNat ≤ 127 ∧ c = a.setWidth 7) :
    PartEdit s p (.ctrl p a b) (controlChange c v (s.part p))
  | prog (a b : Byte) (i : BitVec 16) (m : Mode) : PartEdit s p (.prog p a b) { s.part p with prog := i, mode := m }
  | chpress (a : Byte) (v : BitVec 7) : PartEdit s p (.chpress p a) { s.part p with chp := v }
  | polypress (a b : Byte) (pressures : Vector (BitVec 7) 128) :
    PartEdit s p (.polypress p a b) { s.part p with pkp := pressures }
  | bend (a b : Byte) (v : BitVec 14) : PartEdit s p (.bend p a b) { s.part p with bend := v }
  | alloff : PartEdit s p (.alloff p) ((s.part p).mapSlots killOccupied).clearHeld
  | preset : PartEdit s p (.preset p) (restoreDefaults p (holdPedal 0 (s.part p)))
  | mute (a : Byte) (m : Bool) : PartEdit s p (.mute p a) (setMute m (s.part p))
  | setparam (a b : Byte) (id : Fin Config.numParams) (hv : legalValue id b = true) :
    PartEdit s p (.setparam p a b) ((s.part p).setParam id.val b)
  | peak : PartEdit s p (.peak p) { s.part p with peak := F32.zero }

/-- The slots a TICK leaves (rule R208). -/
def tickedSlots (c : Cfg) (s : State) (p : PartIx) : Vector Slot Config.numSlots :=
  mapVec (fun t => freeIfDone (stepSlot (tickVoice c s p) t)) (tickSlots s p)

/-- What a command can write, from state `s`. -/
inductive Effect (i : Instr) (s : State) : State → Prop where
  | answered (r : Word) : Effect i s (complete r s)
  | rejected : Effect i s (reject s)
  | generation (a : BitVec 2) (g : Fin Config.numGens) (hi : i = .decSetgen a) :
    Effect i s (complete 0 { s with gen := g })
  | loaded (l : Loaded) (hi : i = .decStart) (hs : s.dstate ≠ .ready)
    (hl : load Config.hw s.romFiles s.smeta s.gen = .ok l) : Effect i s (complete 0 (commitLoad l s))
  | aborted (e : ECode) (r : Word) (hi : i = .decStart) (hs : s.dstate ≠ .ready)
    (he : load Config.hw s.romFiles s.smeta s.gen = .error e) : Effect i s (complete r (abortLoad e s))
  | selected (k : BitVec 24) (hi : i = .decSel k) : Effect i s (complete 0 { s with ssel := k })
  | transposed (v : Byte) (hi : i = .setXpose v) (hv : v.toNat ≤ 127) : Effect i s (complete 0 { s with xpose := v })
  | edited (p : PartIx) (P : Part) (r : Word) (hp : instrPart i = some p) (hP : PartEdit s p i P) :
    Effect i s (complete r (s.setPart p P))
  | ticked (p : PartIx) (hi : i = .tick p) (m x : F32) (faulted : Bool) (r : Word) :
    Effect i s (complete r { s.setPart p { s.part p with slots := tickedSlots Config.hw s p, peak := x } with
      mix := m, vfault := s.vfault || faulted })
  | mixCleared (hi : i = .mixClear) : Effect i s (complete 0 { s with mix := F32.zero })

/-- A dropped command writes nothing but its result (rule R234). -/
theorem Effect.dropped (i : Instr) (s : State) : Effect i s (drop s) := .answered 0

theorem effect_decStart (s : State) : Effect .decStart s (decStart Config.hw s) := by
  unfold decStart
  split
  · exact .rejected
  · next hs =>
    split
    · next l hl => exact .loaded l rfl hs hl
    · next e he => exact .aborted e _ rfl hs he

theorem effect_noteOn (p : PartIx) (a b : Byte) (s : State) :
    Effect (.noteOn p a b) s (noteOn Config.hw p a b s) := by
  rcases noteOn_cases Config.hw p a b s with h | ⟨k, v, set, -, -, hset, -, h⟩
  · exact h ▸ .dropped _ s
  · exact h ▸ .edited p _ 0 rfl (.noteOn a b k v set hset)

theorem effect_tick (p : PartIx) (s : State) : Effect (.tick p) s (tick Config.hw p s) :=
  tick_eq Config.hw p s ▸ .ticked p rfl _ _ _ _

/-- A command answers a state that its effect allows. -/
theorem exec_effect {i : Instr} {s t : State} (h : exec i s = .next t) : Effect i s t := by
  cases i with
  | nop => cases h; exact .answered 0
  | decSetgen a =>
    cases h
    split
    · exact .rejected
    · next g _ => exact .generation a g rfl
  | decStart => cases h; exact effect_decStart s
  | decStatus => cases h; exact .answered _
  | decAddr _ => cases h; exact .answered _
  | decData _ => cases h; exact .answered _
  | decBank a =>
    cases h
    unfold decBank
    split
    · exact .rejected
    · exact .answered _
  | decMeta idx =>
    cases h
    split
    · split
      · exact .answered _
      · exact .rejected
    · exact .rejected
  | decSel k => cases h; exact .selected k rfl
  | decRead k =>
    cases h
    split
    · exact .rejected
    · split
      · exact .rejected
      · exact .answered _
  | decInfo f =>
    cases h
    split
    · split
      · exact .rejected
      · exact .answered _
    · split
      · exact .answered _
      · split
        · exact .answered _
        · exact .rejected
  | noteOn p a b => cases h; exact effect_noteOn p a b s
  | noteOff p a =>
    cases h
    split
    · exact .dropped _ s
    · next k _ => exact .edited p _ 0 rfl (.noteOff a k)
  | ctrl p a b =>
    cases h
    split
    · next c v hc hv => exact .edited p _ 0 rfl (.ctrl a b c v (midi7_some hc))
    · exact .dropped _ s
  | prog p a b =>
    cases h
    unfold setProgram
    dsimp only
    split
    · exact .edited p _ 0 rfl (.prog a b _ _)
    · exact .dropped _ s
  | chpress p a =>
    cases h
    split
    · exact .dropped _ s
    · next v _ => exact .edited p _ 0 rfl (.chpress a v)
  | polypress p a b =>
    cases h
    split
    · exact .edited p _ 0 rfl (.polypress a b _)
    · exact .dropped _ s
  | bend p a b =>
    cases h
    split
    · exact .edited p _ 0 rfl (.bend a b _)
    · exact .dropped _ s
  | alloff p => cases h; exact .edited p _ 0 rfl .alloff
  | preset p => cases h; exact .edited p _ 0 rfl .preset
  | mute p a =>
    cases h
    split
    · exact .edited p _ 0 rfl (.mute a _)
    · exact .rejected
  | setparam p a b =>
    cases h
    split
    · exact .rejected
    · split
      · next hv => exact .edited p _ 0 rfl (.setparam a b _ hv)
      · exact .rejected
  | getparam p a =>
    cases h
    split
    · exact .answered _
    · split
      · exact .answered _
      · exact .rejected
  | heldq p a =>
    cases h
    split
    · exact .rejected
    · exact .answered _
  | voiceq p a =>
    cases h
    split
    · exact .rejected
    · exact .answered _
  | pkpq p a =>
    cases h
    split
    · exact .rejected
    · exact .answered _
  | tick p => cases h; exact effect_tick p s
  | peak p => cases h; exact .edited p _ _ rfl .peak
  | mixClear => cases h; exact .mixCleared rfl
  | mixRead => cases h; exact .answered _
  | setXpose v =>
    cases h
    split
    · next hv => exact .transposed v rfl hv
    · exact .rejected

/-- A data value is legal in every register a controller copies it to (rules R27, R146). -/
theorem legalParam_of_midi (v : BitVec 7) {id : Byte} (h : id ∈ [(0x01 : Byte), 0x02, 0x03, 0x04, 0x17]) :
    legalParam id (v.setWidth 8) = true := by
  have hv : decide ((v.setWidth 8).toNat ≤ 127) = true := by
    rw [BitVec.toNat_setWidth, decide_eq_true_eq]
    omega
  simp only [List.mem_cons, List.not_mem_nil, or_false] at h
  rcases h with rfl | rfl | rfl | rfl | rfl <;> exact hv

/-- A controller change runs the pedal, writes one parameter register with a legal value, or writes MOD or EXPR (rule
R146). -/
theorem controlChange_cases (c v : BitVec 7) (P : Part) :
    (c.toNat = 64 ∧ controlChange c v P = holdPedal v P) ∨
    (∃ id b, legalParam (BitVec.ofNat 8 id) b = true ∧ controlChange c v P = P.setParam id b) ∨
    ∃ m e, controlChange c v P = { P with mod := m, expr := e } := by
  unfold controlChange
  split
  · exact .inr (.inr ⟨v, P.expr, rfl⟩)
  · exact .inr (.inl ⟨_, _, legalParam_of_midi v (by decide), rfl⟩)
  · exact .inr (.inl ⟨_, _, legalParam_of_midi v (by decide), rfl⟩)
  · exact .inr (.inl ⟨_, _, legalParam_of_midi v (by decide), rfl⟩)
  · exact .inr (.inr ⟨P.mod, v, rfl⟩)
  · next h => exact .inl ⟨h, rfl⟩
  · exact .inr (.inl ⟨_, _, by cases switchOn v <;> rfl, rfl⟩)
  · exact .inr (.inl ⟨_, _, legalParam_of_midi v (by decide), rfl⟩)
  · exact .inr (.inl ⟨_, _, legalParam_of_midi v (by decide), rfl⟩)
  · exact .inr (.inr ⟨P.mod, P.expr, rfl⟩)

/-- A part command outside the list of rule R35 leaves the slots of its part. -/
theorem PartEdit.slots_eq {s : State} {p : PartIx} {i : Instr} {P : Part} (h : PartEdit s p i P)
    (hi : changesSlots i = false) : P.slots = (s.part p).slots := by
  cases h with
  | noteOn | noteOff | alloff | preset => cases hi
  | prog | chpress | polypress | bend | mute | setparam | peak => rfl
  | ctrl a b c v hc =>
    obtain ⟨ha, rfl⟩ := hc
    rcases controlChange_cases (a.setWidth 7) v (s.part p) with ⟨h64, -⟩ | ⟨id, w, -, h⟩ | ⟨m, e, h⟩
    · rw [toNat_setWidth7 ha] at h64
      rw [show a = 64 from BitVec.eq_of_toNat_eq h64] at hi
      cases hi
    · rw [h, setParam_slots]
    · rw [h]

/-- Settles O13, by cases on what a command can write. -/
theorem onlyDecStartChangesTheDecodedData : Obligations.OnlyDecStartChangesTheDecodedData := by
  intro i s t h
  have hsame : sameDecoder s s := ⟨rfl, rfl, rfl, rfl, rfl, rfl, rfl⟩
  cases exec_effect h with
  | loaded l hi | aborted e r hi => exact ⟨fun hne => absurd hi hne, rfl, rfl, rfl⟩
  | answered | rejected | generation | selected | transposed | edited | ticked | mixCleared =>
    exact ⟨fun _ => hsame, rfl, rfl, rfl⟩

/-- A command that replaces one part, and its slots only if rule R35 lists it, leaves every other part and the other
slots. -/
theorem part_setPart_frame {i : Instr} {s : State} {p q : PartIx} {P : Part} (hp : instrPart i = some p)
    (hslots : changesSlots i = false → P.slots = (s.part p).slots) :
    (instrPart i ≠ some q → (s.setPart p P).part q = s.part q) ∧
      (changesSlots i = false → ((s.setPart p P).part q).slots = (s.part q).slots) := by
  rcases eq_or_ne q p with rfl | hne
  · exact ⟨fun h => absurd hp h, fun hi => by rw [part_setPart_self]; exact hslots hi⟩
  · rw [part_setPart_ne s hne P]
    exact ⟨fun _ => rfl, fun _ => rfl⟩

/-- Settles O14: the effects that replace a part are those of the commands that name it. -/
theorem commandsTouchOnlyTheirPart : Obligations.CommandsTouchOnlyTheirPart := by
  intro i s t q h
  cases exec_effect h with
  | edited p P r hp hP => exact part_setPart_frame hp hP.slots_eq
  | ticked p hi =>
    subst hi
    exact part_setPart_frame (i := .tick p) rfl fun hi => nomatch hi
  | answered | rejected | generation | loaded | aborted | selected | transposed | mixCleared =>
    exact ⟨fun _ => rfl, fun _ => rfl⟩

/-- Settles O15: each register's writers are the effects that replace it. -/
theorem globalRegistersHaveTheirWriters : Obligations.GlobalRegistersHaveTheirWriters := by
  intro i s t h
  cases exec_effect h with
  | generation a g hi => simp [hi]
  | selected k hi => simp [hi]
  | transposed v hi => simp [hi]
  | ticked p hi => simpa [hi] using .inl
  | mixCleared hi => simp [hi]
  | answered | rejected | loaded | aborted | edited => simp

end Sys2Proof.Machine
end

section
/-! SUPPORT. The envelope keeps its range (rules R181 to R188): ENV_NORMALIZE ends inside a phase, and the level of an
envelope in range is in [0.0, 1.0]. -/

namespace Sys2Proof.Machine

/-! ### The phases (rule R182) -/

/-- How many times `next(phase)` can be taken before a phase without a duration (rule R182). -/
def phasesLeft : Phase → Nat
  | .attack => 3
  | .hold => 2
  | .decay => 1
  | .release => 1
  | .sustain => 0
  | .done => 0
  | .free => 0

/-- A phase with a duration has a next one, which is nearer the end. -/
theorem phasesLeft_envNext {t : Slot} {d : BitVec 24} (h : envDur t = some d) :
    phasesLeft (envNext t.phase) < phasesLeft t.phase := by
  cases hp : t.phase <;> simp [envDur, hp, phasesLeft, envNext] at h ⊢

/-- The loop of ENV_NORMALIZE ends inside a phase when it may run as often as there are phases left. -/
theorem envTimed_envLoop {n : Nat} {t : Slot} (hn : phasesLeft t.phase ≤ n)
    (h : (envDur t).isSome = true ∨ t.cnt = 0) : EnvTimed (envLoop n t) := by
  induction n generalizing t with
  | zero =>
    have hd : envDur t = none := by
      by_contra hd
      obtain ⟨d, hd⟩ := Option.ne_none_iff_exists'.mp hd
      have := phasesLeft_envNext hd
      omega
    simpa [envLoop, EnvTimed, hd] using h
  | succ n ih =>
    simp only [envLoop]
    split
    · next hd => simpa [EnvTimed, hd] using h
    · next d hd =>
      split
      · have := phasesLeft_envNext hd
        exact ih (t := { t with phase := envNext t.phase, cnt := 0 }) (by simp only; omega) (.inr rfl)
      · next hlt => simpa [EnvTimed, hd] using hlt

/-- ENV_NORMALIZE ends inside a phase (rule R182). -/
theorem envTimed_envNormalize {t : Slot} (h : (envDur t).isSome = true ∨ t.cnt = 0) : EnvTimed (envNormalize t) :=
  envTimed_envLoop (by cases t.phase <;> decide) h

/-- ENV_ADVANCE keeps the counter inside its phase (rule R185). -/
theorem EnvTimed.envAdvance {t : Slot} (h : EnvTimed t) : EnvTimed (envAdvance t) := by
  cases hd : envDur t with
  | none => rwa [(env_stays_of_none hd).2]
  | some d =>
    simp only [Machine.envAdvance, hd]
    exact envTimed_envNormalize (.inl (by rw [show envDur { t with cnt := t.cnt + 1 } = some d from hd]; rfl))

/-! ### The level (rules R184, R188) -/

/-- The encoding of 1.0 is 2^149 units. -/
theorem magUnits_one : magUnits 0x3F800000 = 2 ^ 149 := by decide

theorem inUnit_iff (x : F32) : InUnit x ↔ fsign x = false ∧ fmag x ≤ 0x3F800000 := by
  have hb := x.bits.isLt
  simp only [InUnit, fsign, fmag, BitVec.msb_eq_decide, decide_eq_false_iff_not]
  omega

theorem inUnit_zero : InUnit F32.zero := by unfold InUnit; decide

theorem inUnit_one : InUnit F32.one := by unfold InUnit; decide

/-- A value in [0.0, 1.0] is finite, not negative, and of at most 2^149 units. -/
theorem InUnit.parts {x : F32} (h : InUnit x) :
    isFinite x = true ∧ fsign x = false ∧ fval x = funits x ∧ funits x ≤ 2 ^ 149 := by
  obtain ⟨hs, hm⟩ := (inUnit_iff x).mp h
  refine ⟨decide_eq_true (lt_of_le_of_lt hm (by decide)), hs, by simp [fval, hs], ?_⟩
  rw [funits_eq, ← magUnits_one]
  rcases Nat.lt_or_eq_of_le hm with hlt | heq
  · exact (magUnits_lt hlt (by decide)).le
  · rw [heq]

/-- A ratio of at most 1 rounds into [0.0, 1.0] when it is packed without a sign. -/
theorem inUnit_fpack {num den : Nat} (hd : 0 < den) (h : num ≤ 2 ^ 149 * den) :
    InUnit (fpack false (roundMag num den)) := by
  rw [inUnit_iff, fsign_fpack _ (roundMag_lt ..), fmag_fpack _ (roundMag_lt ..)]
  exact ⟨rfl, roundMag_le hd (magUnits_one ▸ h)⟩

theorem inUnit_fmul {x y : F32} (hx : InUnit x) (hy : InUnit y) : InUnit (fmul x y) := by
  obtain ⟨hxf, hxs, -, hxu⟩ := hx.parts
  obtain ⟨hyf, hys, -, hyu⟩ := hy.parts
  rw [fmul_of_finite hxf hyf, hxs, hys]
  exact inUnit_fpack (Nat.two_pow_pos 149) (Nat.mul_le_mul hxu hyu)

/-- 1.0 minus a value in [0.0, 1.0] is one. -/
theorem inUnit_one_fsub {x : F32} (hx : InUnit x) : InUnit (fsub F32.one x) := by
  obtain ⟨hxf, hxs, hxv, hxu⟩ := hx.parts
  have hone : fval F32.one = 2 ^ 149 := by decide
  obtain ⟨hval, -, hsign⟩ := fneg_parts x
  rw [fsub, fadd_of_finite (by decide) ((isFinite_fneg x).trans hxf), hval, hsign, hxs, hone, hxv]
  have hneg : (if (2 ^ 149 + -(funits x : Int)) = 0 then fsign F32.one && !false
      else decide (2 ^ 149 + -(funits x : Int) < 0)) = false := by
    split
    · decide
    · rw [decide_eq_false_iff_not]; omega
  rw [hneg]
  exact inUnit_fpack Nat.one_pos (by omega)

/-- A counter below its duration is a ratio in [0.0, 1.0] (rule R184). -/
theorem inUnit_envRatio {cnt d : BitVec 24} (h : cnt.toNat < d.toNat) : InUnit (envRatio cnt d) := by
  have hexact : ∀ n : BitVec 24, isFinite (f32OfInt n.toNat) = true ∧ fsign (f32OfInt n.toNat) = false ∧
      funits (f32OfInt n.toNat) = n.toNat * 2 ^ 149 := fun n => by
    obtain ⟨hfin, hval⟩ := f32OfInt_exact (n := n.toNat) (m := n.toNat) (k := 0) (by simp) n.isLt (by decide)
    refine ⟨hfin, ?_, ?_⟩
    · rw [f32OfInt, f32OfRat, fsign_fpack _ (roundMag_lt ..)]
      simp
    · rw [← natAbs_fval, hval]
      omega
  obtain ⟨hcf, hcs, hcu⟩ := hexact cnt
  obtain ⟨hdf, hds, hdu⟩ := hexact d
  have hpos : 0 < funits (f32OfInt d.toNat) := by rw [hdu]; omega
  rw [envRatio, fdiv_of_finite hcf hdf hpos.ne', hcs, hds]
  refine inUnit_fpack hpos ?_
  rw [Nat.mul_comm]
  exact Nat.mul_le_mul_left _ (by rw [hcu, hdu]; omega)

/-- The level of an envelope in range is in [0.0, 1.0] (rule R188). -/
theorem inUnit_envLevel {t : Slot} (ht : EnvTimed t) (hsus : InUnit t.sus) (hrl : InUnit t.rl) :
    InUnit (envLevel t) := by
  have hratio : ∀ {d : BitVec 24}, envDur t = some d → InUnit (envRatio t.cnt d) := fun hd =>
    inUnit_envRatio (by simpa [EnvTimed, hd] using ht)
  unfold envLevel
  split
  · next hp => exact hratio (by simp [envDur, hp])
  · exact inUnit_one
  · next hp => exact inUnit_one_fsub (inUnit_fmul (inUnit_one_fsub hsus) (hratio (by simp [envDur, hp])))
  · exact hsus
  · next hp => exact inUnit_fmul hrl (inUnit_one_fsub (hratio (by simp [envDur, hp])))
  · exact inUnit_zero
  · exact inUnit_zero

end Sys2Proof.Machine
end

section
/-! SUPPORT. What a successful load guarantees (rules R24, R25, R110, R121): finite values, the length of each set, and an
image inside its banks. -/

namespace Sys2Proof.Machine

/-! ### The values are finite (rule R121) -/

/-- A rounded sum is at least as near the exact one as the first operand is, so it exceeds that operand in magnitude by at
most twice the second. -/
theorem fadd_bound {x d : F32} (hx : isFinite x = true) (hd : isFinite d = true)
    (h : |fval x| + |fval d| < 0x1FFFFFF * 2 ^ 252) :
    isFinite (fadd x d) = true ∧ |fval (fadd x d)| ≤ |fval x| + 2 * |fval d| := by
  have hr := fadd_roundsTo hx hd
  have hfin : isFinite (fadd x d) = true := hr.finite (by
    rw [abs_one, mul_one]
    exact lt_of_le_of_lt (abs_add_le _ _) h)
  have hnear := hr.nearest hfin x hx
  rw [mul_one, mul_one, show fval x - (fval x + fval d) = -fval d by ring, abs_neg] at hnear
  refine ⟨hfin, ?_⟩
  calc |fval (fadd x d)| = |(fval (fadd x d) - (fval x + fval d)) + (fval x + fval d)| := by rw [sub_add_cancel]
    _ ≤ |fval (fadd x d) - (fval x + fval d)| + |fval x + fval d| := abs_add_le _ _
    _ ≤ |fval d| + (|fval x| + |fval d|) := add_le_add hnear (abs_add_le _ _)
    _ = |fval x| + 2 * |fval d| := by ring

/-- A delta is at most 1.0 in magnitude (rule R108). -/
theorem abs_fval_delta (b : Byte) (n : BitVec 4) : |fval (delta b n)| ≤ 2 ^ 149 := by
  obtain ⟨hlo, hhi⟩ := deltaFixed_range b n
  rw [(delta_exact b n).2, abs_le]
  omega

/-- The values of a DPCM decode are finite: each position adds at most 2.0 to the magnitude, and there are too few of them
to overflow. -/
theorem finite_of_dpcmFrom {plain : Memory} {size count a k : Nat} {x : F32} {ws : List F32}
    (h : dpcmFrom plain size count a x = .ok ws) (hx : isFinite x = true) (hk : |fval x| ≤ k * 2 ^ 150)
    (hcount : k + count ≤ 2 ^ 32) : ∀ w ∈ ws, isFinite w = true := by
  induction count generalizing a k x ws with
  | zero => cases h; simp
  | succ count ih =>
    obtain ⟨-, rest, rfl, hrest⟩ := dpcmFrom_succ_ok h
    have hd : isFinite (deltaAt plain (BitVec.ofNat 32 a)) = true := (delta_exact _ _).1
    have hb : |fval (deltaAt plain (BitVec.ofNat 32 a))| ≤ 2 ^ 149 := abs_fval_delta _ _
    obtain ⟨hfin, hle⟩ := fadd_bound hx hd (by omega)
    rw [List.forall_mem_cons]
    exact ⟨hfin, ih hrest hfin (k := k + 1) (by push_cast; omega) (by omega)⟩

/-- A DPCM decode from +0.0 yields one finite value for each position (rules R107, R121). -/
theorem dpcmDecode_sound {plain : Memory} {size : Nat} {r len : BitVec 32} {w : List F32}
    (h : dpcmDecode plain size r len = .ok w) : w.length = len.toNat + 1 ∧ ∀ x ∈ w, isFinite x = true :=
  ⟨dpcmFrom_length h, finite_of_dpcmFrom h (k := 0) (by decide) (by decide) (by omega)⟩

/-! ### The sample sets (rules R25, R110) -/

/-- An unwrapped ping-pong record is a good sample set (rule R110). -/
theorem setOk_of_pingpong {w : List F32} {m : SampleMeta} {e : SampleSet} (h : pingpongUnwrap w m = .ok e)
    (hlen : w.length = m.sampleLength.toNat + 1) (hfin : ∀ x ∈ w, isFinite x = true) : SetOk e := by
  obtain ⟨hle, hlt, hw, hs, -, -, hmode⟩ := pingpongUnwrap_ok h
  refine ⟨?_, by rw [hmode]; decide, ?_⟩
  · rw [setLen, hs, BitVec.toNat_ofNat, Nat.mod_eq_of_lt hlt, hw]
    simp only [List.length_append, List.length_map, List.length_range, hlen]
    omega
  · intro x hx
    rw [hw, List.mem_append, List.mem_map] at hx
    rcases hx with hx | ⟨i, -, rfl⟩
    · exact hfin x hx
    · have hi : m.sampleLength.toNat - i < w.length := by omega
      rw [isFinite_fneg, List.getD_eq_getElem _ _ hi]
      exact hfin _ (List.getElem_mem hi)

/-- A record that decodes gives a good sample set (rules R25, R121). -/
theorem setOk_of_decodeOne {c : Cfg} {plain : Memory} {nb : Nat} {g : Fin Config.numGens} {m : SampleMeta}
    {e : SampleSet} (h : decodeOne c plain nb g m = .ok e) : SetOk e := by
  obtain ⟨r, w, -, hw, ⟨-, hp⟩ | ⟨hmode, rfl⟩⟩ := decodeOne_ok h
  · obtain ⟨hlen, hfin⟩ := dpcmDecode_sound hw
    exact setOk_of_pingpong hp hlen hfin
  · obtain ⟨hlen, hfin⟩ := dpcmDecode_sound hw
    exact ⟨hlen, hmode, hfin⟩

/-- The right elements of related lists are each related to some left one. -/
theorem forall_right_of_forall₂ {α β : Type} {R : α → β → Prop} {q : β → Prop} {xs : List α} {ys : List β}
    (h : List.Forall₂ R xs ys) (hq : ∀ x y, R x y → q y) : ∀ y ∈ ys, q y := by
  induction h with
  | nil => simp
  | cons hxy _ ih => exact List.forall_mem_cons.mpr ⟨hq _ _ hxy, ih⟩

/-! ### The image (rules R24, R51, R58) -/

/-- The concatenated bytes are inside the image (rule R51). -/
theorem concatFrom_lt {at0 : Nat} {files : List RomFile} {x : Host.Cell} (h : x ∈ concatFrom at0 files) :
    x.1 < at0 + imageSize files := by
  induction files generalizing at0 with
  | nil => simp [concatFrom] at h
  | cons f rest ih =>
    have hsize : imageSize (f :: rest) = f.size + imageSize rest := by simp [imageSize]
    rw [concatFrom, List.mem_append, List.mem_map] at h
    rcases h with ⟨y, hy, rfl⟩ | h
    · have := of_decide_eq_true (List.mem_filter.mp hy).2
      simp only
      omega
    · have := ih h
      omega

/-- The image of files that pass their checks is a whole number of banks. -/
theorem bankSize_dvd_imageSize {files : List RomFile} (h : ∀ f ∈ files, f.size % Config.bankSize = 0) :
    Config.bankSize ∣ imageSize files := by
  refine List.dvd_sum fun n hn => ?_
  obtain ⟨f, hf, rfl⟩ := List.mem_map.mp hn
  exact Nat.dvd_of_mod_eq_zero (h f hf)

/-- A raw byte gives plain bytes of its own bank only (rule R58). -/
theorem plainCells_bank {c : Cfg} {x y : Host.Cell} (h : y ∈ plainCells c x) :
    y.1 / Config.bankSize = x.1 / Config.bankSize := by
  simp only [plainCells, List.mem_append] at h
  rcases h with h | h
  · split at h
    · rw [List.mem_singleton.mp h]
    · cases h
  · split at h
    · cases h
    · have ho := (permuteAddr c.addrPerm.symm (BitVec.ofNat 20 (x.1 % Config.bankSize))).isLt
      rw [List.mem_singleton.mp h]
      change (x.1 / 2 ^ 20 * 2 ^ 20 + _) / 2 ^ 20 = x.1 / 2 ^ 20
      omega

/-- A memory made from a list of bytes lists no other byte. -/
theorem mem_of_mem_ofCells {cells : List Host.Cell} {x : Host.Cell} (h : x ∈ Memory.ofCells cells) : x ∈ cells := by
  suffices hfold : ∀ (cells : List Host.Cell) (m : Memory),
      x ∈ cells.foldl (fun m c => Memory.write m c.1 c.2) m → x ∈ m ∨ x ∈ cells by
    simpa using hfold cells [] h
  intro cells
  induction cells with
  | nil => exact fun m h => .inl h
  | cons d cells ih =>
    intro m h
    rcases ih _ h with h | h
    · rcases Memory.mem_write h with ⟨rfl, -⟩ | h
      · exact .inr (List.mem_cons_self ..)
      · exact .inl h
    · exact .inr (List.mem_cons_of_mem _ h)

/-- The descrambled image has no byte past the banks of the raw one. -/
theorem descramble_lt {c : Cfg} {raw : Memory} {nb : Nat} (h : ∀ x ∈ raw, x.1 < nb * Config.bankSize) :
    ∀ y ∈ descramble c raw, y.1 < nb * Config.bankSize := by
  intro y hy
  obtain ⟨x, hx, hxy⟩ := List.mem_flatMap.mp (mem_of_mem_ofCells hy)
  have hraw : x.1 / Config.bankSize < nb := Nat.div_lt_of_lt_mul (by rw [Nat.mul_comm]; exact h x hx)
  rw [← plainCells_bank hxy] at hraw
  exact (Nat.div_lt_iff_lt_mul (Nat.two_pow_pos 20)).mp hraw

/-! ### The load -/

/-- A load that succeeds makes a good table and an image of 1 to 16 banks, with no byte past its end. -/
theorem load_sound {c : Cfg} {entries : List RomEntry} {records : List SampleMeta} {g : Fin Config.numGens} {l : Loaded}
    (h : load c entries records g = .ok l) :
    l.ss.length = records.length ∧ (∀ e ∈ l.ss, SetOk e) ∧ Memory.wf l.plain ∧ 0 < l.nbanks ∧
      l.nbanks ≤ Config.maxBanks ∧ ∀ x ∈ l.plain, x.1 < l.nbanks * Config.bankSize := by
  obtain ⟨files, hv, hplain, -, -, hss⟩ := load_ok h
  obtain ⟨-, hfiles, hnb, hpos, hmax⟩ := validateInputs_ok hv
  obtain ⟨-, hsizes⟩ := checkFiles_ok hfiles
  have hdecoded := decodeAll_ok hss
  have himage : imageSize files = l.nbanks * Config.bankSize := by
    rw [hnb, Nat.div_mul_cancel (bankSize_dvd_imageSize hsizes)]
  have hraw : ∀ x ∈ rawImage files, x.1 < l.nbanks * Config.bankSize := fun x hx => by
    have := concatFrom_lt hx
    omega
  exact ⟨hdecoded.length_eq.symm, forall_right_of_forall₂ hdecoded fun _ _ => setOk_of_decodeOne,
    hplain ▸ descramble_wf c _, hpos, hmax, hplain ▸ descramble_lt hraw⟩

/-- Settles O32. -/
theorem successfulLoadMakesAGoodTable : Obligations.SuccessfulLoadMakesAGoodTable := by
  intro c entries records g l h
  obtain ⟨hlen, hsets, hwf, hpos, hmax, hinside⟩ := load_sound h
  exact ⟨hlen, hsets, hwf, hpos, hmax, fun _ => hinside⟩

/-! ### The errors (rule R231) -/

theorem checkFiles_error {entries : List RomEntry} {e : ECode} (h : checkFiles entries = .error e) : e ≠ .none := by
  induction entries with
  | nil => cases h
  | cons entry rest ih =>
    cases entry with
    | unreadable => cases h; decide
    | file f =>
      simp only [checkFiles] at h
      split at h
      · split at h
        · cases h
        · next err herr => cases h; exact ih herr
      · cases h; decide

theorem validateInputs_error {entries : List RomEntry} {e : ECode} (h : validateInputs entries = .error e) :
    e ≠ .none := by
  unfold validateInputs at h
  split at h
  · cases h; decide
  · split at h
    · next err herr => cases h; exact checkFiles_error herr
    · dsimp only at h
      split at h
      · cases h; decide
      · cases h

theorem dpcmFrom_error {plain : Memory} {size count a : Nat} {x : F32} {e : ECode}
    (h : dpcmFrom plain size count a x = .error e) : e ≠ .none := by
  induction count generalizing a x with
  | zero => cases h
  | succ count ih =>
    simp only [dpcmFrom] at h
    split at h
    · cases h; decide
    · split at h
      · cases h
      · next err herr => cases h; exact ih herr

theorem pingpongUnwrap_error {w : List F32} {m : SampleMeta} {e : ECode} (h : pingpongUnwrap w m = .error e) :
    e ≠ .none := by
  simp only [pingpongUnwrap] at h
  split at h
  · cases h; decide
  · split at h
    · cases h; decide
    · cases h

theorem decodeOne_error {c : Cfg} {plain : Memory} {nb : Nat} {g : Fin Config.numGens} {m : SampleMeta} {e : ECode}
    (h : decodeOne c plain nb g m = .error e) : e ≠ .none := by
  unfold decodeOne at h
  split at h
  · cases h; decide
  · split at h
    · next err herr => cases h; exact dpcmFrom_error herr
    · split at h
      · exact pingpongUnwrap_error h
      · cases h

theorem decodeAll_error {c : Cfg} {plain : Memory} {nb : Nat} {g : Fin Config.numGens} {records : List SampleMeta}
    {e : ECode} (h : decodeAll c plain nb g records = .error e) : e ≠ .none := by
  induction records with
  | nil => cases h
  | cons m rest ih =>
    simp only [decodeAll] at h
    split at h
    · next err herr => cases h; exact decodeOne_error herr
    · split at h
      · cases h
      · next err herr => cases h; exact ih herr

/-- A load that fails reports one of the codes of rule R231, never the code of no error. -/
theorem load_error {c : Cfg} {entries : List RomEntry} {records : List SampleMeta} {g : Fin Config.numGens} {e : ECode}
    (h : load c entries records g = .error e) : e ≠ .none := by
  unfold load at h
  split at h
  · next err herr => cases h; exact validateInputs_error herr
  · dsimp only at h
    split at h
    · next err herr => cases h; exact decodeAll_error herr
    · cases h

end Sys2Proof.Machine
end

section
/-! SUPPORT. The note an admitted NOTE_ON starts, and the slot it takes (rules R141 to R144, R183). -/

namespace Sys2Proof.Machine

/-- The phase ENV_START ends in: the first whose duration is not 0, else SUSTAIN (rules R182, R183). -/
def firstPhase (e : EnvParams) : Phase :=
  if e.tA ≠ 0 then .attack else if e.tH ≠ 0 then .hold else if e.tD ≠ 0 then .decay else .sustain

/-- NOTE_INIT, whole (rules R144, R183). -/
theorem newNote_eq (e : EnvParams) (snap : Snap) (key vel : BitVec 7) (sset : BitVec 24) :
    newNote e snap key vel sset = {
      phase := firstPhase e, key := key, vel := vel, sset := sset, snap := snap, pos := 0, cnt := 0, tA := e.tA
      tH := e.tH, tD := e.tD, tR := e.tR, sus := unitValue e.sus, rl := F32.zero } := by
  have hzero : ∀ d : BitVec 24, d.toNat ≤ (0 : BitVec 24).toNat ↔ d = 0 := fun d => by
    rw [BitVec.toNat_eq]
    exact Nat.le_zero
  simp only [newNote, envStart, envNormalize, envLoop, envDur, envNext, hzero, firstPhase, ne_eq, ite_not]
  by_cases hA : e.tA = 0
  · by_cases hH : e.tH = 0
    · by_cases hD : e.tD = 0
      · simp only [hA, hH, hD, if_true]
      · simp only [hA, hH, hD, if_true, if_false]
    · simp only [hA, hH, if_true, if_false]
  · simp only [hA, if_false]

/-- The note that a NOTE_ON of `key` and `vel` starts on the sample set `x` of a part, field by field (rules R31, R144). -/
def IsNewNote (c : Cfg) (P : Part) (key vel : Byte) (x : BitVec 24) (note : Slot) : Prop :=
  note.key.toNat = key.toNat ∧ note.vel.toNat = vel.toNat ∧ note.sset = x ∧ note.snap.pr = P.pr ∧
    note.snap.prog = P.prog ∧ note.snap.mode = P.mode ∧ note.pos = 0 ∧ note.cnt = 0 ∧ note.rl.bits = 0 ∧
    ∀ e : EnvParams, c.envParams P.live x (key.setWidth 7) (vel.setWidth 7) = e →
      note.tA = e.tA ∧ note.tH = e.tH ∧ note.tD = e.tD ∧ note.tR = e.tR ∧ note.sus.bits.toNat = e.sus.val ∧
      note.phase = firstPhase e

theorem toNat_unitValue (u : UnitCode) : (unitValue u).bits.toNat = u.val := by
  have hu : u.val < 0x3F800001 := u.isLt
  change (BitVec.ofNat 32 u.val).toNat = u.val
  rw [BitVec.toNat_ofNat]
  omega

theorem isNewNote_newNote (c : Cfg) (P : Part) {key vel : Byte} (hk : key.toNat ≤ 127) (hv : vel.toNat ≤ 127)
    (x : BitVec 24) :
    IsNewNote c P key vel x
      (newNote (c.envParams P.live x (key.setWidth 7) (vel.setWidth 7)) P.snapshot (key.setWidth 7) (vel.setWidth 7) x) := by
  rw [newNote_eq]
  refine ⟨toNat_setWidth7 hk, toNat_setWidth7 hv, rfl, rfl, rfl, rfl, rfl, rfl, rfl, ?_⟩
  rintro e rfl
  exact ⟨rfl, rfl, rfl, rfl, toNat_unitValue _, rfl⟩

/-- A NOTE_ON that passes every check of rule R141 starts its note. -/
theorem noteOn_admitted {c : Cfg} {p : PartIx} {key vel : Byte} {x : BitVec 24} {s : State} (hk : key.toNat ≤ 127)
    (hv1 : 1 ≤ vel.toNat) (hv2 : vel.toNat ≤ 127) (hready : s.dstate = .ready)
    (hselect : c.sampleSelect (s.part p).live (key.setWidth 7) = some x) (hx : x.toNat < s.ss.length)
    (hbudget : notesKept (s.part p) < slotBudget (s.part p)) :
    noteOn c p key vel s =
      complete 0 (s.setPart p (startNote c (key.setWidth 7) (vel.setWidth 7) x (s.part p))) := by
  have hset : noteSet c s p (key.setWidth 7) = some x := by simp [noteSet, hready, hselect, hx]
  simp [noteOn, midi7_of_le hk, velocity7_of_le hv1 hv2, hset, Nat.not_le.mpr hbudget]

/-- The lowest-numbered free slot is free (rule R143). -/
theorem lowestFree_free {P : Part} (h : P.lowestFree < Config.numSlots) : P.slots[P.lowestFree].phase = .free := by
  have hfree : (!(P.slots.toList[P.lowestFree]'(by simpa using h)).occupied) = true :=
    List.findIdx_getElem (p := fun t : Slot => !t.occupied)
  simpa [Slot.occupied] using hfree

/-- The slots before the lowest-numbered free one are not free (rule R143). -/
theorem not_free_of_lt_lowestFree {P : Part} {j : Nat} (hj : j < P.lowestFree) (hn : j < Config.numSlots) :
    P.slots[j].phase ≠ .free := by
  have hocc := List.not_of_lt_findIdx (p := fun t : Slot => !t.occupied) (xs := P.slots.toList) hj
  simpa [Slot.occupied] using hocc

/-- A write inside the bounds needs no bounds check. -/
theorem setIfInBounds_eq_set {α : Type} {n i : Nat} {v : Vector α n} (h : i < n) (x : α) :
    v.setIfInBounds i x = v.set i x h := by
  ext j hj : 1
  rw [Vector.getElem_setIfInBounds, Vector.getElem_set]

/-- A note put in a part with a free slot takes the lowest-numbered one (rule R143). -/
theorem placeNote_eq {P : Part} {i : Nat} (hi : P.lowestFree = i) (h : i < Config.numSlots) (t : Slot) :
    placeNote t P = { P with slots := P.slots.set i t h } := by
  subst hi
  rw [placeNote, setIfInBounds_eq_set h]

/-- After MONO_CUT no slot is occupied (rule R142). -/
theorem monoCut_free (P : Part) {i : Nat} (hi : i < Config.numSlots) : (monoCut P).slots[i].phase = .free := by
  simp only [monoCut, mapSlots_slots, getElem_mapVec]
  split
  · rfl
  · next h => simpa [Slot.occupied] using h

/-- Settles O36: the note goes to the lowest-numbered free slot, which the budget leaves. -/
theorem noteOnStartsANote : Obligations.NoteOnStartsANote := by
  refine ⟨fun _ _ _ _ => rfl, ?_⟩
  intro c p key vel x s hk hv1 hv2 hready hselect hx hpoly hbudget
  have hmono : isMono (s.part p) = false := by simpa [isMono] using hpoly
  have hlt : (s.part p).lowestFree < Config.numSlots := lowestFree_lt (lt_of_lt_of_le hbudget (min_le_right ..))
  refine ⟨⟨(s.part p).lowestFree, hlt⟩, _, lowestFree_free hlt, fun j hj => not_free_of_lt_lowestFree hj j.isLt, ?_,
    isNewNote_newNote c (s.part p) hk hv2 x⟩
  rw [noteOn_admitted hk hv1 hv2 hready hselect hx (by simpa [notesKept, hmono, slotBudget] using hbudget)]
  simp only [startNote, hmono, Bool.false_eq_true, if_false]
  rw [placeNote_eq rfl hlt]
  rfl

/-- Settles O37: MONO_CUT frees every slot, so slot 0 is the lowest-numbered free one. -/
theorem monoNoteOnLeavesOneNote : Obligations.MonoNoteOnLeavesOneNote := by
  intro c p key vel x s hk hv1 hv2 hready hselect hx hzero hreserve
  have hmono : isMono (s.part p) = true := by simpa [isMono] using hzero
  have hlowest : (monoCut (s.part p)).lowestFree = 0 := by
    by_contra hne
    exact not_free_of_lt_lowestFree (Nat.pos_of_ne_zero hne) (by decide) (monoCut_free (s.part p) (by decide))
  have hbudget : notesKept (s.part p) < slotBudget (s.part p) := by
    have : (s.part p).pr[0x15].toNat ≠ 0 := fun h => hreserve (BitVec.eq_of_toNat_eq h)
    simp only [notesKept, hmono, slotBudget, if_true]
    exact lt_min (Nat.pos_of_ne_zero this) (by decide)
  refine ⟨(monoCut (s.part p)).slots.set 0 (newNote _ _ _ _ x), _, ?_, Vector.getElem_set_self .., ?_,
    isNewNote_newNote c (s.part p) hk hv2 x⟩
  · rw [noteOn_admitted hk hv1 hv2 hready hselect hx hbudget]
    simp only [startNote, hmono, if_true]
    rw [placeNote_eq hlowest (by decide)]
    rfl
  · intro i hi
    have hne : 0 ≠ i.val := fun h => hi (Fin.ext h.symm)
    rw [Vector.getElem_set_ne (by decide) i.isLt hne]
    exact monoCut_free _ i.isLt

end Sys2Proof.Machine
end

section
/-! SUPPORT. The pedal release and PRESET (rules R27, R28, R148, R154). -/

namespace Sys2Proof.Machine

/-- Lifting a pedal that is up does nothing (rule R148). -/
theorem pedalUp_of_up {P : Part} (h : P.hold = false) : pedalUp P = P := by
  simp [pedalUp, h]

/-- Lifting a pedal that is down releases the notes of the held keys and empties HELD (rule R148). -/
theorem pedalUp_of_down {P : Part} (h : P.hold = true) :
    pedalUp P = { P with
      hold := false, held := 0
      slots := mapVec (fun t => if (t.occupied && P.isHeld t.key) = true then envRelease t else t) P.slots } := by
  simp only [pedalUp, h, if_true]
  rfl

/-- The pedal release writes HOLD, HELD and the slots only, and leaves the pedal up. -/
theorem pedalUp_frame (P : Part) : ∃ held slots, pedalUp P = { P with hold := false, held := held, slots := slots } := by
  cases h : P.hold with
  | false => exact ⟨P.held, P.slots, by rw [pedalUp_of_up h, ← h]⟩
  | true => exact ⟨_, _, pedalUp_of_down h⟩

/-- The reset values of the parameter registers are those of the table of rule R27. -/
theorem paramReset_toNat (p : PartIx) (id : Fin Config.numParams) : (paramReset p)[id.val].toNat =
    [p.val, 100, 64, 40, 0, 64, 2, 10, 0, 127, 64, 64, 64, 64, 64, 64, 64, 64, 64, 64, 1, 24, 0, 0][id.val]! := by
  revert p id
  decide +kernel

/-- Settles O45: the pedal release leaves the other registers, and the defaults leave what it wrote. -/
theorem presetRestoresTheDefaults : Obligations.PresetRestoresTheDefaults := by
  intro p s
  refine ⟨restoreDefaults p (pedalUp (s.part p)), rfl, paramReset_toNat p, rfl, rfl, rfl, rfl, rfl, rfl,
    fun k => Vector.getElem_replicate .., ?_, ?_, ?_, fun hup => ?_, fun hdown => ?_⟩
  · obtain ⟨held, slots, h⟩ := pedalUp_frame (s.part p)
    rw [restoreDefaults_hold, h]
  · obtain ⟨held, slots, h⟩ := pedalUp_frame (s.part p)
    rw [restoreDefaults_mute, h]
  · obtain ⟨held, slots, h⟩ := pedalUp_frame (s.part p)
    rw [restoreDefaults_peak, h]
  · rw [pedalUp_of_up hup]
    exact ⟨rfl, rfl⟩
  · rw [pedalUp_of_down hdown]
    refine ⟨rfl, fun i => ?_⟩
    rw [restoreDefaults_slots, getElem_mapVec]
    exact release_if _ _

end Sys2Proof.Machine
end

section
/-! SUPPORT. The invariant of the state (rules R24, R25, R27, R36, R182, R188, R207): it holds after reset, and every step
keeps it. First the operations on one slot, then those on one part, then the commands. -/

namespace Sys2Proof.Machine

/-! ### Notes -/

/-- A note stays playable when its set, its phase position and its sustain level stay, and its envelope stays in range. -/
theorem NoteOk.of_env {ss : List SampleSet} {t u : Slot} (h : NoteOk ss t) (hsset : u.sset = t.sset)
    (hpos : u.pos = t.pos) (hsus : u.sus = t.sus) (hdone : t.phase = .done → u.phase = .done) (htimed : EnvTimed u)
    (hrl : InUnit u.rl) : NoteOk ss u where
  set_exists := hsset ▸ h.set_exists
  in_wave g hg hne := hpos ▸ h.in_wave g (hsset ▸ hg) fun hd => hne (hdone hd)
  timed := htimed
  sus_unit := hsus ▸ h.sus_unit
  rl_unit := hrl

/-- A released note is playable: its release level is the level it had (rules R186, R188). -/
theorem NoteOk.envRelease {ss : List SampleSet} {t : Slot} (h : NoteOk ss t) : NoteOk ss (envRelease t) := by
  unfold Machine.envRelease
  split
  · next hr =>
    have hne : t.phase ≠ .done := fun hd => by simp [releasable, hd] at hr
    have htimed : EnvTimed (envNormalize { t with rl := envLevel t, phase := .release, cnt := 0 }) :=
      envTimed_envNormalize (.inr rfl)
    obtain ⟨ph, c, hframe⟩ := envNormalize_frame { t with rl := envLevel t, phase := .release, cnt := 0 }
    rw [hframe] at htimed ⊢
    exact h.of_env rfl rfl rfl (fun hd => absurd hd hne) htimed (inUnit_envLevel h.timed h.sus_unit h.rl_unit)
  · exact h

/-- ENV_ADVANCE keeps a note playable (rule R185). -/
theorem NoteOk.envAdvance {ss : List SampleSet} {t : Slot} (h : NoteOk ss t) : NoteOk ss (envAdvance t) := by
  have hdone : t.phase = .done → (Machine.envAdvance t).phase = .done := fun hd => by
    rw [(env_stays_of_none (by simp [envDur, hd])).2, hd]
  have htimed := h.timed.envAdvance
  obtain ⟨ph, c, hframe⟩ := envAdvance_frame t
  rw [hframe] at hdone htimed ⊢
  exact h.of_env rfl rfl rfl hdone htimed h.rl_unit

/-- A geometry that makes no fault: a forward loop is not empty and ends inside the waveform (rule R207). -/
theorem loop_of_badGeometry_false {g : SampleSet} {pos : BitVec 48} (h : badGeometry g pos = false)
    (hmode : g.loopMode = 0) : 0 < g.loopLength.toNat ∧ g.loopStart.toNat + g.loopLength.toNat ≤ setLen g := by
  simp only [badGeometry, hmode, beq_self_eq_true, Bool.true_and, Bool.or_eq_false_iff, beq_eq_false_iff_ne,
    decide_eq_false_iff_not] at h
  obtain ⟨⟨hne, hend⟩, -⟩ := h
  exact ⟨Nat.pos_of_ne_zero fun h0 => hne (BitVec.eq_of_toNat_eq h0), by omega⟩

/-- OSC_ADVANCE on a geometry that makes no fault ends the note or stays inside the waveform (rules R204, R205). -/
theorem oscAdvance_inside {g : SampleSet} {pos : BitVec 48} (h : badGeometry g pos = false) (inc : BitVec 32) (t : Slot) :
    (oscAdvance g inc t).phase = .done ∨
      ∃ x, oscAdvance g inc t = { t with pos := x } ∧ (posIndex x).toNat < setLen g := by
  unfold oscAdvance
  dsimp only
  split
  · next hmode =>
    obtain ⟨hpos, hend⟩ := loop_of_badGeometry_false h hmode
    split
    · have hwrap : g.loopStart.toNat + ((posIndex (t.pos + inc.setWidth 48)).toNat - g.loopStart.toNat) %
          g.loopLength.toNat < setLen g := by
        have := Nat.mod_lt ((posIndex (t.pos + inc.setWidth 48)).toNat - g.loopStart.toNat) hpos
        omega
      refine .inr ⟨_, rfl, lt_of_le_of_lt ?_ hwrap⟩
      rw [posIndex, BitVec.extractLsb'_append_eq_left, BitVec.toNat_ofNat]
      exact Nat.mod_le _ _
    · exact .inr ⟨_, rfl, by omega⟩
  · split
    · exact .inl rfl
    · exact .inr ⟨_, rfl, by omega⟩

/-- A voice step leaves a sounding note playable or in DONE (rules R207, R209). -/
theorem NoteOk.voiceStep {c : Cfg} {ss : List SampleSet} {live : Live} {xpose : Byte} {t : Slot} (h : NoteOk ss t) :
    (voiceStep c ss live xpose t).slot.phase = .done ∨ NoteOk ss (voiceStep c ss live xpose t).slot := by
  rcases voiceStep_cases c ss live xpose t with ⟨hv, -⟩ | ⟨g, hg, hgeo, hv⟩
  · exact .inl (hv ▸ rfl)
  · rw [hv, voicePlay]
    rcases oscAdvance_inside hgeo (c.pitchInc t.snap live xpose) t with hend | ⟨x, hx, hin⟩
    · have hstay := (env_stays_of_none (t := oscAdvance g (c.pitchInc t.snap live xpose) t) (by simp [envDur, hend])).2
      exact .inl (by rw [hstay, hend])
    · have hmoved : NoteOk ss { t with pos := x } :=
        { set_exists := h.set_exists, timed := h.timed, sus_unit := h.sus_unit, rl_unit := h.rl_unit
          in_wave := fun g' hg' _ => Option.some.inj (hg.symm.trans hg') ▸ hin }
      exact .inr (by rw [hx]; exact hmoved.envAdvance)

/-- A new note on a set that exists is playable (rule R144). -/
theorem noteOk_newNote {ss : List SampleSet} (e : EnvParams) (snap : Snap) (key vel : BitVec 7) {sset : BitVec 24}
    (h : sset.toNat < ss.length) : NoteOk ss (newNote e snap key vel sset) := by
  have htimed : EnvTimed (newNote e snap key vel sset) := envTimed_envNormalize (.inr rfl)
  rw [newNote_eq] at htimed ⊢
  have hstart : (posIndex 0).toNat = 0 := rfl
  refine ⟨h, fun g _ _ => hstart ▸ Nat.succ_pos g.sampleLength.toNat, htimed, ?_, inUnit_zero⟩
  have hu : e.sus.val < 0x3F800001 := e.sus.isLt
  rw [InUnit, toNat_unitValue]
  omega

/-! ### Slots -/

/-- A slot that state `s` may hold: a note only while READY, and a playable one (rule R36). -/
def Slot.Fits (s : State) (t : Slot) : Prop := t.occupied = true → s.dstate = .ready ∧ NoteOk s.ss t

theorem Slot.fits_of_free {s : State} {t : Slot} (h : t.phase = .free) : t.Fits s := fun ho => by
  simp [Slot.occupied, h] at ho

theorem Slot.Fits.envRelease {s : State} {t : Slot} (h : t.Fits s) : (envRelease t).Fits s := by
  cases ho : t.occupied with
  | true =>
    obtain ⟨hready, hok⟩ := h ho
    exact fun _ => ⟨hready, hok.envRelease⟩
  | false =>
    have hfree : t.phase = .free := by simpa [Slot.occupied] using ho
    have hstay : Machine.envRelease t = t := by simp [Machine.envRelease, releasable, hfree]
    rwa [hstay]

theorem Slot.Fits.freeIfDone {s : State} {t : Slot} (h : t.Fits s) : (freeIfDone t).Fits s := by
  unfold Machine.freeIfDone
  split
  · exact Slot.fits_of_free rfl
  · exact h

/-- A voice step in a TICK, with the slot freed if it ended (rule R208). -/
theorem Slot.Fits.tick {s : State} {t : Slot} (h : t.Fits s) (c : Cfg) (p : PartIx) :
    (Machine.freeIfDone (stepSlot (tickVoice c s p) t)).Fits s := by
  unfold stepSlot
  split
  · next ho =>
    obtain ⟨hready, hok⟩ := h ho
    rcases hok.voiceStep (c := c) (live := (s.part p).live) (xpose := s.xpose) with hend | hok'
    · rw [Machine.freeIfDone, tickVoice, if_pos hend]
      exact Slot.fits_of_free rfl
    · exact Slot.Fits.freeIfDone fun _ => ⟨hready, hok'⟩
  · exact h.freeIfDone

/-! ### Parts -/

/-- Every parameter register holds a legal value (rule R27). -/
def ParamsLegal (pr : Vector Byte Config.numParams) : Prop :=
  ∀ id : Fin Config.numParams, legalParam (BitVec.ofNat 8 id.val) pr[id.val] = true

theorem ParamsLegal.setIfInBounds {pr : Vector Byte Config.numParams} (h : ParamsLegal pr) {n : Nat} {b : Byte}
    (hb : legalParam (BitVec.ofNat 8 n) b = true) : ParamsLegal (pr.setIfInBounds n b) := by
  intro id
  rw [Vector.getElem_setIfInBounds]
  split
  · next hn => exact hn ▸ hb
  · exact h id

theorem paramsLegal_paramReset (p : PartIx) : ParamsLegal (paramReset p) := by
  unfold ParamsLegal
  revert p
  decide +kernel

theorem partInv_iff {s : State} {P : Part} :
    PartInv s P ↔ ParamsLegal P.pr ∧ (P.held ≠ 0 → P.hold = true) ∧ ∀ t ∈ P.slots.toList, t.Fits s :=
  ⟨fun h => ⟨h.params_legal, h.held_pedal, fun t ht ho => ⟨h.notes_ready t ht ho, h.notes_ok t ht ho⟩⟩,
    fun ⟨hpr, hheld, hfits⟩ => ⟨hpr, hheld, fun t ht ho => (hfits t ht ho).1, fun t ht ho => (hfits t ht ho).2⟩⟩

/-- A slot operation that keeps every slot fitting keeps all the slots of a part fitting. -/
theorem forall_fits_mapVec {s : State} {f : Slot → Slot} {v : Vector Slot Config.numSlots}
    (h : ∀ t ∈ v.toList, t.Fits s) (hf : ∀ t : Slot, t.Fits s → (f t).Fits s) :
    ∀ t ∈ (mapVec f v).toList, t.Fits s := by
  intro t ht
  rw [toList_mapVec, List.mem_map] at ht
  obtain ⟨u, hu, rfl⟩ := ht
  exact hf u (h u hu)

/-- Releasing the notes of some keys keeps the slots fitting (rules R145, R148). -/
theorem forall_fits_release {s : State} {v : Vector Slot Config.numSlots} (h : ∀ t ∈ v.toList, t.Fits s)
    (q : BitVec 7 → Bool) :
    ∀ t ∈ (mapVec (fun t => if (t.occupied && q t.key) = true then envRelease t else t) v).toList, t.Fits s :=
  forall_fits_mapVec h fun t ht => by
    split
    · exact ht.envRelease
    · exact ht

/-- The pedal release keeps the invariant of a part (rule R148). -/
theorem PartInv.pedalUp {s : State} {P : Part} (h : PartInv s P) : PartInv s (pedalUp P) := by
  cases hhold : P.hold with
  | false => rwa [pedalUp_of_up hhold]
  | true =>
    obtain ⟨hpr, -, hfits⟩ := partInv_iff.mp h
    rw [pedalUp_of_down hhold]
    exact partInv_iff.mpr ⟨hpr, fun hne => absurd rfl hne, forall_fits_release hfits P.isHeld⟩

theorem PartInv.holdPedal {s : State} {P : Part} (h : PartInv s P) (v : BitVec 7) : PartInv s (holdPedal v P) := by
  unfold Machine.holdPedal
  split
  · exact ⟨h.params_legal, fun _ => rfl, h.notes_ready, h.notes_ok⟩
  · exact h.pedalUp

theorem PartInv.setParam {s : State} {P : Part} (h : PartInv s P) {n : Nat} {b : Byte}
    (hb : legalParam (BitVec.ofNat 8 n) b = true) : PartInv s (P.setParam n b) :=
  ⟨ParamsLegal.setIfInBounds h.params_legal hb, h.held_pedal, h.notes_ready, h.notes_ok⟩

theorem PartInv.controlChange {s : State} {P : Part} (h : PartInv s P) (c v : BitVec 7) :
    PartInv s (controlChange c v P) := by
  rcases controlChange_cases c v P with ⟨-, heq⟩ | ⟨id, b, hb, heq⟩ | ⟨m, e, heq⟩
  · exact heq ▸ h.holdPedal v
  · exact heq ▸ h.setParam hb
  · rw [heq]
    exact ⟨h.params_legal, h.held_pedal, h.notes_ready, h.notes_ok⟩

theorem PartInv.stopNote {s : State} {P : Part} (h : PartInv s P) (key : BitVec 7) : PartInv s (stopNote key P) := by
  unfold Machine.stopNote
  split
  · next hhold => exact ⟨h.params_legal, fun _ => hhold, h.notes_ready, h.notes_ok⟩
  · obtain ⟨hpr, hheld, hfits⟩ := partInv_iff.mp h
    exact partInv_iff.mpr ⟨hpr, hheld, forall_fits_release hfits (fun k => k == key)⟩

/-- Starting a note on a set that exists, while READY, keeps the invariant of the part (rules R141 to R144). -/
theorem PartInv.startNote {s : State} {P : Part} (h : PartInv s P) (c : Cfg) (key vel : BitVec 7) {set : BitVec 24}
    (hready : s.dstate = .ready) (hset : set.toNat < s.ss.length) : PartInv s (startNote c key vel set P) := by
  obtain ⟨hpr, hheld, hfits⟩ := partInv_iff.mp h
  rw [startNote_frame]
  refine partInv_iff.mpr ⟨hpr, hheld, fun t ht => ?_⟩
  have hcut : ∀ t ∈ (if isMono P then monoCut P else P).slots.toList, t.Fits s := by
    split
    · refine forall_fits_mapVec hfits fun t ht => ?_
      split
      · exact Slot.fits_of_free rfl
      · exact ht
    · exact hfits
  simp only [Machine.startNote, placeNote_slots, Vector.toList_setIfInBounds] at ht
  rcases List.mem_or_eq_of_mem_set ht with ht | rfl
  · exact hcut t ht
  · exact fun _ => ⟨hready, noteOk_newNote _ _ _ _ hset⟩

theorem PartInv.alloff {s : State} {P : Part} (h : PartInv s P) :
    PartInv s (P.mapSlots killOccupied).clearHeld :=
  partInv_iff.mpr ⟨h.params_legal, fun hne => absurd rfl hne, fun t ht ho => by
    obtain ⟨u, -, rfl⟩ := List.mem_map.mp (toList_mapVec killOccupied P.slots ▸ ht)
    rw [killOccupied_free] at ho
    cases ho⟩

/-- Every edit of a part keeps its invariant. -/
theorem PartEdit.inv {s : State} {p : PartIx} {i : Instr} {P : Part} (he : PartEdit s p i P)
    (h : PartInv s (s.part p)) : PartInv s P := by
  cases he with
  | noteOn a b k v set hset =>
    obtain ⟨hready, -, hlt⟩ := noteSet_some hset
    exact h.startNote _ k v hready hlt
  | noteOff a k => exact h.stopNote k
  | ctrl a b c v => exact h.controlChange c v
  | alloff => exact h.alloff
  | preset =>
    have hpedal := h.holdPedal 0
    exact ⟨paramsLegal_paramReset p, hpedal.held_pedal, hpedal.notes_ready, hpedal.notes_ok⟩
  | setparam a b id hv => exact h.setParam (legalValue_iff id b ▸ hv)
  | prog | chpress | polypress | bend | mute | peak =>
    exact ⟨h.params_legal, h.held_pedal, h.notes_ready, h.notes_ok⟩

/-- A TICK keeps the invariant of its part (rule R208). -/
theorem PartInv.ticked {s : State} {p : PartIx} (h : PartInv s (s.part p)) (c : Cfg) (x : F32) :
    PartInv s { s.part p with slots := tickedSlots c s p, peak := x } := by
  obtain ⟨hpr, hheld, hfits⟩ := partInv_iff.mp h
  refine partInv_iff.mpr ⟨hpr, hheld, ?_⟩
  simp only [tickedSlots, tickSlots, mapVec_mapVec]
  exact forall_fits_mapVec hfits fun t ht => ht.freeIfDone.tick c p

/-- A part of a state that is not READY has no notes, so it meets the invariant of any state. -/
theorem PartInv.of_not_ready {s t : State} {P : Part} (h : PartInv s P) (hs : s.dstate ≠ .ready) : PartInv t P :=
  ⟨h.params_legal, h.held_pedal, fun u hu ho => absurd (h.notes_ready u hu ho) hs,
    fun u hu ho => absurd (h.notes_ready u hu ho) hs⟩

/-! ### States -/

/-- The invariant goes over to a state with the same decoded data, good inputs and parts that meet it. -/
theorem State.Inv.of_sameDecoder {s t : State} (h : s.Inv) (hd : sameDecoder s t)
    (hin : inputsOk t.romFiles t.smeta = true) (hx : t.xpose.toNat ≤ 127)
    (hparts : ∀ p : PartIx, PartInv s (t.part p)) : t.Inv := by
  obtain ⟨hdstate, hecode, hnbanks, hplain, hss, hversion, hdate⟩ := hd
  obtain ⟨hidle, herr, hwf, hinside, hmax, hsets, hbound, -, -⟩ := h.decoder
  simp only [← hdstate, ← hss, ← hplain, ← hnbanks, ← hversion, ← hdate] at hidle hwf hinside hmax hsets hbound
  rw [← hdstate, ← hecode] at herr
  refine ⟨⟨hidle, herr, hwf, hinside, hmax, hsets, hbound, hin, hx⟩, fun p => ?_⟩
  obtain ⟨hpr, hheld, hready, hok⟩ := hparts p
  exact ⟨hpr, hheld, hdstate ▸ hready, hss ▸ hok⟩

/-- The invariant goes over to a state that differs in registers it does not name. -/
theorem State.Inv.of_same {s t : State} (h : s.Inv) (hd : sameDecoder s t) (hfiles : t.romFiles = s.romFiles)
    (hmeta : t.smeta = s.smeta) (hx : t.xpose = s.xpose) (hparts : t.parts = s.parts) : t.Inv :=
  h.of_sameDecoder hd (by rw [hfiles, hmeta]; exact h.decoder.inputs_ok) (hx ▸ h.decoder.xpose_legal) fun p => by
    rw [State.part, hparts]
    exact h.parts p

/-- Replacing one part by one that meets its invariant keeps the invariant of the parts. -/
theorem State.Inv.setPart {s : State} (h : s.Inv) {p : PartIx} {P : Part} (hP : PartInv s P) (q : PartIx) :
    PartInv s ((s.setPart p P).part q) := by
  rcases eq_or_ne q p with rfl | hne
  · rwa [part_setPart_self]
  · rw [part_setPart_ne s hne]
    exact h.parts q

/-- The inputs rule R21 admits: byte sequences in canonical form, and fewer than 2^24 records. -/
theorem inputsOk_iff (files : List RomEntry) (records : List SampleMeta) :
    inputsOk files records = true ↔
      (∀ f, RomEntry.file f ∈ files → RomFile.wf f) ∧ records.length < Config.metaLimit := by
  simp only [inputsOk, Bool.and_eq_true, List.all_eq_true, decide_eq_true_eq]
  refine and_congr_left fun _ => ⟨fun h f hf => of_decide_eq_true (h _ hf), fun h e he => ?_⟩
  cases e with
  | file f => exact decide_eq_true (h f he)
  | unreadable => rfl

/-- A committed load keeps the invariant: the table and the image are good, and no note can be sounding (rules R24, R25,
R121). -/
theorem State.Inv.commitLoad {s : State} (h : s.Inv) (hs : s.dstate ≠ .ready) {c : Cfg} {l : Loaded}
    (hl : load c s.romFiles s.smeta s.gen = .ok l) : (complete 0 (commitLoad l s)).Inv := by
  obtain ⟨hlen, hsets, hwf, -, hmax, hinside⟩ := load_sound hl
  exact ⟨⟨fun hne => absurd rfl hne, by simp, hwf, hinside, hmax, hsets,
      lt_of_eq_of_lt hlen ((inputsOk_iff _ _).mp h.decoder.inputs_ok).2, h.decoder.inputs_ok, h.decoder.xpose_legal⟩,
    fun p => (h.parts p).of_not_ready hs⟩

/-- An aborted load keeps the invariant: it empties the table and the image and records an error code (rule R111). -/
theorem State.Inv.abortLoad {s : State} (h : s.Inv) (hs : s.dstate ≠ .ready) {c : Cfg} {e : ECode}
    (he : load c s.romFiles s.smeta s.gen = .error e) (r : Word) : (complete r (abortLoad e s)).Inv :=
  ⟨⟨fun _ => ⟨rfl, rfl, rfl, rfl, rfl⟩, by simp [load_error he], ⟨List.Pairwise.nil, by simp⟩, by simp, by simp,
      by simp, by simp, h.decoder.inputs_ok, h.decoder.xpose_legal⟩,
    fun p => (h.parts p).of_not_ready hs⟩

theorem sameDecoder_refl (s : State) : sameDecoder s s := ⟨rfl, rfl, rfl, rfl, rfl, rfl, rfl⟩

/-- Every command keeps the invariant: by cases on what a command can write. -/
theorem State.Inv.exec {s t : State} {i : Instr} (h : s.Inv) (hexec : exec i s = .next t) : t.Inv := by
  have hsame := sameDecoder_refl s
  cases exec_effect hexec with
  | loaded l hi hs hl => exact h.commitLoad hs hl
  | aborted e r hi hs he => exact h.abortLoad hs he r
  | transposed v hi hv => exact h.of_sameDecoder hsame h.decoder.inputs_ok hv h.parts
  | edited p P r hp hP =>
    exact h.of_sameDecoder hsame h.decoder.inputs_ok h.decoder.xpose_legal (h.setPart (hP.inv (h.parts p)))
  | ticked p hi m x faulted r =>
    exact h.of_sameDecoder hsame h.decoder.inputs_ok h.decoder.xpose_legal (h.setPart ((h.parts p).ticked _ x))
  | answered | rejected | generation | selected | mixCleared => exact h.of_same hsame rfl rfl rfl rfl

/-- Settles O59: no note, no table and no image, and every parameter register at its reset value. -/
theorem resetMeetsTheInvariant : Obligations.ResetMeetsTheInvariant := by
  have hpart : ∀ p : PartIx, State.reset.part p = Part.reset p := fun p => Vector.getElem_ofFn ..
  refine ⟨⟨fun _ => ⟨rfl, rfl, rfl, rfl, rfl⟩, by decide, reset_plain_wf, by simp [State.reset], by decide,
    by simp [State.reset], by decide, by decide, by decide⟩, fun p => ?_⟩
  rw [hpart]
  refine partInv_iff.mpr ⟨paramsLegal_paramReset p, fun hne => absurd rfl hne, fun t ht => ?_⟩
  have hreset : t = Slot.reset := by simpa [Part.reset, Vector.toList_replicate] using ht
  exact hreset ▸ Slot.fits_of_free rfl

/-- Settles O58, event by event: a command keeps the invariant, a reset restores it, a supply replaces inputs by admitted
ones. -/
theorem everyStepKeepsTheInvariant : Obligations.EveryStepKeepsTheInvariant := by
  intro s t h hstep
  have hport : ∀ rest, ({ s with port := rest } : State).Inv := fun rest =>
    h.of_same (sameDecoder_refl s) rfl rfl rfl rfl
  rcases step_cases hstep with ⟨-, rfl⟩ | ⟨cw, rest, -, hrun⟩ | ⟨rest, -, rfl⟩ | ⟨files, records, rest, -, hin, rfl⟩
  · exact h
  · rcases runWord_cases hrun with ⟨i, -, hexec⟩ | ⟨-, rfl⟩
    · exact (hport rest).exec hexec
    · exact (hport rest).of_same (sameDecoder_refl s) rfl rfl rfl rfl
  · exact resetMeetsTheInvariant.of_sameDecoder (sameDecoder_refl _) h.decoder.inputs_ok
      resetMeetsTheInvariant.decoder.xpose_legal resetMeetsTheInvariant.parts
  · exact h.of_sameDecoder (sameDecoder_refl s) hin h.decoder.xpose_legal h.parts

end Sys2Proof.Machine
end

section
/-! SUPPORT. Steps without a command, and the commands that read or write one register (rules R21, R23, R157 to R160,
R246). -/

namespace Sys2Proof.Machine

/-! ### Steps without a command -/

/-- A supply step, whole (assumption log 5). -/
theorem step_supply {files : List RomEntry} {records : List SampleMeta} {rest : List PortEvent} {s : State}
    (h : s.port = .supply files records :: rest) :
    step s = if inputsOk files records then .next { s with port := rest, romFiles := files, smeta := records }
      else .refused .inputsIllFormed := by
  simp only [step, takeEvent, h, supplyInputs]

/-- Settles O7. -/
theorem stepWithoutACommand : Obligations.StepWithoutACommand := by
  refine ⟨fun s h => by simp only [step, takeEvent, h], fun files records rest s h => ⟨fun hwf hlen => ?_, fun hbad => ?_⟩⟩
  · rw [step_supply h, if_pos ((inputsOk_iff files records).mpr ⟨hwf, hlen⟩)]
  · rw [step_supply h, if_neg]
    intro hok
    obtain ⟨hwf, hlen⟩ := (inputsOk_iff files records).mp hok
    rcases hbad with ⟨f, hf, hnot⟩ | hlong
    · exact hnot (hwf f hf)
    · exact absurd hlen (Nat.not_lt.mpr hlong)

/-! ### The status word -/

/-- The STATUS word as a number: each field at its bit (rule R23). -/
theorem statusWord_toNat (s : State) : (statusWord s).toNat =
    s.vfault.toNat * 2 ^ 9 + s.cmdErr.toNat * 2 ^ 8 + (ecodeCode s.ecode).toNat * 2 ^ 4 + s.gen.val * 2 ^ 2 +
      (dstateCode s.dstate).toNat := by
  have hgen : s.gen.val < 3 := s.gen.isLt
  simp only [statusWord, toNat_append_eq_add, BitVec.toNat_ofBool, BitVec.toNat_ofNat]
  omega

/-- A field of a word as a number. -/
theorem toNat_extractLsb'_eq {w : Nat} (x : BitVec w) (i n : Nat) :
    (x.extractLsb' i n).toNat = x.toNat / 2 ^ i % 2 ^ n := by
  rw [BitVec.extractLsb'_toNat, Nat.shiftRight_eq_div_pow]

/-- A bit of a word is the flag that has its value as a number. -/
theorem getLsbD_eq_of_toNat {w : Nat} {x : BitVec w} {i : Nat} {b : Bool} (h : x.toNat / 2 ^ i % 2 = b.toNat) :
    x.getLsbD i = b := by
  rw [BitVec.getLsbD, Nat.testBit_eq_decide_div_mod_eq, h]
  cases b <;> rfl

/-- Settles O18: each field is read off the STATUS word as a number. -/
theorem decStatusReturnsTheStatusWord : Obligations.DecStatusReturnsTheStatusWord := by
  intro s
  have hword := statusWord_toNat s
  have hgen : s.gen.val < 3 := s.gen.isLt
  have hdstate := (dstateCode s.dstate).isLt
  have hecode := (ecodeCode s.ecode).isLt
  have hcmd := Bool.toNat_lt s.cmdErr
  have hvf := Bool.toNat_lt s.vfault
  refine ⟨statusWord s, rfl, ?_, ?_, ?_, getLsbD_eq_of_toNat (by omega), getLsbD_eq_of_toNat (by omega), ?_⟩
  · have hfield : ((statusWord s).extractLsb' 0 2).toNat = (dstateCode s.dstate).toNat := by
      rw [toNat_extractLsb'_eq]
      omega
    rw [hfield]
    cases s.dstate <;> rfl
  · rw [toNat_extractLsb'_eq]
    omega
  · have hfield : ((statusWord s).extractLsb' 4 4).toNat = (ecodeCode s.ecode).toNat := by
      rw [toNat_extractLsb'_eq]
      omega
    rw [hfield]
    cases s.ecode <;> rfl
  · apply BitVec.eq_of_toNat_eq
    rw [toNat_extractLsb'_eq]
    change _ = 0
    omega

/-! ### Registers -/

/-- GETPARAM of a parameter register (rule R157). -/
theorem exec_getparam_of_param (p : PartIx) (id : Fin Config.numParams) (s : State) :
    exec (.getparam p (BitVec.ofNat 8 id.val)) s = .next (complete ((s.part p).pr[id.val].setWidth 32) s) := by
  simp only [exec, execGetparam, paramId_ofNat]

/-- GETPARAM of a local register (rules R28, R157). -/
theorem exec_getparam_of_local {p : PartIx} {id : Byte} {s : State} {v w : Word} (hid : 0x18 ≤ id.toNat)
    (hv : localParam id (s.part p) = some v) (hw : v = w) : exec (.getparam p id) s = .next { s with res := w } := by
  subst hw
  simp only [exec, execGetparam, paramId_of_le hid, hv]
  rfl

/-- GETPARAM of an id that names no register is rejected (rule R157). -/
theorem exec_getparam_of_none {p : PartIx} {id : Byte} {s : State} (hid : 0x18 ≤ id.toNat)
    (hw : localParam id (s.part p) = none) : exec (.getparam p id) s = .next (reject s) := by
  simp only [exec, execGetparam, paramId_of_le hid, hw]

/-- The ids past the parameter registers that name no local register (rule R28). -/
theorem localParam_eq_none {id : Byte} (h : (0x18 ≤ id.toNat ∧ id.toNat ≤ 0x1F) ∨ 0x2B ≤ id.toNat) (P : Part) :
    localParam id P = none := by
  unfold localParam
  split
  any_goals omega
  rfl

/-- Settles O46: the register a legal SETPARAM writes is the one GETPARAM of the same id reads. -/
theorem setparamThenGetparam : Obligations.SetparamThenGetparam := by
  intro p id v s hv
  have hset : (s.part p).setParam id.val v = { s.part p with pr := (s.part p).pr.set id.val v } := by
    rw [Part.setParam, setIfInBounds_eq_set id.isLt]
  refine ⟨_, ?_, rfl, ?_⟩
  · simp only [exec, execSetparam, paramId_ofNat, legalValue_iff, hv, if_true, hset]
    rfl
  · rw [exec_getparam_of_param]
    change Host.Outcome.next (complete (((s.setPart p _).part p).pr[id.val].setWidth 32) _) = _
    simp only [part_setPart_self, Vector.getElem_set_self]
    rfl

/-- A field of a register, zero-extended to a word, as a number. -/
theorem setWidth_extractLsb'_eq {w : Nat} (x : BitVec w) (i n : Nat) :
    (x.extractLsb' i n).setWidth 32 = BitVec.ofNat 32 (x.toNat / 2 ^ i % 2 ^ n) := by
  rw [← toNat_extractLsb'_eq, BitVec.ofNat_toNat]

/-- Settles O47: each register's word is its value. -/
theorem registerQueriesReadTheirRegister : Obligations.RegisterQueriesReadTheirRegister := by
  intro p s
  have hprog := (s.part p).prog.isLt
  have hbend := (s.part p).bend.isLt
  refine ⟨fun id => ?_, ?progLo, ?progHi, ?mode, ?bendLo, ?bendHi, ?mod, ?expr, ?hold, ?mute, ?chp, ?active,
    fun id hid => ?_, fun k hk => ?_, fun k hk => ?_⟩
  · rw [exec_getparam_of_param, BitVec.ofNat_toNat]
    rfl
  case progLo => exact exec_getparam_of_local (by decide) rfl ((setWidth_extractLsb'_eq ..).trans (by congr 1; omega))
  case progHi => exact exec_getparam_of_local (by decide) rfl ((setWidth_extractLsb'_eq ..).trans (by congr 1; omega))
  case mode => exact exec_getparam_of_local (by decide) rfl (by cases (s.part p).mode <;> rfl)
  case bendLo => exact exec_getparam_of_local (by decide) rfl ((setWidth_extractLsb'_eq ..).trans (by congr 1; omega))
  case bendHi => exact exec_getparam_of_local (by decide) rfl ((setWidth_extractLsb'_eq ..).trans (by congr 1; omega))
  case mod => exact exec_getparam_of_local (by decide) rfl (BitVec.ofNat_toNat ..).symm
  case expr => exact exec_getparam_of_local (by decide) rfl (BitVec.ofNat_toNat ..).symm
  case hold => exact exec_getparam_of_local (by decide) rfl rfl
  case mute => exact exec_getparam_of_local (by decide) rfl rfl
  case chp => exact exec_getparam_of_local (by decide) rfl (BitVec.ofNat_toNat ..).symm
  case active =>
    have hactive : (s.part p).active = (s.part p).slots.toList.countP fun t => t.phase ≠ .free := by
      refine List.countP_congr fun t _ => ?_
      simp [Slot.occupied]
    exact exec_getparam_of_local (by decide) rfl (by rw [hactive])
  · exact exec_getparam_of_none (by omega) (localParam_eq_none hid _)
  · simp only [exec, execHeldq, midi7_of_le hk, Part.isHeld, toNat_setWidth7 hk]
    rfl
  · simp only [exec, execPkpq, midi7_of_le hk, toNat_setWidth7 hk, BitVec.ofNat_toNat]
    rfl

/-- The word VOICEQ reads from an occupied slot as a number: each field at its bit (rule R159). -/
theorem voiceWord_toNat {t : Slot} (h : t.phase ≠ .free) :
    (voiceWord t).toNat = t.vel.toNat * 2 ^ 16 + t.key.toNat * 2 ^ 8 + (phaseCode t.phase).toNat := by
  have hvel := t.vel.isLt
  have hkey := t.key.isLt
  rw [voiceWord, if_pos (by simpa [Slot.occupied] using h)]
  simp only [toNat_append_eq_add, BitVec.toNat_setWidth, BitVec.toNat_ofNat]
  omega

/-- Settles O48: a slot's number names that slot, and its word has the fields of rule R159. -/
theorem voiceqReadsOneSlot : Obligations.VoiceqReadsOneSlot := by
  intro p i s
  have hexec : exec (.voiceq p (BitVec.ofNat 8 i.val)) s = .next (complete (voiceWord (s.part p).slots[i.val]) s) := by
    simp only [exec, execVoiceq, slotId_ofNat]
  refine ⟨fun hfree => ?_, fun hocc => ⟨_, hexec, ?_⟩⟩
  · rw [hexec, voiceWord, if_neg (by simp [Slot.occupied, hfree])]
    rfl
  · rw [voiceWord_toNat hocc]
    cases (s.part p).slots[i.val].phase <;> rfl

end Sys2Proof.Machine
end

section
/-! SUPPORT. A stream of command words: each word is one step, which always answers a next state, and a stream runs word
by word (rules R70, R71, R80, R239). -/

namespace Sys2Proof.Machine

/-! ### One command word -/

/-- A step with a command word at the port runs that word on the state without it. -/
theorem step_command {cw : Word} {rest : List PortEvent} {s : State} (h : s.port = .command cw :: rest) :
    step s = runWord cw { s with port := rest } := by
  simp only [step, takeEvent, h]

/-- A word that decodes runs the command it decodes to. -/
theorem runWord_of_decode {cw : Word} {i : Instr} (h : decode cw = .ok i) (s : State) : runWord cw s = exec i s := by
  simp only [runWord, h]

/-- Settles O6. -/
theorem stepRunsTheDecodedCommand : Obligations.StepRunsTheDecodedCommand := by
  intro cw rest i s hport hdecode
  rw [step_command hport, runWord_of_decode hdecode]

/-- No command faults and none is refused (rule R239). -/
theorem exec_next (i : Instr) (s : State) : ∃ t, exec i s = .next t := by
  cases i <;> exact ⟨_, rfl⟩

/-- A word, legal or not, runs to a next state and leaves the port (rules R233, R239). -/
theorem runWord_next (cw : Word) (s : State) : ∃ t, runWord cw s = .next t ∧ t.port = s.port := by
  cases hd : decode cw with
  | ok i =>
    obtain ⟨t, ht⟩ := exec_next i s
    obtain ⟨-, -, -, hport⟩ := onlyDecStartChangesTheDecodedData i s t ht
    exact ⟨t, by rw [runWord_of_decode hd, ht], hport⟩
  | error e => exact ⟨reject s, by simp only [runWord, hd], rfl⟩

/-! ### Streams -/

/-- A run of one step more is that step, then the run from the state it leaves. -/
theorem run_succ_of_step {s t : State} (h : step s = .next t) (k : Nat) :
    Sys2Proof.core.run (k + 1) s = Sys2Proof.core.run k t := by
  have hcore : Sys2Proof.core.step s = .next t := h
  simp only [Host.Core.run, hcore]

/-- Settles O12, by induction on the words at the port. -/
theorem anyCommandStreamRunsToItsEnd : Obligations.AnyCommandStreamRunsToItsEnd := by
  intro cws rest
  induction cws with
  | nil => exact fun s hport => ⟨s, rfl, hport⟩
  | cons cw cws ih =>
    intro s hport
    obtain ⟨u, hu, huport⟩ := runWord_next cw { s with port := cws.map PortEvent.command ++ rest }
    obtain ⟨t, ht, htport⟩ := ih u huport
    have hstep : step s = .next u := (step_command hport).trans hu
    exact ⟨t, (run_succ_of_step hstep _).trans ht, htport⟩

/-! ### VOLUME changes between TICKs -/

/-- The fields of a format-P operand word are the part, 0, and the two operands (rule R83). -/
theorem immP_fields (p : PartIx) (a b : Byte) :
    reservedField (immP p a b) = 0 ∧ (partField (immP p a b)).toNat = p.val ∧ aField (immP p a b) = a ∧
      bField (immP p a b) = b := by
  have ha := a.isLt
  have hb := b.isLt
  have hp : p.val < 16 := p.isLt
  have himm : (immP p a b).toNat = p.val * 2 ^ 20 + a.toNat * 2 ^ 8 + b.toNat := by
    simp only [immP, toNat_append_eq_add, BitVec.toNat_ofNat]
    omega
  refine ⟨BitVec.eq_of_toNat_eq ?_, ?_, BitVec.eq_of_toNat_eq ?_, BitVec.eq_of_toNat_eq ?_⟩
  · rw [reservedField, toNat_extractLsb'_eq, himm]
    change _ = 0
    omega
  · rw [partField, toNat_extractLsb'_eq, himm]
    omega
  · rw [aField, toNat_extractLsb'_eq, himm]
    omega
  · rw [bField, toNat_extractLsb'_eq, himm]
    omega

/-- Format P reads back the part and the operands it was encoded from (rule R83). -/
theorem decodeP_immP (op : Byte) (p : PartIx) (a b : Byte) (f : PartIx → Byte → Byte → Instr) :
    decodeP op (immP p a b) f = .ok (f p a b) := by
  obtain ⟨hres, hpart, ha, hb⟩ := immP_fields p a b
  have hlt : (partField (immP p a b)).toNat < Config.numParts := hpart ▸ p.isLt
  rw [decodeP, if_pos hres, dif_pos hlt, ha, hb, show (⟨_, hlt⟩ : PartIx) = p from Fin.ext hpart]

theorem decode_encode_ctrl (p : PartIx) (controller value : Byte) :
    decode (encode (.ctrl p controller value)) = .ok (.ctrl p controller value) := by
  rw [decode, opField_encode, immField_encode]
  exact decodeP_immP 0x12 p controller value fun p a b => .ctrl p a b

theorem decode_encode_tick (p : PartIx) : decode (encode (.tick p)) = .ok (.tick p) := by
  rw [decode, opField_encode, immField_encode]
  exact decodeP_immP 0x20 p 0 0 fun p _ _ => .tick p

/-- A run whose first word is a command's encoding goes on from what that command leaves, with the words behind it still
at the port. -/
theorem run_encode {i : Instr} (hi : decode (encode i) = .ok i) {rest : List PortEvent} {s u : State}
    (hport : s.port = .command (encode i) :: rest) (hu : exec i { s with port := rest } = .next u) (k : Nat) :
    Sys2Proof.core.run (k + 1) s = Sys2Proof.core.run k u ∧ u.port = rest := by
  have hstep : step s = .next u := (stepRunsTheDecodedCommand _ _ _ _ hport hi).trans hu
  obtain ⟨-, -, -, hrest⟩ := onlyDecStartChangesTheDecodedData _ _ _ hu
  exact ⟨run_succ_of_step hstep k, hrest⟩

/-- Controller 7 with a data value writes VOLUME (rule R146). -/
theorem exec_volume (p : PartIx) {v : Byte} (hv : v.toNat ≤ 127) (s : State) :
    exec (.ctrl p 7 v) s = .next (complete 0 (s.setPart p ((s.part p).setParam 0x01 v))) := by
  change execCtrl p 7 v s = _
  simp only [execCtrl, midi7_of_le hv, midi7_of_le (b := 7) (by decide)]
  change Host.Outcome.next (complete 0 (s.setPart p ((s.part p).setParam 0x01 ((v.setWidth 7).setWidth 8)))) = _
  rw [setWidth7_setWidth8 hv]

/-- A TICK leaves the parameter registers of its part (rule R208). -/
theorem part_tick_pr (c : Cfg) (p : PartIx) (s : State) : ((tick c p s).part p).pr = (s.part p).pr := by
  have hself : ∀ (P : Part) (x : F32) (b : Bool),
      State.part { s.setPart p P with mix := x, vfault := b } p = P := fun P _ _ => part_setPart_self s p P
  rw [tick_eq, part_complete, hself]

/-- Settles O60, by induction on the interleaving: a VOLUME change sets the value the rest starts from, a TICK keeps it. -/
theorem interleavedVolumeChangesEndAtTheLastValue : Obligations.InterleavedVolumeChangesEndAtTheLastValue := by
  intro p vs n l s rest hvs hl
  generalize hxs : (vs.map fun v => Instr.ctrl p 7 v) = xs at hl
  generalize hys : List.replicate n (Instr.tick p) = ys at hl
  induction hl generalizing vs n s with
  | nil =>
    obtain rfl := List.map_eq_nil_iff.mp hxs
    exact fun hport => ⟨s, rfl, hport, rfl⟩
  | left _ _ ih =>
    intro hport
    obtain ⟨v, vs, rfl, rfl, rfl⟩ := List.map_eq_cons_iff.mp hxs
    obtain ⟨hv, hvs⟩ := List.forall_mem_cons.mp hvs
    obtain ⟨hrun, hrest⟩ := run_encode (decode_encode_ctrl p 7 v) hport (exec_volume p hv _) _
    obtain ⟨t, ht, htport, hvol⟩ := ih vs n _ hvs rfl hys hrest
    refine ⟨t, hrun.trans ht, htport, ?_⟩
    rw [hvol, List.getLastD_cons, part_complete, part_setPart_self]
    simp [Part.setParam]
  | right _ _ ih =>
    intro hport
    cases n with
    | zero => cases hys
    | succ n =>
      obtain ⟨rfl, hticks⟩ := List.cons.inj hys
      obtain ⟨hrun, hrest⟩ := run_encode (decode_encode_tick p) hport rfl _
      obtain ⟨t, ht, htport, hvol⟩ := ih vs n _ hvs hxs hticks hrest
      refine ⟨t, hrun.trans ht, htport, ?_⟩
      rw [hvol, part_tick_pr]
      rfl

end Sys2Proof.Machine
end

section
/-! SUPPORT. The ROM address map (rules R51 to R62): the bit permutations and their inverses, the bank map, and the
concatenation of the files. -/

namespace Sys2Proof.Machine

/-! ### The bit permutations (rules R56, R57, R59) -/

/-- Adding a single bit at a place that is still clear sets that place and no other. -/
theorem getLsbD_add_bit {w : Nat} (acc : BitVec w) (b : Bool) (n : Fin w) (h : acc.getLsbD n.val = false) (k : Fin w) :
    (acc + ((BitVec.ofBool b).setWidth w <<< n.val)).getLsbD k.val = if k = n then b else acc.getLsbD k.val := by
  have hbit : ∀ i < w, ((BitVec.ofBool b).setWidth w <<< n.val).getLsbD i = (decide (i = n.val) && b) := fun i hi => by
    simp only [BitVec.getLsbD_shiftLeft, BitVec.getLsbD_setWidth, BitVec.getLsbD_ofBool, hi]
    by_cases hin : i < n.val
    · simp [hin, show i ≠ n.val by omega]
    · simp [hin, show i - n.val < w by omega, show (i - n.val = 0 ↔ i = n.val) by omega]
  have hdisjoint : acc &&& ((BitVec.ofBool b).setWidth w <<< n.val) = 0#w := BitVec.eq_of_getLsbD_eq fun i hi => by
    rw [BitVec.getLsbD_and, hbit i hi]
    by_cases hin : i = n.val
    · rw [hin, h, Bool.false_and, BitVec.getLsbD_zero]
    · simp [hin]
  rw [BitVec.add_eq_or_of_and_eq_zero _ _ hdisjoint, BitVec.getLsbD_or, hbit k.val k.isLt]
  by_cases hk : k = n
  · rw [if_pos hk, hk, h, decide_eq_true rfl, Bool.true_and, Bool.false_or]
  · simp [hk, Fin.val_ne_of_ne hk]

/-- Adding one bit for each index of a list, at places that are clear and pairwise different, puts every bit at its
place. -/
theorem getLsbD_foldl_add_bits {w : Nat} (f : Fin w → Bool) (e : Equiv.Perm (Fin w)) {l : List (Fin w)} (hl : l.Nodup)
    {acc : BitVec w} (hacc : ∀ j ∈ l, acc.getLsbD (e j).val = false) (k : Fin w) :
    (l.foldl (fun acc j => acc + ((BitVec.ofBool (f j)).setWidth w <<< (e j).val)) acc).getLsbD (e k).val =
      if k ∈ l then f k else acc.getLsbD (e k).val := by
  induction l generalizing acc with
  | nil => simp
  | cons j l ih =>
    obtain ⟨hj, hl⟩ := List.nodup_cons.mp hl
    obtain ⟨haccj, hacc⟩ := List.forall_mem_cons.mp hacc
    have hset := getLsbD_add_bit acc (f j) (e j) haccj
    rw [List.foldl_cons, ih hl fun i hi => ?_, hset]
    · by_cases hk : k = j
      · simp [hk, hj]
      · simp [hk]
    · have hne : i ≠ j := fun h => hj (h ▸ hi)
      rw [hset, if_neg (e.injective.ne hne), hacc i hi]

/-- A word made of one bit for each index has each bit at its index's place. -/
theorem getLsbD_sum_bits {w : Nat} (f : Fin w → Bool) (e : Equiv.Perm (Fin w)) (k : Fin w) :
    ((List.finRange w).foldl (fun acc j => acc + ((BitVec.ofBool (f j)).setWidth w <<< (e j).val)) 0).getLsbD (e k).val =
      f k := by
  refine (getLsbD_foldl_add_bits f e (List.nodup_finRange w) (fun _ _ => BitVec.getLsbD_zero) k).trans ?_
  rw [if_pos (List.mem_finRange k)]

/-- Bit `j` of an offset stands at bit `perm j` of the permuted offset (rule R56). -/
theorem getLsbD_permuteAddr (perm : Equiv.Perm (Fin 20)) (o : BitVec 20) (j : Fin 20) :
    (permuteAddr perm o).getLsbD (perm j).val = o.getLsbD j.val :=
  getLsbD_sum_bits (fun j => o.getLsbD j.val) perm j

/-- Bit `j` of DMAP(x) is bit DATA_PERM[j] of x (rule R57). -/
theorem getLsbD_dmap (c : Cfg) (x : Byte) (j : Fin 8) : (dmap c x).getLsbD j.val = x.getLsbD (c.dataPerm j).val :=
  getLsbD_sum_bits (fun j => x.getLsbD (c.dataPerm j).val) (Equiv.refl _) j

theorem dmap_zero (c : Cfg) : dmap c 0x00 = 0x00 :=
  BitVec.eq_of_getLsbD_eq fun i hi => (getLsbD_dmap c 0x00 ⟨i, hi⟩).trans (by simp)

theorem dmap_ones (c : Cfg) : dmap c 0xFF = 0xFF := by
  have hones : ∀ j : Fin 8, (0xFF : Byte).getLsbD j.val = true := by decide
  exact BitVec.eq_of_getLsbD_eq fun i hi =>
    (getLsbD_dmap c 0xFF ⟨i, hi⟩).trans ((hones _).trans (hones ⟨i, hi⟩).symm)

/-- Permuting the address bits by the inverse permutation undoes the permutation (rule R59). -/
theorem permuteAddr_symm_permuteAddr (perm : Equiv.Perm (Fin 20)) (o : BitVec 20) :
    permuteAddr perm.symm (permuteAddr perm o) = o := by
  refine BitVec.eq_of_getLsbD_eq fun i hi => ?_
  have h := getLsbD_permuteAddr perm.symm (permuteAddr perm o) (perm ⟨i, hi⟩)
  rwa [Equiv.symm_apply_apply, getLsbD_permuteAddr] at h

theorem permuteAddr_permuteAddr_symm (perm : Equiv.Perm (Fin 20)) (o : BitVec 20) :
    permuteAddr perm (permuteAddr perm.symm o) = o :=
  permuteAddr_symm_permuteAddr perm.symm o

/-- DMAP of the inverse data permutation undoes DMAP (rule R59). -/
theorem dmap_dmap_of_symm {c d : Cfg} (h : d.dataPerm = c.dataPerm.symm) (x : Byte) : dmap d (dmap c x) = x :=
  BitVec.eq_of_getLsbD_eq fun i hi => by
    rw [getLsbD_dmap d _ ⟨i, hi⟩, getLsbD_dmap, h, Equiv.apply_symm_apply]

/-- Settles O19. -/
theorem decAddrReturnsAmap : Obligations.DecAddrReturnsAmap := by
  refine ⟨fun _ _ => rfl, fun c o => ⟨fun h => if_pos h, fun h j => ?_⟩⟩
  have hpast : amap c o = permuteAddr c.addrPerm o := if_neg (Nat.not_lt.mpr h)
  rw [hpast, getLsbD_permuteAddr]

/-- Settles O20. -/
theorem decDataReturnsDmap : Obligations.DecDataReturnsDmap :=
  ⟨fun _ _ => rfl, fun c => ⟨getLsbD_dmap c, dmap_zero c, dmap_ones c⟩⟩

/-- Settles O21: each map has the map of the inverse permutation as its inverse. -/
theorem descramblingIsBijective : Obligations.DescramblingIsBijective := by
  intro c
  refine ⟨Function.bijective_iff_has_inverse.mpr ⟨permuteAddr c.addrPerm.symm, ?_, ?_⟩,
    Function.bijective_iff_has_inverse.mpr ⟨dmap { c with dataPerm := c.dataPerm.symm }, ?_, ?_⟩⟩
  · exact permuteAddr_symm_permuteAddr c.addrPerm
  · exact permuteAddr_permuteAddr_symm c.addrPerm
  · exact dmap_dmap_of_symm rfl
  · exact dmap_dmap_of_symm (Equiv.symm_symm _).symm

/-! ### The bank map (rules R60, R61) -/

/-- The number of a bank id (rule R60 C1). -/
def bankCode : BankId → BitVec 3
  | .id0 => 0
  | .id1 => 1
  | .id2 => 2
  | .id4 => 4

@[simp] theorem bankIdOf_bankCode (b : BankId) : bankIdOf (bankCode b) = some b := by cases b <;> rfl

/-- The ids that name a bank are the numbers of the four banks (rule R60 C1). -/
theorem bankIdOf_some {id : BitVec 3} {b : BankId} (h : bankIdOf id = some b) : id = bankCode b := by
  revert id b
  decide

theorem bankCode_cases (b : BankId) : bankCode b = 0 ∨ bankCode b = 1 ∨ bankCode b = 2 ∨ bankCode b = 4 := by
  cases b <;> decide

theorem lowOffset_cases (x : LowBase) : lowOffset x = 0x000000 ∨ lowOffset x = 0x100000 := by
  cases x <;> decide

theorem baseOffset_cases (x : BankBase) : baseOffset x = 0x000000 ∨ baseOffset x = 0x100000 ∨ baseOffset x = 0x200000 := by
  cases x <;> decide

/-- BANK_BASE in generations 0 and 1: their one map (rule R60 C3). -/
theorem bankBase_low (c : Cfg) {g : Fin Config.numGens} (hg : g ≠ 2) (b : BankId) :
    bankBase c g (bankCode b) = (c.bankLow b).map lowOffset := by
  have hval : g.val ≠ 2 := fun h => hg (Fin.ext h)
  simp only [bankBase, bankIdOf_bankCode, if_neg hval]

/-- BANK_BASE in generation 2 (rule R60). -/
theorem bankBase_high (c : Cfg) (b : BankId) :
    bankBase c 2 (bankCode b) = if b = c.bankThird then some 0x200000 else (c.bankHigh b).map baseOffset := by
  simp only [bankBase, bankIdOf_bankCode]
  rfl

/-- An id that has a base is a bank's number. -/
theorem exists_bankCode_of_bankBase {c : Cfg} {g : Fin Config.numGens} {id : BitVec 3} {base : BitVec 32}
    (h : bankBase c g id = some base) : ∃ b : BankId, id = bankCode b := by
  cases hid : bankIdOf id with
  | none => simp [bankBase, hid] at h
  | some b => exact ⟨b, bankIdOf_some hid⟩

/-- The bases a bank map uses, and the generation that uses 0x200000 (rule R60 C2, C3). -/
theorem bankBase_range {c : Cfg} {g : Fin Config.numGens} {b : BankId} {base : BitVec 32}
    (h : bankBase c g (bankCode b) = some base) :
    (base = 0x000000 ∨ base = 0x100000 ∨ base = 0x200000) ∧ (g ≠ 2 → base ≠ 0x200000) := by
  by_cases hg : g = 2
  · subst hg
    rw [bankBase_high] at h
    refine ⟨?_, fun hne => absurd rfl hne⟩
    split at h
    · exact .inr (.inr (Option.some.inj h).symm)
    · obtain ⟨x, -, rfl⟩ := Option.map_eq_some_iff.mp h
      exact baseOffset_cases x
  · rw [bankBase_low c hg] at h
    obtain ⟨x, -, rfl⟩ := Option.map_eq_some_iff.mp h
    rcases lowOffset_cases x with hx | hx
    · exact ⟨.inl hx, fun _ => by rw [hx]; decide⟩
    · exact ⟨.inr (.inl hx), fun _ => by rw [hx]; decide⟩

/-- Generations 0 and 1 have the same map (rule R60 C3). -/
theorem bankBase_zero_eq_one (c : Cfg) (id : BitVec 3) : bankBase c 0 id = bankBase c 1 id := rfl

/-- Settles O22. -/
theorem bankMapMeetsItsConstraints : Obligations.BankMapMeetsItsConstraints := by
  refine fun c => ⟨fun g id base h => ?_, bankBase_zero_eq_one c, bankCode c.bankThird, ?_⟩
  · obtain ⟨b, rfl⟩ := exists_bankCode_of_bankBase h
    obtain ⟨hbase, hgen⟩ := bankBase_range h
    exact ⟨bankCode_cases b, hbase, hgen⟩
  · rw [bankBase_high, if_pos rfl]

/-- BANK_RESOLVE reads the id and the offset below bit 23 of its address (rule R61). -/
theorem bankResolve_declaredAddr (c : Cfg) (addr : BitVec 24) (g : Fin Config.numGens) :
    bankResolve c (declaredAddr addr) g =
      (bankBase c g (addr.extractLsb' 20 3)).map fun base => base + (addr.extractLsb' 0 20).setWidth 32 := by
  rw [bankResolve, declaredAddr, BitVec.extractLsb'_setWidth_of_le (by decide),
    BitVec.extractLsb'_setWidth_of_le (by decide)]

/-- Settles O23. -/
theorem decBankResolvesTheAddress : Obligations.DecBankResolvesTheAddress := by
  refine ⟨fun _ _ => rfl, fun c addr s => ⟨fun h => ?_, fun base h => ?_⟩⟩
  · simp only [decBank, bankResolve_declaredAddr, h]
    rfl
  · simp only [decBank, bankResolve_declaredAddr, h]
    rfl

/-! ### The raw image (rule R51) -/

/-- Reading past a first part that lists no byte at the address reads the second part. -/
theorem Memory.read_append_of_ne {m n : Memory} {a : Nat} (h : ∀ x ∈ m, x.1 ≠ a) :
    Memory.read (m ++ n) a = Memory.read n a := by
  induction m with
  | nil => rfl
  | cons c m ih =>
    obtain ⟨hc, hm⟩ := List.forall_mem_cons.mp h
    rw [List.cons_append, Memory.read_cons, if_neg hc, ih hm]

/-- Reading below every byte of the second part reads the first part. -/
theorem Memory.read_append_of_lt {m n : Memory} {a : Nat} (h : ∀ x ∈ n, a < x.1) :
    Memory.read (m ++ n) a = Memory.read m a := by
  induction m with
  | nil => exact Memory.read_of_lt h
  | cons c m ih => rw [List.cons_append, Memory.read_cons, Memory.read_cons, ih]

/-- The bytes of a memory moved up by `d`. -/
def Memory.shift (d : Nat) (m : Memory) : Memory := m.map fun x => (d + x.1, x.2)

theorem Memory.mem_shift {d : Nat} {m : Memory} {y : Host.Cell} :
    y ∈ Memory.shift d m ↔ ∃ x ∈ m, y = (d + x.1, x.2) := by
  simp only [Memory.shift, List.mem_map, eq_comm]

theorem Memory.read_shift (d : Nat) (m : Memory) (a : Nat) : Memory.read (Memory.shift d m) (d + a) = Memory.read m a := by
  induction m with
  | nil => rfl
  | cons c m ih =>
    change Memory.read ((d + c.1, c.2) :: Memory.shift d m) (d + a) = _
    rw [Memory.read_cons, Memory.read_cons, ih]
    simp

theorem Memory.shift_wf (d : Nat) {m : Memory} (hm : Memory.wf m) : Memory.wf (Memory.shift d m) := by
  obtain ⟨hrising, hlisted⟩ := hm
  refine ⟨List.pairwise_map.mpr (hrising.imp fun h => Nat.add_lt_add_left h d), fun y hy => ?_⟩
  obtain ⟨x, hx, rfl⟩ := Memory.mem_shift.mp hy
  exact hlisted x hx

/-- Two canonical memories, the second wholly above the first, make a canonical memory. -/
theorem Memory.append_wf {m n : Memory} (hm : Memory.wf m) (hn : Memory.wf n) (h : ∀ x ∈ m, ∀ y ∈ n, x.1 < y.1) :
    Memory.wf (m ++ n) :=
  ⟨List.pairwise_append.mpr ⟨hm.1, hn.1, h⟩, List.forall_mem_append.mpr ⟨hm.2, hn.2⟩⟩

/-- A well-formed file's bytes are all inside it, so concatenation moves them up and drops none (rule R51). -/
theorem concatFrom_cons {f : RomFile} (hf : RomFile.wf f) (at0 : Nat) (rest : List RomFile) :
    concatFrom at0 (f :: rest) = Memory.shift at0 f.cells ++ concatFrom (at0 + f.size) rest := by
  rw [concatFrom, List.filter_eq_self.mpr fun x hx => decide_eq_true (hf.2 x hx)]
  rfl

/-- The concatenation from an offset on has no byte below that offset. -/
theorem le_of_mem_concatFrom {at0 : Nat} {files : List RomFile} {x : Host.Cell} (h : x ∈ concatFrom at0 files) :
    at0 ≤ x.1 := by
  induction files generalizing at0 with
  | nil => cases h
  | cons f rest ih =>
    rw [concatFrom, List.mem_append, List.mem_map] at h
    rcases h with ⟨y, -, rfl⟩ | h
    · exact Nat.le_add_right ..
    · exact (Nat.le_add_right ..).trans (ih h)

theorem concatFrom_wf {files : List RomFile} (hfiles : ∀ f ∈ files, RomFile.wf f) (at0 : Nat) :
    Memory.wf (concatFrom at0 files) := by
  induction files generalizing at0 with
  | nil => exact ⟨List.Pairwise.nil, by simp [concatFrom]⟩
  | cons f rest ih =>
    obtain ⟨hf, hrest⟩ := List.forall_mem_cons.mp hfiles
    rw [concatFrom_cons hf]
    refine Memory.append_wf (Memory.shift_wf at0 hf.1) (ih hrest _) fun x hx y hy => ?_
    obtain ⟨z, hz, rfl⟩ := Memory.mem_shift.mp hx
    exact (Nat.add_lt_add_left (hf.2 z hz) at0).trans_le (le_of_mem_concatFrom hy)

/-- The files after the first ones are concatenated from the sum of the first ones' sizes on (rule R51). -/
theorem concatFrom_append (at0 : Nat) (before rest : List RomFile) :
    concatFrom at0 (before ++ rest) = concatFrom at0 before ++ concatFrom (at0 + imageSize before) rest := by
  induction before generalizing at0 with
  | nil => rfl
  | cons f before ih =>
    have hsize : at0 + imageSize (f :: before) = at0 + f.size + imageSize before := by
      simp only [imageSize, List.map_cons, List.sum_cons]
      omega
    rw [List.cons_append, concatFrom, concatFrom, ih, hsize, List.append_assoc]

/-- Settles O24: a file's bytes are neither among those of the files before it nor among those of the files after it. -/
theorem rawImageIsTheConcatenation : Obligations.RawImageIsTheConcatenation := by
  intro before after f hwf
  refine ⟨concatFrom_wf hwf 0, fun a ha => ?_⟩
  have hf : RomFile.wf f := hwf f (by simp)
  change Memory.read _ (imageSize before + a) = _
  rw [rawImage, concatFrom_append, Nat.zero_add, concatFrom_cons hf, Memory.read_append_of_ne fun x hx => ?_,
    Memory.read_append_of_lt fun x hx => ?_, Memory.read_shift]
  · have := le_of_mem_concatFrom hx
    omega
  · have := concatFrom_lt hx
    omega

end Sys2Proof.Machine
end

section
/-! SUPPORT. The descrambled image byte by byte (rule R58), the positions of DPCM_DECODE (rules R107, R109), and what
DEC_START makes of the records and of its inputs (rules R102, R106, R111). -/

namespace Sys2Proof.Machine

/-! ### The descrambled image (rule R58) -/

/-- Writing a list of bytes that agree at an address leaves that value there, if one of them is at the address or the
memory held it before. -/
theorem Memory.read_foldl_write {cells : List Host.Cell} {m : Memory} {a : Nat} {v : Byte} (hm : Memory.wf m)
    (hagree : ∀ y ∈ cells, y.1 = a → y.2 = v) (hsome : Memory.read m a = v ∨ ∃ y ∈ cells, y.1 = a) :
    Memory.read (cells.foldl (fun m c => Memory.write m c.1 c.2) m) a = v := by
  induction cells generalizing m with
  | nil => simpa using hsome
  | cons d cells ih =>
    obtain ⟨hd, hagree⟩ := List.forall_mem_cons.mp hagree
    refine ih (Memory.write_wf hm d.1 d.2) hagree ?_
    rw [Memory.read_write hm]
    by_cases hda : a = d.1
    · rw [if_pos hda]
      exact .inl (hd hda.symm)
    · rw [if_neg hda]
      rcases hsome with hread | ⟨y, hy, hya⟩
      · exact .inl hread
      · rcases List.mem_cons.mp hy with rfl | hy
        · exact absurd hya.symm hda
        · exact .inr ⟨y, hy, hya⟩

/-- A bank and an offset in it make one address. -/
theorem bankAddr_inj {b d : Nat} {o r : BitVec 20} :
    b * Config.bankSize + o.toNat = d * Config.bankSize + r.toNat ↔ b = d ∧ o = r := by
  have ho := o.isLt
  have hr := r.isLt
  change b * 2 ^ 20 + o.toNat = d * 2 ^ 20 + r.toNat ↔ _
  rw [BitVec.toNat_eq]
  omega

theorem exists_bankAddr (a : Nat) : ∃ (d : Nat) (r : BitVec 20), a = d * Config.bankSize + r.toNat := by
  refine ⟨a / 2 ^ 20, BitVec.ofNat 20 a, ?_⟩
  rw [BitVec.toNat_ofNat]
  exact (Nat.div_add_mod' a (2 ^ 20)).symm

/-- The plain byte a raw byte stands for at a plain offset: itself in the header, DMAP of it past the header (rule
R58). -/
def plainByte (c : Cfg) (o : BitVec 20) (u : Byte) : Byte := if o.toNat < Config.headerSize then u else dmap c u

theorem plainByte_unlisted (c : Cfg) (o : BitVec 20) : plainByte c o Memory.unlisted = Memory.unlisted := by
  unfold plainByte
  split
  · rfl
  · exact dmap_zero c

/-- What one raw byte gives, at a bank and an offset in it. -/
theorem plainCells_bankAddr (c : Cfg) (d : Nat) (r : BitVec 20) (u : Byte) :
    plainCells c (d * Config.bankSize + r.toNat, u) =
      (if r.toNat < Config.headerSize then [(d * Config.bankSize + r.toNat, u)] else []) ++
        (if (permuteAddr c.addrPerm.symm r).toNat < Config.headerSize then []
          else [(d * Config.bankSize + (permuteAddr c.addrPerm.symm r).toNat, dmap c u)]) := by
  have hr : r.toNat < Config.bankSize := r.isLt
  have hdiv : (d * Config.bankSize + r.toNat) / Config.bankSize = d := by
    rw [Nat.mul_comm, Nat.mul_add_div (Nat.two_pow_pos 20), Nat.div_eq_of_lt hr, Nat.add_zero]
  have hmod : BitVec.ofNat 20 ((d * Config.bankSize + r.toNat) % Config.bankSize) = r := by
    rw [Nat.mul_comm, Nat.mul_add_mod, Nat.mod_eq_of_lt hr, BitVec.ofNat_toNat, BitVec.setWidth_eq]
  simp only [plainCells, hdiv, hmod]

/-- A raw byte gives the plain byte at offset `o` exactly if it stands at AMAP(o) of the same bank (rule R58). -/
theorem mem_plainCells_iff {c : Cfg} {b d : Nat} {o r : BitVec 20} {u v : Byte} :
    (b * Config.bankSize + o.toNat, v) ∈ plainCells c (d * Config.bankSize + r.toNat, u) ↔
      (d = b ∧ r = amap c o) ∧ v = plainByte c o u := by
  simp only [plainCells_bankAddr, List.mem_append, List.mem_ite_nil_right, List.mem_ite_nil_left, List.mem_singleton,
    Prod.mk.injEq, bankAddr_inj]
  by_cases ho : o.toNat < Config.headerSize
  · rw [amap, plainByte, if_pos ho, if_pos ho]
    constructor
    · rintro (⟨-, ⟨rfl, rfl⟩, rfl⟩ | ⟨hpast, ⟨-, rfl⟩, -⟩)
      · exact ⟨⟨rfl, rfl⟩, rfl⟩
      · exact absurd ho hpast
    · rintro ⟨⟨rfl, rfl⟩, rfl⟩
      exact .inl ⟨ho, ⟨rfl, rfl⟩, rfl⟩
  · rw [amap, plainByte, if_neg ho, if_neg ho]
    constructor
    · rintro (⟨hheader, ⟨-, rfl⟩, -⟩ | ⟨-, ⟨rfl, rfl⟩, rfl⟩)
      · exact absurd hheader ho
      · exact ⟨⟨rfl, (permuteAddr_permuteAddr_symm _ _).symm⟩, rfl⟩
    · rintro ⟨⟨rfl, rfl⟩, rfl⟩
      rw [permuteAddr_symm_permuteAddr]
      exact .inr ⟨ho, ⟨rfl, rfl⟩, rfl⟩

/-- PLAIN read at an offset of a bank: the plain byte of the raw byte at AMAP of the offset, in the same bank. -/
theorem read_descramble (c : Cfg) {raw : Memory} (hraw : Memory.wf raw) (b : Nat) (o : BitVec 20) :
    Memory.read (descramble c raw) (b * Config.bankSize + o.toNat) =
      plainByte c o (Memory.read raw (b * Config.bankSize + (amap c o).toNat)) := by
  refine Memory.read_foldl_write ⟨List.Pairwise.nil, by simp⟩ (fun y hy hya => ?_) ?_
  · obtain ⟨⟨a, u⟩, hx, hxy⟩ := List.mem_flatMap.mp hy
    obtain ⟨d, r, rfl⟩ := exists_bankAddr a
    obtain ⟨y1, v⟩ := y
    obtain rfl : y1 = _ := hya
    obtain ⟨⟨rfl, rfl⟩, rfl⟩ := mem_plainCells_iff.mp hxy
    rw [Memory.read_of_mem hraw hx]
  · by_cases hread : Memory.read raw (b * Config.bankSize + (amap c o).toNat) = Memory.unlisted
    · rw [hread, plainByte_unlisted]
      exact .inl rfl
    · exact .inr ⟨_, List.mem_flatMap.mpr ⟨_, Memory.mem_of_read hread, mem_plainCells_iff.mpr ⟨⟨rfl, rfl⟩, rfl⟩⟩, rfl⟩

/-- Settles O25. -/
theorem plainImageReadsAsDescrambled : Obligations.PlainImageReadsAsDescrambled := by
  intro c raw hraw b o
  have hread := read_descramble c hraw b o
  by_cases ho : o.toNat < 0x20
  · rw [plainByte, amap, if_pos ho, if_pos ho] at hread
    rw [if_pos ho]
    exact hread
  · rw [plainByte, if_neg ho] at hread
    rw [if_neg ho]
    exact hread

/-! ### The positions of DPCM_DECODE (rules R62, R107, R109) -/

/-- A decode whose last position is outside the image raises E_UNDEF (rule R107). -/
theorem dpcmFrom_undef {plain : Memory} {size count a : Nat} {x : F32} (h : size ≤ a + count) :
    dpcmFrom plain size (count + 1) a x = .error .undef := by
  induction count generalizing a x with
  | zero => exact if_pos h
  | succ count ih =>
    rw [dpcmFrom]
    split
    · rfl
    · simp only [ih (a := a + 1) (by omega)]

/-- A decode whose positions are all inside the image yields values (rule R107). -/
theorem dpcmFrom_inside {plain : Memory} {size count a : Nat} {x : F32} (h : a + count ≤ size) :
    ∃ ws, dpcmFrom plain size count a x = .ok ws := by
  induction count generalizing a x with
  | zero => exact ⟨[], rfl⟩
  | succ count ih =>
    obtain ⟨ws, hws⟩ := ih (a := a + 1) (x := fadd x (deltaAt plain (BitVec.ofNat 32 a))) (by omega)
    refine ⟨fadd x (deltaAt plain (BitVec.ofNat 32 a)) :: ws, ?_⟩
    simp only [dpcmFrom, if_neg (show ¬ size ≤ a by omega), hws]

/-- The first value of a decode is the running value plus the first delta (rule R109). -/
theorem dpcmFrom_head {plain : Memory} {size count a : Nat} {x : F32} {ws : List F32}
    (h : dpcmFrom plain size (count + 1) a x = .ok ws) :
    ws[0]? = some (fadd x (deltaAt plain (BitVec.ofNat 32 a))) := by
  obtain ⟨-, rest, rfl, -⟩ := dpcmFrom_succ_ok h
  rfl

/-- Each later value of a decode is the one before it plus its position's delta (rule R107). -/
theorem dpcmFrom_next {plain : Memory} {size count a : Nat} {x : F32} {ws : List F32}
    (h : dpcmFrom plain size (count + 1) a x = .ok ws) {q : Nat} (hq : q < count) :
    ws[q + 1]? = (ws[q]?).map fun y => fadd y (deltaAt plain (BitVec.ofNat 32 (a + q + 1))) := by
  induction q generalizing count a x ws with
  | zero =>
    obtain ⟨count, rfl⟩ := Nat.exists_eq_add_one.mpr hq
    obtain ⟨-, rest, rfl, hrest⟩ := dpcmFrom_succ_ok h
    exact dpcmFrom_head hrest
  | succ q ih =>
    obtain ⟨count, rfl⟩ := Nat.exists_eq_add_one.mpr (Nat.zero_lt_of_lt hq)
    obtain ⟨-, rest, rfl, hrest⟩ := dpcmFrom_succ_ok h
    have htail := ih hrest (Nat.lt_of_succ_lt_succ hq)
    rwa [show a + 1 + q + 1 = a + (q + 1) + 1 by omega] at htail

/-- Bit 4 of a position as a number chooses the nibble of its companion byte (rule R107). -/
theorem deltaAt_eq (plain : Memory) (a : BitVec 32) {companion : Byte}
    (h : Memory.read plain (companionAddr a).toNat = companion) :
    deltaAt plain a = delta (Memory.read plain a.toNat)
      (if a.toNat / 2 ^ 4 % 2 = 1 then companion.extractLsb' 4 4 else companion.extractLsb' 0 4) := by
  have hbit : a.getLsbD 4 = decide (a.toNat / 2 ^ 4 % 2 = 1) := Nat.testBit_eq_decide_div_mod_eq
  simp only [deltaAt, h, hbit, decide_eq_true_eq]

/-- Settles O27. -/
theorem dpcmDecodeRunsOverThePositions : Obligations.DpcmDecodeRunsOverThePositions := by
  refine fun plain size r len => ⟨dpcmFrom_undef, fun h => ?_, fun a => ?_⟩
  · obtain ⟨w, hw⟩ := dpcmFrom_inside (plain := plain) (size := size) (count := len.toNat + 1) (a := r.toNat)
      (x := F32.zero) (by omega)
    have hhead := dpcmFrom_head hw
    rw [BitVec.ofNat_toNat, BitVec.setWidth_eq] at hhead
    exact ⟨w, hw, dpcmFrom_length hw, hhead, fun q hq => dpcmFrom_next hw hq⟩
  · have haddr := companionAddr_toNat a
    exact ⟨by omega, by omega, by omega, fun companion => deltaAt_eq plain a⟩

/-! ### The records (rule R106) -/

/-- A record whose bank id has no base. -/
theorem decodeOne_of_no_base {c : Cfg} {g : Fin Config.numGens} {m : SampleMeta}
    (h : bankBase c g (m.addr.extractLsb' 20 3) = none) (plain : Memory) (nb : Nat) :
    decodeOne c plain nb g m = .error .bankId := by
  simp only [decodeOne, bankResolve, h, Option.map_none]

/-- An address whose bank id has a base resolves to the base plus its low 20 bits (rule R61). -/
theorem bankResolve_of_base {c : Cfg} {g : Fin Config.numGens} {addr base : BitVec 32}
    (h : bankBase c g (addr.extractLsb' 20 3) = some base) :
    bankResolve c addr g = some (base + (addr.extractLsb' 0 20).setWidth 32) := by
  rw [bankResolve, h, Option.map_some]

/-- A record whose positions do not decode has their error. -/
theorem decodeOne_of_dpcm_error {c : Cfg} {plain : Memory} {nb : Nat} {g : Fin Config.numGens} {m : SampleMeta}
    {start : BitVec 32} {e : ECode} (hstart : bankResolve c m.addr g = some start)
    (h : dpcmDecode plain (nb * Config.bankSize) start m.sampleLength = .error e) :
    decodeOne c plain nb g m = .error e := by
  rw [Nat.mul_comm] at h
  simp only [decodeOne, hstart, h]

/-- A record whose positions decode is unwrapped in loop mode 1, and otherwise keeps its metadata. -/
theorem decodeOne_of_dpcm_ok {c : Cfg} {plain : Memory} {nb : Nat} {g : Fin Config.numGens} {m : SampleMeta}
    {start : BitVec 32} {w : List F32} (hstart : bankResolve c m.addr g = some start)
    (h : dpcmDecode plain (nb * Config.bankSize) start m.sampleLength = .ok w) :
    decodeOne c plain nb g m = if m.loopMode = 1 then pingpongUnwrap w m
      else .ok ⟨w, m.sampleLength, m.loopStart, m.loopLength, m.loopMode⟩ := by
  rw [Nat.mul_comm] at h
  simp only [decodeOne, hstart, h]

theorem decodeAll_cons_of_error {c : Cfg} {plain : Memory} {nb : Nat} {g : Fin Config.numGens} {m : SampleMeta} {e : ECode}
    (h : decodeOne c plain nb g m = .error e) (rest : List SampleMeta) :
    decodeAll c plain nb g (m :: rest) = .error e := by
  simp only [decodeAll, h]

/-- Records that all decode make the table of what they decode to (rule R106). -/
theorem decodeAll_of_forall₂ {c : Cfg} {plain : Memory} {nb : Nat} {g : Fin Config.numGens} {records : List SampleMeta}
    {ss : List SampleSet} (h : List.Forall₂ (fun m e => decodeOne c plain nb g m = .ok e) records ss) :
    decodeAll c plain nb g records = .ok ss := by
  induction h with
  | nil => rfl
  | cons hm _ ih => simp only [decodeAll, hm, ih]

/-- Two lists are related entry by entry exactly if they are equally long and the entries at each index are related. -/
theorem forall₂_iff_getElem? {α β : Type} {R : α → β → Prop} {xs : List α} {ys : List β} :
    List.Forall₂ R xs ys ↔
      ys.length = xs.length ∧ ∀ (k : Nat) (x : α) (y : β), xs[k]? = some x → ys[k]? = some y → R x y := by
  rw [List.forall₂_iff_get]
  refine and_congr eq_comm ⟨fun h k x y hx hy => ?_, fun h k hx hy => h k _ _ ?_ ?_⟩
  · obtain ⟨hkx, rfl⟩ := List.getElem?_eq_some_iff.mp hx
    obtain ⟨hky, rfl⟩ := List.getElem?_eq_some_iff.mp hy
    exact h k hkx hky
  · exact List.getElem?_eq_getElem hx
  · exact List.getElem?_eq_getElem hy

/-- The first record in index order that fails gives the error (rule R106). -/
theorem decodeAll_of_first_error {c : Cfg} {plain : Memory} {nb : Nat} {g : Fin Config.numGens}
    {records : List SampleMeta} {k : Nat} {m : SampleMeta} {e : ECode} (hk : records[k]? = some m)
    (he : decodeOne c plain nb g m = .error e)
    (hbefore : ∀ (j : Nat) (x : SampleMeta), j < k → records[j]? = some x → ∃ d, decodeOne c plain nb g x = .ok d) :
    decodeAll c plain nb g records = .error e := by
  induction records generalizing k with
  | nil => cases hk
  | cons r rest ih =>
    cases k with
    | zero =>
      obtain rfl := Option.some.inj hk
      exact decodeAll_cons_of_error he rest
    | succ k =>
      obtain ⟨d, hd⟩ := hbefore 0 r (Nat.succ_pos k) rfl
      have hrest := ih (k := k) hk fun j x hj hx => hbefore (j + 1) x (Nat.succ_lt_succ hj) hx
      simp only [decodeAll, hd, hrest]

/-! ### DEC_START (rules R102, R111) -/

/-- DEC_START on inputs that load commits what they gave. -/
theorem decStart_of_load_ok {c : Cfg} {s : State} {l : Loaded} (hs : s.dstate ≠ .ready)
    (h : load c s.romFiles s.smeta s.gen = .ok l) : decStart c s = complete 0 (commitLoad l s) := by
  simp only [decStart, if_neg hs, h]

/-- DEC_START on inputs that do not load aborts with their error. -/
theorem decStart_of_load_error {c : Cfg} {s : State} {e : ECode} (hs : s.dstate ≠ .ready)
    (h : load c s.romFiles s.smeta s.gen = .error e) :
    decStart c s = complete ((ecodeCode e).setWidth 32) (abortLoad e s) := by
  simp only [decStart, if_neg hs, h]

/-- A load fails with the error of the first stage that fails (rule R102). -/
theorem load_of_error {c : Cfg} {entries : List RomEntry} {records : List SampleMeta} {g : Fin Config.numGens} {e : ECode}
    (h : validateInputs entries = .error e ∨ ∃ files nb, validateInputs entries = .ok (files, nb) ∧
      decodeAll c (descramble c (rawImage files)) nb g records = .error e) :
    load c entries records g = .error e := by
  rcases h with hv | ⟨files, nb, hv, hd⟩
  · simp only [load, hv]
  · simp only [load, hv, hd]

/-- Settles O31. -/
theorem decStartCommitsOrAborts : Obligations.DecStartCommitsOrAborts := by
  refine ⟨fun _ => rfl, fun c s => ⟨fun hs => if_pos hs, fun hs files nb ss hv hd => ?_, fun hs e he => ?_,
    fun plain nb g => ⟨fun m => ⟨fun h => decodeOne_of_no_base h plain nb, ?_⟩, fun records ss => ?_, ?_⟩⟩⟩
  · have hload : load c s.romFiles s.smeta s.gen = .ok ⟨nb, descramble c (rawImage files),
        readVersion (descramble c (rawImage files)), readDate (descramble c (rawImage files)), ss⟩ := by
      simp only [load, hv, hd]
    rw [decStart_of_load_ok hs hload]
    rfl
  · rw [decStart_of_load_error hs (load_of_error he)]
    cases e <;> rfl
  · rintro base start hbase rfl
    have hstart := bankResolve_of_base hbase
    refine ⟨fun e => decodeOne_of_dpcm_error hstart, fun w hw => ⟨fun hmode => ?_, fun hmode => ?_⟩⟩
    · rw [decodeOne_of_dpcm_ok hstart hw, if_pos hmode]
    · rw [decodeOne_of_dpcm_ok hstart hw, if_neg hmode]
  · exact ⟨fun h => forall₂_iff_getElem?.mp (decodeAll_ok h), fun h => decodeAll_of_forall₂ (forall₂_iff_getElem?.mpr h)⟩
  · exact fun records k m e => decodeAll_of_first_error

end Sys2Proof.Machine
end

section
/-! SUPPORT. The encoding (30_encoding.md): what each format reads back from the bits it was given (rules R81 to R83), the
opcode map as one reader per opcode of a format (rule R86), and the words that are rejected (rules R87, R88). -/

namespace Sys2Proof.Machine

/-! ### Format N (rule R81) -/

theorem decodeN_zero (op : Byte) (i : Instr) : decodeN op 0 i = .ok i := if_pos rfl

theorem decodeN_of_ne {imm : BitVec 24} (h : imm ≠ 0) (op : Byte) (i : Instr) :
    decodeN op imm i = .error (.reservedBits op) := if_neg h

/-! ### Format D (rule R82) -/

/-- The must-be-zero bits of a format-D word are 0 when IMM is a number of the bits its command uses. -/
theorem extractLsb'_high_eq_zero_iff (imm : BitVec 24) (n : Nat) :
    imm.extractLsb' n (24 - n) = 0 ↔ imm.toNat < 2 ^ n := by
  have himm : imm.toNat < 2 ^ n * 2 ^ (24 - n) := by
    rw [← pow_add]
    exact imm.isLt.trans_le (Nat.pow_le_pow_right two_pos (by omega))
  rw [BitVec.toNat_eq, toNat_extractLsb'_eq, Nat.mod_eq_of_lt (Nat.div_lt_of_lt_mul himm)]
  change _ = 0 ↔ _
  rw [Nat.div_eq_zero_iff]
  exact or_iff_right (Nat.two_pow_pos n).ne'

theorem immD_toNat {n : Nat} (hn : n ≤ 24) (v : BitVec n) : (immD v).toNat = v.toNat := by
  rw [immD, BitVec.toNat_setWidth_of_le hn]

/-- An IMM that has nothing past its low `n` bits is the format-D operand word of those bits. -/
theorem immD_extractLsb' {imm : BitVec 24} {n : Nat} (h : imm.toNat < 2 ^ n) : immD (imm.extractLsb' 0 n) = imm := by
  apply BitVec.eq_of_toNat_eq
  rw [immD, BitVec.toNat_setWidth, toNat_extractLsb'_eq, pow_zero, Nat.div_one, Nat.mod_eq_of_lt h,
    Nat.mod_eq_of_lt imm.isLt]

/-- Format D reads back the operand it was encoded from. -/
theorem decodeD_immD (op : Byte) {n : Nat} (hn : n ≤ 24) (v : BitVec n) (f : BitVec n → Instr) :
    decodeD op (immD v) n f = .ok (f v) := by
  have hread : (immD v).extractLsb' 0 n = v := by
    apply BitVec.eq_of_toNat_eq
    rw [toNat_extractLsb'_eq, immD_toNat hn, pow_zero, Nat.div_one, Nat.mod_eq_of_lt v.isLt]
  rw [decodeD, if_pos ((extractLsb'_high_eq_zero_iff _ n).mpr (immD_toNat hn v ▸ v.isLt)), hread]

theorem decodeD_of_le {imm : BitVec 24} {n : Nat} (h : 2 ^ n ≤ imm.toNat) (op : Byte) (f : BitVec n → Instr) :
    decodeD op imm n f = .error (.reservedBits op) :=
  if_neg fun hzero => Nat.not_lt.mpr h ((extractLsb'_high_eq_zero_iff imm n).mp hzero)

/-! ### Format P (rule R83) -/

theorem immP_toNat (p : PartIx) (a b : Byte) : (immP p a b).toNat = p.val * 2 ^ 20 + a.toNat * 2 ^ 8 + b.toNat := by
  have hp : p.val < 16 := p.isLt
  simp only [immP, toNat_append_eq_add, BitVec.toNat_ofNat]
  omega

/-- An IMM whose reserved field is 0 is the format-P operand word of its own fields. -/
theorem immP_aField_bField {imm : BitVec 24} {p : PartIx} (hres : reservedField imm = 0)
    (hpart : p.val = (partField imm).toNat) : immP p (aField imm) (bField imm) = imm := by
  have himm := imm.isLt
  have hzero : imm.toNat / 2 ^ 16 % 2 ^ 4 = 0 := (toNat_extractLsb'_eq imm 16 4).symm.trans (congrArg BitVec.toNat hres)
  apply BitVec.eq_of_toNat_eq
  simp only [immP_toNat, hpart, partField, aField, bField, toNat_extractLsb'_eq]
  omega

theorem decodeP_immP_of_reads_a (op : Byte) (p : PartIx) (a : Byte) (g : PartIx → Byte → Instr) :
    decodeP op (immP p a 0) (fun p a _ => g p a) = .ok (g p a) := decodeP_immP op p a 0 _

theorem decodeP_immP_of_reads_none (op : Byte) (p : PartIx) (g : PartIx → Instr) :
    decodeP op (immP p 0 0) (fun p _ _ => g p) = .ok (g p) := decodeP_immP op p 0 0 _

theorem decodeP_of_reserved {imm : BitVec 24} (h : reservedField imm ≠ 0) (op : Byte)
    (f : PartIx → Byte → Byte → Instr) : decodeP op imm f = .error (.reservedBits op) := if_neg h

/-- Clearing bits of A and B in a format-P word is clearing them in the operands. -/
theorem append_immP_and (op : Byte) (p : PartIx) (a b x y : Byte) :
    (op ++ immP p a b) &&& (0xFF#8 ++ (0xFF#8 ++ x ++ y)) = op ++ immP p (a &&& x) (b &&& y) := by
  have himm : immP p a b &&& (0xFF#8 ++ x ++ y) = immP p (a &&& x) (b &&& y) := by
    have hpart : (BitVec.ofNat 4 p.val ++ 0#4) &&& 0xFF#8 = BitVec.ofNat 4 p.val ++ 0#4 := BitVec.and_allOnes
    change ((BitVec.ofNat 4 p.val ++ 0#4) ++ a ++ b) &&& (0xFF#8 ++ x ++ y) = _
    rw [BitVec.and_append, BitVec.and_append, hpart]
    rfl
  have hop : op &&& 0xFF#8 = op := BitVec.and_allOnes
  rw [BitVec.and_append, himm, hop]

/-- The bits of a format-P word that a command reading A alone carries. -/
theorem append_immP_of_reads_a {op : Byte} (h : usedBits op = 0xFFFFFF00) (p : PartIx) (a b : Byte) :
    op ++ immP p a 0 = (op ++ immP p a b) &&& usedBits op := by
  have hand := append_immP_and op p a b 0xFF 0x00
  rw [show a &&& 0xFF = a from BitVec.and_allOnes, show b &&& 0x00 = 0 from BitVec.and_zero] at hand
  rw [h, ← hand]
  rfl

/-- The bits of a format-P word that a command reading neither A nor B carries. -/
theorem append_immP_of_reads_none {op : Byte} (h : usedBits op = 0xFFFF0000) (p : PartIx) (a b : Byte) :
    op ++ immP p 0 0 = (op ++ immP p a b) &&& usedBits op := by
  have hand := append_immP_and op p a b 0x00 0x00
  rw [show a &&& 0x00 = 0 from BitVec.and_zero, show b &&& 0x00 = 0 from BitVec.and_zero] at hand
  rw [h, ← hand]
  rfl

/-! ### The opcode map (rule R86): the format of an opcode gives the reader, and the reader's commands encode back -/

/-- The opcodes of the three formats and the unassigned ones are all opcodes. -/
theorem format_cases (op : Byte) : formatN op ∨ (∃ n, formatD op n) ∨ formatP op ∨ unassignedOp op := by
  simp only [formatN, formatD, formatP, unassignedOp, exists_or, exists_and_left, exists_eq, and_true]
  omega

/-- What a format-N opcode `op` does in the map: it is the command `i`, whose word has no operand bits. -/
def ReadsN (op : Byte) (i : Instr) : Prop :=
  (∀ imm, decodeFields op imm = decodeN op imm i) ∧ encode i = (op ++ (0 : BitVec 24)) &&& usedBits op

/-- What a format-D opcode `op` does in the map: `f` builds its command from the low `n` bits of IMM, and the command's
word holds them. -/
def ReadsD (op : Byte) (n : Nat) (f : BitVec n → Instr) : Prop :=
  (∀ imm, decodeFields op imm = decodeD op imm n f) ∧ ∀ v, encode (f v) = (op ++ immD v) &&& usedBits op

/-- What a format-P opcode `op` does in the map: `f` builds its command from PART, A and B, and the command's word holds
the bits of them that it reads. -/
def ReadsP (op : Byte) (f : PartIx → Byte → Byte → Instr) : Prop :=
  (∀ imm, decodeFields op imm = decodeP op imm f) ∧ ∀ p a b, encode (f p a b) = (op ++ immP p a b) &&& usedBits op

theorem readsN_of_formatN {op : Byte} (h : formatN op) : ∃ i, ReadsN op i := by
  rcases h with h | h | h | h | h <;> obtain ⟨-, rfl⟩ := BitVec.toNat_eq_nat.mp h <;> exact ⟨_, fun _ => rfl, rfl⟩

theorem readsD_of_formatD {op : Byte} {n : Nat} (h : formatD op n) : ∃ f, ReadsD op n f := by
  rcases h with ⟨h, rfl⟩ | ⟨h, rfl⟩ | ⟨h, rfl⟩ | ⟨h, rfl⟩ | ⟨h, rfl⟩ | ⟨h, rfl⟩ | ⟨h, rfl⟩ | ⟨h, rfl⟩ | ⟨h, rfl⟩ <;>
    obtain ⟨-, rfl⟩ := BitVec.toNat_eq_nat.mp h <;>
    exact ⟨_, fun _ => rfl, fun _ => BitVec.and_allOnes.symm⟩

theorem readsP_of_reads_a {op : Byte} {g : PartIx → Byte → Instr}
    (hread : ∀ imm, decodeFields op imm = decodeP op imm fun p a _ => g p a) (hused : usedBits op = 0xFFFFFF00)
    (hencode : ∀ p a, encode (g p a) = op ++ immP p a 0) : ∃ f, ReadsP op f :=
  ⟨_, hread, fun p a b => (hencode p a).trans (append_immP_of_reads_a hused p a b)⟩

theorem readsP_of_reads_none {op : Byte} {g : PartIx → Instr}
    (hread : ∀ imm, decodeFields op imm = decodeP op imm fun p _ _ => g p) (hused : usedBits op = 0xFFFF0000)
    (hencode : ∀ p, encode (g p) = op ++ immP p 0 0) : ∃ f, ReadsP op f :=
  ⟨_, hread, fun p a b => (hencode p).trans (append_immP_of_reads_none hused p a b)⟩

theorem readsP_of_formatP {op : Byte} (h : formatP op) : ∃ f, ReadsP op f := by
  have hops : (op.toNat = 0x10 ∨ op.toNat = 0x12 ∨ op.toNat = 0x13 ∨ op.toNat = 0x15 ∨ op.toNat = 0x16 ∨
        op.toNat = 0x1A) ∨
      (op.toNat = 0x11 ∨ op.toNat = 0x14 ∨ op.toNat = 0x19 ∨ op.toNat = 0x1B ∨ op.toNat = 0x1C ∨ op.toNat = 0x1D ∨
        op.toNat = 0x1E) ∨
      (op.toNat = 0x17 ∨ op.toNat = 0x18 ∨ op.toNat = 0x20 ∨ op.toNat = 0x21) := by
    unfold formatP at h
    omega
  rcases hops with hboth | hA | hnone
  · rcases hboth with h | h | h | h | h | h <;> obtain ⟨-, rfl⟩ := BitVec.toNat_eq_nat.mp h <;>
      exact ⟨_, fun _ => rfl, fun _ _ _ => BitVec.and_allOnes.symm⟩
  · rcases hA with h | h | h | h | h | h | h <;> obtain ⟨-, rfl⟩ := BitVec.toNat_eq_nat.mp h <;>
      exact readsP_of_reads_a (fun _ => rfl) rfl fun _ _ => rfl
  · rcases hnone with h | h | h | h <;> obtain ⟨-, rfl⟩ := BitVec.toNat_eq_nat.mp h <;>
      exact readsP_of_reads_none (fun _ => rfl) rfl fun _ => rfl

/-- Rule R87: no row of the map has an unassigned opcode. -/
theorem decodeFields_of_unassignedOp {op : Byte} (h : unassignedOp op) (imm : BitVec 24) :
    decodeFields op imm = .error (.unassignedOpcode op) := by
  unfold unassignedOp at h
  unfold decodeFields
  split
  case h_32 => rfl
  all_goals omega

/-! ### Encoding and decoding -/

theorem decode_encode_eq (i : Instr) : decode (encode i) = decodeFields i.opcode i.operandBits := by
  rw [decode, opField_encode, immField_encode]

/-- Settles O1: each command's row of the map is read by its format, which gives the operands back. -/
theorem decodeEncodeRoundTrip : Obligations.DecodeEncodeRoundTrip := by
  intro i
  rw [decode_encode_eq]
  cases i with
  | nop | decStart | decStatus | mixClear | mixRead => exact decodeN_zero _ _
  | decSetgen v | decAddr v | decData v | decBank v | decMeta v | decSel v | decRead v | decInfo v | setXpose v =>
    exact decodeD_immD _ (by decide) v _
  | noteOn p a b | ctrl p a b | prog p a b | polypress p a b | bend p a b | setparam p a b =>
    exact decodeP_immP _ p a b _
  | noteOff p a | chpress p a | mute p a | getparam p a | heldq p a | voiceq p a | pkpq p a =>
    exact decodeP_immP_of_reads_a _ p a _
  | alloff p | preset p | tick p | peak p => exact decodeP_immP_of_reads_none _ p _

/-- Settles O2: in each format the operand word of the command read is the word's IMM. -/
theorem decodedCommandKeepsUsedBits : Obligations.DecodedCommandKeepsUsedBits := by
  intro w i hdecode
  suffices h : encode i = (opField w ++ immField w) &&& usedBits (opField w) by rwa [opField_append_immField] at h
  rw [decode] at hdecode
  rcases format_cases (opField w) with hN | ⟨n, hD⟩ | hP | hU
  · obtain ⟨j, hread, hencode⟩ := readsN_of_formatN hN
    obtain ⟨himm, rfl⟩ := decodeN_ok ((hread _).symm.trans hdecode)
    rw [hencode, himm]
  · obtain ⟨f, hread, hencode⟩ := readsD_of_formatD hD
    obtain ⟨hzero, rfl⟩ := decodeD_ok ((hread _).symm.trans hdecode)
    rw [hencode, immD_extractLsb' ((extractLsb'_high_eq_zero_iff _ n).mp hzero)]
  · obtain ⟨f, hread, hencode⟩ := readsP_of_formatP hP
    obtain ⟨hres, p, hp, rfl⟩ := decodeP_ok ((hread _).symm.trans hdecode)
    rw [hencode, immP_aField_bField hres hp]
  · rw [decodeFields_of_unassignedOp hU] at hdecode
    cases hdecode

/-- Settles O3: each of the ten words is the encoding of its command. -/
theorem specWordsDecode : Obligations.SpecWordsDecode :=
  ⟨decodeEncodeRoundTrip .nop, decodeEncodeRoundTrip (.decSetgen 2), decodeEncodeRoundTrip (.decAddr 0x1F),
    decodeEncodeRoundTrip (.decBank 0x100040), decodeEncodeRoundTrip (.noteOn 0 60 100),
    decodeEncodeRoundTrip (.ctrl 2 7 90), decodeEncodeRoundTrip (.prog 0 5 1), decodeEncodeRoundTrip (.mute 1 1),
    decodeEncodeRoundTrip (.tick 15), decodeEncodeRoundTrip (.setXpose 66)⟩

/-! ### Rejected words (rules R87, R88, R233) -/

/-- A word that is no command is taken and rejected, whatever the reason. -/
theorem step_of_decode_error {cw : Word} {e : Illegal} {rest : List PortEvent} {s : State}
    (hport : s.port = .command cw :: rest) (h : decode cw = .error e) :
    step s = .next { s with port := rest, cmdErr := true, res := 0xFFFFFFFF } := by
  rw [step_command hport, runWord, h]
  rfl

/-- Settles O4. -/
theorem unassignedOpcodesAreRejected : Obligations.UnassignedOpcodesAreRejected :=
  fun _ _ _ hport hop => step_of_decode_error hport (decodeFields_of_unassignedOp hop _)

/-- Settles O5: the reader of each format rejects its own must-be-zero field. -/
theorem mustBeZeroFieldsReject : Obligations.MustBeZeroFieldsReject := by
  intro cw rest s hport hfield
  apply step_of_decode_error hport (e := .reservedBits (opField cw))
  rw [decode]
  rcases hfield with ⟨hN, himm⟩ | ⟨n, hD, himm⟩ | ⟨hP, hres⟩
  · obtain ⟨i, hread, -⟩ := readsN_of_formatN hN
    rw [hread, decodeN_of_ne himm]
  · obtain ⟨f, hread, -⟩ := readsD_of_formatD hD
    rw [hread, decodeD_of_le himm]
  · obtain ⟨f, hread, -⟩ := readsP_of_formatP hP
    have hreserved : reservedField (immField cw) = cw.extractLsb' 16 4 :=
      BitVec.extractLsb'_extractLsb'_of_le (by decide)
    rw [hread, decodeP_of_reserved (hreserved ▸ hres)]

/-! ### PROG (rules R85, R149) -/

/-- A 16-bit value equal to B * 256 + A is the program index of the two operands. -/
theorem eq_programIndex {lo hi : Byte} {i : BitVec 16} (h : i.toNat = hi.toNat * 256 + lo.toNat) :
    i = programIndex lo hi := BitVec.eq_of_toNat_eq (h.trans (programIndex_toNat lo hi).symm)

/-- PROG with a valid index sets PROG, and MODE to what PROGRAM_MODE gives, or to itself. -/
theorem setProgram_of_valid {c : Cfg} {lo hi : Byte} (hv : c.programValid (programIndex lo hi) = true) (p : PartIx)
    (s : State) : setProgram c p lo hi s = complete 0 (s.setPart p { s.part p with
      prog := programIndex lo hi, mode := (c.programMode (programIndex lo hi)).getD (s.part p).mode }) := if_pos hv

/-- PROG with an invalid index drops. -/
theorem setProgram_of_invalid {c : Cfg} {lo hi : Byte} (hv : c.programValid (programIndex lo hi) = false) (p : PartIx)
    (s : State) : setProgram c p lo hi s = drop s := if_neg (Bool.eq_false_iff.mp hv)

/-- Settles O42. -/
theorem progSetsProgramAndMode : Obligations.ProgSetsProgramAndMode := by
  refine ⟨fun _ _ _ _ => rfl, fun c p lo hi i s hi' => ?_⟩
  obtain rfl := eq_programIndex hi'
  refine ⟨fun hv hmode => ?_, fun m hv hmode => ?_, fun hv => setProgram_of_invalid hv p s⟩
  · rw [setProgram_of_valid hv, hmode]
    rfl
  · rw [setProgram_of_valid hv, hmode]
    rfl

end Sys2Proof.Machine
end

section
/-! SUPPORT. The decoder commands that read or write one register or one decoded value, whole (rules R100, R101, R116 to
R119, R161, R214, R215), and the operands that are rejected in every state (rules R233, R237). -/

namespace Sys2Proof.Machine

/-! ### Registers (rules R100, R101, R117, R161, R214, R215) -/

/-- DEC_SETGEN of a generation sets GEN to it. -/
theorem exec_decSetgen_of_gen {a : BitVec 2} {g : Fin Config.numGens} (h : genOf a = some g) (s : State) :
    exec (.decSetgen a) s = .next (complete 0 { s with gen := g }) := by
  simp only [exec, execDecSetgen, h]

theorem exec_decSetgen_of_none {a : BitVec 2} (h : genOf a = none) (s : State) :
    exec (.decSetgen a) s = .next (reject s) := by
  simp only [exec, execDecSetgen, h]

/-- A generation's own number names it (rule R101). -/
theorem genOf_ofNat (g : Fin Config.numGens) : genOf (BitVec.ofNat 2 g.val) = some g := by
  revert g
  decide

/-- Settles O16. -/
theorem decSetgenSelectsTheGeneration : Obligations.DecSetgenSelectsTheGeneration :=
  ⟨fun g s => exec_decSetgen_of_gen (genOf_ofNat g) s, fun s => exec_decSetgen_of_none (by decide) s⟩

theorem exec_setXpose_of_le {v : Byte} (h : v.toNat ≤ 127) (s : State) :
    exec (.setXpose v) s = .next (complete 0 { s with xpose := v }) := by
  simp only [exec, execSetXpose, if_pos h]

theorem exec_setXpose_of_lt {v : Byte} (h : 127 < v.toNat) (s : State) :
    exec (.setXpose v) s = .next (reject s) := by
  simp only [exec, execSetXpose, if_neg (Nat.not_le.mpr h)]

/-- Settles O17: only SET_XPOSE looks at its operand. -/
theorem plainRegisterCommands : Obligations.PlainRegisterCommands := fun s =>
  ⟨rfl, fun _ => rfl, fun _ h => exec_setXpose_of_le h s, fun _ h => exec_setXpose_of_lt h s, rfl, rfl⟩

/-! ### The metadata strings (rule R116) -/

theorem metaByte_of_version {idx : BitVec 4} (h : idx.toNat < 4) (s : State) :
    metaByte idx s = some s.version[idx.toNat] := dif_pos h

theorem metaByte_of_date {idx : BitVec 4} (h4 : 4 ≤ idx.toNat) (h13 : idx.toNat - 4 < 10) (s : State) :
    metaByte idx s = some s.date[idx.toNat - 4] := by
  rw [metaByte, dif_neg (Nat.not_lt.mpr h4), dif_pos h13]

theorem metaByte_of_past {idx : BitVec 4} (h : 13 < idx.toNat) (s : State) : metaByte idx s = none := by
  rw [metaByte, dif_neg (by omega), dif_neg (by omega)]

/-- DEC_META while READY reads the byte its index names. -/
theorem exec_decMeta_of_byte {idx : BitVec 4} {s : State} {b : Byte} (hs : s.dstate = .ready)
    (hb : metaByte idx s = some b) : exec (.decMeta idx) s = .next (complete (b.setWidth 32) s) := by
  simp only [exec, execDecMeta, if_pos hs, hb]

/-- DEC_META is rejected when not READY, and past the last byte. -/
theorem exec_decMeta_reject {idx : BitVec 4} {s : State} (h : s.dstate ≠ .ready ∨ 13 < idx.toNat) :
    exec (.decMeta idx) s = .next (reject s) := by
  by_cases hs : s.dstate = .ready
  · have hpast := h.resolve_left (not_not.mpr hs)
    simp only [exec, execDecMeta, if_pos hs, metaByte_of_past hpast]
  · simp only [exec, execDecMeta, if_neg hs]

/-- Settles O33. -/
theorem decMetaReadsTheStrings : Obligations.DecMetaReadsTheStrings := fun idx s =>
  ⟨fun hs h => exec_decMeta_of_byte hs (metaByte_of_version (by omega) s),
    fun hs h => exec_decMeta_of_byte hs (metaByte_of_date h.1 (by omega) s), exec_decMeta_reject⟩

/-! ### The selected sample set (rules R118, R119) -/

theorem selectedSet_of_ready {s : State} (h : s.dstate = .ready) : selectedSet s = s.ss[s.ssel.toNat]? := if_pos h

/-- No set is selected when not READY, or when SSEL is not below NSETS. -/
theorem selectedSet_eq_none {s : State} (h : s.dstate ≠ .ready ∨ s.ss.length ≤ s.ssel.toNat) :
    selectedSet s = none := by
  by_cases hs : s.dstate = .ready
  · rw [selectedSet_of_ready hs]
    exact List.getElem?_eq_none (h.resolve_left (not_not.mpr hs))
  · exact if_neg hs

/-- DEC_READ with a selected set: the value at the index, or a reject past sampleLength. -/
theorem exec_decRead_of_set {s : State} {g : SampleSet} (h : selectedSet s = some g) (i : BitVec 24) :
    exec (.decRead i) s = .next (if g.sampleLength.toNat < i.toNat then reject s
      else complete (g.w.getD i.toNat F32.zero).bits s) := by
  simp only [exec, execDecRead, h]

theorem exec_decRead_of_none {s : State} (h : selectedSet s = none) (i : BitVec 24) :
    exec (.decRead i) s = .next (reject s) := by
  simp only [exec, execDecRead, h]

/-- Settles O34. -/
theorem decReadReturnsTheValue : Obligations.DecReadReturnsTheValue := by
  refine fun i s => ⟨fun e x hs he hi hx => ?_, fun h => ?_⟩
  · have hsel : selectedSet s = some e := (selectedSet_of_ready hs).trans he
    rw [exec_decRead_of_set hsel, if_neg (Nat.not_lt.mpr hi), List.getD_eq_getElem?_getD, hx]
    rfl
  · rcases h with hs | hlen | ⟨e, he, hi⟩
    · exact exec_decRead_of_none (selectedSet_eq_none (.inl hs)) i
    · exact exec_decRead_of_none (selectedSet_eq_none (.inr hlen)) i
    · by_cases hs : s.dstate = .ready
      · rw [exec_decRead_of_set ((selectedSet_of_ready hs).trans he), if_pos hi]
        rfl
      · exact exec_decRead_of_none (selectedSet_eq_none (.inl hs)) i

/-- DEC_INFO of a set's field with a selected set. -/
theorem exec_decInfo_of_set {s : State} {g : SampleSet} (h : selectedSet s = some g) {f : BitVec 3} (hf : f.toNat ≤ 3) :
    exec (.decInfo f) s = .next (complete (setField f g) s) := by
  simp only [exec, execDecInfo, if_pos hf, h]

theorem exec_decInfo_of_none {s : State} (h : selectedSet s = none) {f : BitVec 3} (hf : f.toNat ≤ 3) :
    exec (.decInfo f) s = .next (reject s) := by
  simp only [exec, execDecInfo, if_pos hf, h]

/-- The fields 6 and 7 of DEC_INFO are unassigned. -/
theorem exec_decInfo_of_unassigned {f : BitVec 3} (hf : 6 ≤ f.toNat) (s : State) :
    exec (.decInfo f) s = .next (reject s) := by
  simp only [exec, execDecInfo, if_neg (show ¬ f.toNat ≤ 3 by omega), if_neg (show ¬ f.toNat = 4 by omega),
    if_neg (show ¬ f.toNat = 5 by omega)]

/-- Settles O35. -/
theorem decInfoReadsTheFields : Obligations.DecInfoReadsTheFields := by
  refine fun s => ⟨fun e hs he => ?_, fun h f hf => exec_decInfo_of_none (selectedSet_eq_none h) hf, rfl, rfl,
    fun f hf => exec_decInfo_of_unassigned hf s⟩
  have hsel : selectedSet s = some e := (selectedSet_of_ready hs).trans he
  exact ⟨exec_decInfo_of_set hsel (by decide), exec_decInfo_of_set hsel (by decide),
    exec_decInfo_of_set hsel (by decide), exec_decInfo_of_set hsel (by decide)⟩

/-! ### Operands rejected in every state (rules R233, R237) -/

theorem genOf_of_le {a : BitVec 2} (h : Config.numGens ≤ a.toNat) : genOf a = none := dif_neg (Nat.not_lt.mpr h)

theorem exec_mute_reject {m : Byte} (h : 1 < m.toNat) (p : PartIx) (s : State) :
    exec (.mute p m) s = .next (reject s) := by
  simp only [exec, execMute, if_neg (Nat.not_le.mpr h)]

/-- SETPARAM with an id that names no register, or an illegal value of one that does, is rejected (rule R156). -/
theorem exec_setparam_reject {id value : Byte} (h : legalParam id value = false) (p : PartIx) (s : State) :
    exec (.setparam p id value) s = .next (reject s) := by
  rcases Nat.lt_or_ge id.toNat Config.numParams with hid | hid
  · obtain ⟨r, rfl⟩ : ∃ r : Fin Config.numParams, id = BitVec.ofNat 8 r.val :=
      ⟨⟨_, hid⟩, by rw [BitVec.ofNat_toNat, BitVec.setWidth_eq]⟩
    have hv : ¬ legalValue r value = true := by simp [legalValue_iff, h]
    simp only [exec, execSetparam, paramId_ofNat, if_neg hv]
  · simp only [exec, execSetparam, paramId_of_le hid]

/-- GETPARAM with an unassigned id is rejected (rule R157). -/
theorem exec_getparam_reject {id : Byte} (h : readableParam id = false) (p : PartIx) (s : State) :
    exec (.getparam p id) s = .next (reject s) := by
  have hid : 0x18 ≤ id.toNat ∧ (id.toNat < 0x20 ∨ 0x2A < id.toNat) := by
    simp only [readableParam, Bool.or_eq_false_iff, Bool.and_eq_false_iff, decide_eq_false_iff_not, Nat.not_lt,
      Nat.not_le] at h
    exact h
  exact exec_getparam_of_none hid.1 (localParam_eq_none (by omega) _)

theorem exec_heldq_reject {key : Byte} (h : 127 < key.toNat) (p : PartIx) (s : State) :
    exec (.heldq p key) s = .next (reject s) := by
  simp only [exec, execHeldq, midi7_of_lt h]

theorem exec_pkpq_reject {key : Byte} (h : 127 < key.toNat) (p : PartIx) (s : State) :
    exec (.pkpq p key) s = .next (reject s) := by
  simp only [exec, execPkpq, midi7_of_lt h]

theorem exec_voiceq_reject {slot : Byte} (h : Config.numSlots ≤ slot.toNat) (p : PartIx) (s : State) :
    exec (.voiceq p slot) s = .next (reject s) := by
  simp only [exec, execVoiceq, slotId_of_le h]

/-- Settles O9: the commands whose well-formedness is a condition each reject what breaks it. -/
theorem illFormedOperandsReject : Obligations.IllFormedOperandsReject := by
  intro i s h
  cases i with
  | decSetgen g => exact exec_decSetgen_of_none (genOf_of_le (Nat.not_lt.mp (of_decide_eq_false h))) s
  | decMeta idx => exact exec_decMeta_reject (.inr (Nat.not_le.mp (of_decide_eq_false h)))
  | decInfo f => exact exec_decInfo_of_unassigned (Nat.not_le.mp (of_decide_eq_false h)) s
  | mute p m => exact exec_mute_reject (Nat.not_le.mp (of_decide_eq_false h)) p s
  | setparam p id value => exact exec_setparam_reject h p s
  | getparam p id => exact exec_getparam_reject h p s
  | heldq p key => exact exec_heldq_reject (Nat.not_le.mp (of_decide_eq_false h)) p s
  | voiceq p slot => exact exec_voiceq_reject (Nat.not_lt.mp (of_decide_eq_false h)) p s
  | pkpq p key => exact exec_pkpq_reject (Nat.not_le.mp (of_decide_eq_false h)) p s
  | setXpose v => exact exec_setXpose_of_lt (Nat.not_le.mp (of_decide_eq_false h)) s
  | nop | decStart | decStatus | decAddr | decData | decBank | decSel | decRead | noteOn | noteOff | ctrl | prog
  | chpress | polypress | bend | alloff | preset | tick | peak | mixClear | mixRead => cases h

end Sys2Proof.Machine
end

section
/-! SUPPORT. The stages of DEC_START: the input checks in their order (rule R103), the unwrapping of a ping-pong record
(rules R110, R123), and the exact sum of the deltas (rule R122). -/

namespace Sys2Proof.Machine

/-! ### The input checks (rule R103) -/

/-- Files of whole banks pass their checks, and what stands behind them decides. -/
theorem checkFiles_append {good : List RomFile} (h : ∀ f ∈ good, f.size % Config.bankSize = 0) (rest : List RomEntry) :
    checkFiles (good.map .file ++ rest) = (checkFiles rest).map (good ++ ·) := by
  induction good with
  | nil => cases hr : checkFiles rest <;> simp [hr, Except.map]
  | cons f good ih =>
    obtain ⟨hf, hgood⟩ := List.forall_mem_cons.mp h
    simp only [List.map_cons, List.cons_append, checkFiles, if_pos hf, ih hgood]
    cases checkFiles rest <;> rfl

/-- The first entry that fails its check gives the error of the whole, whatever follows it. -/
theorem validateInputs_of_first_error {good : List RomFile} {bad : RomEntry} {rest : List RomEntry} {e : ECode}
    (h : ∀ f ∈ good, f.size % Config.bankSize = 0) (hbad : checkFiles (bad :: rest) = .error e) :
    validateInputs (good.map .file ++ bad :: rest) = .error e := by
  have hcheck : checkFiles (good.map .file ++ bad :: rest) = .error e := by rw [checkFiles_append h, hbad]; rfl
  rw [validateInputs, if_neg (by simp), hcheck]

/-- With every file of whole banks, the number of banks decides. -/
theorem validateInputs_of_good {good : List RomFile} (hne : good ≠ []) (h : ∀ f ∈ good, f.size % Config.bankSize = 0) :
    validateInputs (good.map .file) =
      if imageSize good / Config.bankSize = 0 ∨ Config.maxBanks < imageSize good / Config.bankSize then .error .size
      else .ok (good, imageSize good / Config.bankSize) := by
  have hcheck : checkFiles (good.map .file) = .ok good := by
    simpa [checkFiles, Except.map] using checkFiles_append h []
  rw [validateInputs, if_neg (by simpa using hne), hcheck]

/-- Settles O30: an image of files of whole banks is itself a whole number of banks, so its size bounds that number. -/
theorem inputChecksInOrder : Obligations.InputChecksInOrder := by
  refine ⟨rfl, fun good rest hgood => ⟨validateInputs_of_first_error hgood rfl, fun bad hbad => ?_⟩,
    fun good hne hgood => ?_⟩
  · exact validateInputs_of_first_error hgood (if_neg hbad)
  · obtain ⟨nb, hnb⟩ := bankSize_dvd_imageSize hgood
    have hsize : (good.map RomFile.size).sum = 2 ^ 20 * nb := hnb
    have hdiv : imageSize good / Config.bankSize = nb := by
      rw [hnb]
      exact Nat.mul_div_cancel_left nb (Nat.two_pow_pos 20)
    have hvalid := validateInputs_of_good hne hgood
    rw [hdiv] at hvalid
    refine ⟨fun hout => ?_, fun hpos hle => ?_⟩
    · rw [hvalid, if_pos]
      change nb = 0 ∨ 16 < nb
      omega
    · rw [hvalid, if_neg, hsize, Nat.mul_div_cancel_left nb (Nat.two_pow_pos 20)]
      change ¬ (nb = 0 ∨ 16 < nb)
      omega

/-! ### Ping-pong records (rules R110, R123) -/

/-- A record whose loop is longer than its sample, or whose unwrapped length does not fit, does not unwrap. -/
theorem pingpongUnwrap_undef {m : SampleMeta} (w : List F32) (h : m.sampleLength.toNat < m.loopLength.toNat ∨
    2 ^ 32 ≤ m.sampleLength.toNat + m.loopLength.toNat + 1) : pingpongUnwrap w m = .error .undef := by
  simp only [pingpongUnwrap]
  split
  · rfl
  · next hle => exact if_pos (h.resolve_left hle)

/-- Every other record unwraps. -/
theorem exists_pingpongUnwrap {m : SampleMeta} (w : List F32) (hle : m.loopLength.toNat ≤ m.sampleLength.toNat)
    (hlt : m.sampleLength.toNat + m.loopLength.toNat + 1 < 2 ^ 32) : ∃ e, pingpongUnwrap w m = .ok e := by
  simp only [pingpongUnwrap, if_neg (Nat.not_lt.mpr hle), if_neg (Nat.not_le.mpr hlt)]
  exact ⟨_, rfl⟩

/-- Entry `i` of the mirrored tail is the negation of the value `i` before the end of the sample. -/
theorem getElem?_mirrored {w : List F32} {n l i : Nat} (hlen : w.length = n + 1) (hi : i ≤ l) :
    ((List.range (l + 1)).map fun i => fneg (w.getD (n - i) F32.zero))[i]? = (w[n - i]?).map fneg := by
  have hn : n - i < w.length := by omega
  rw [List.getElem?_map, List.getElem?_range (by omega), List.getElem?_eq_getElem hn, Option.map_some, Option.map_some,
    List.getD_eq_getElem _ _ hn]

/-- Settles O29. -/
theorem pingpongUnwrapsToForward : Obligations.PingpongUnwrapsToForward := by
  refine fun w m hlen => ⟨fun h => pingpongUnwrap_undef w (.inl h), fun h => pingpongUnwrap_undef w (.inr h),
    fun hle hlt => ?_⟩
  obtain ⟨e, he⟩ := exists_pingpongUnwrap w hle hlt
  obtain ⟨-, -, hw, hs, hstart, hloop, hmode⟩ := pingpongUnwrap_ok he
  have hs' : e.sampleLength.toNat = m.sampleLength.toNat + m.loopLength.toNat + 1 := by
    rw [hs, BitVec.toNat_ofNat, Nat.mod_eq_of_lt hlt]
  have hloop' : e.loopLength.toNat = 2 * m.loopLength.toNat + 1 := by
    rw [hloop, BitVec.toNat_ofNat, Nat.mod_eq_of_lt (by omega)]
  refine ⟨e, he, hs', hstart, hloop', hmode, ?_, fun i hi => ?_, fun i hi => ?_⟩
  · rw [hw, hs', List.length_append, List.length_map, List.length_range]
    omega
  · rw [hw, List.getElem?_append_left (by omega)]
  · rw [hw, ← hlen, List.getElem?_append_right (by omega), Nat.add_sub_cancel_left, getElem?_mirrored hlen hi]

/-! ### The exact sum of the deltas (rule R122) -/

/-- A sum of at most 24 significant bits is exact (rule R10). -/
theorem fadd_exact {x y : F32} {m k : Nat} (hx : isFinite x = true) (hy : isFinite y = true)
    (h : (fval x + fval y).natAbs = m * 2 ^ k) (hm : m < 2 ^ 24) (hk : k ≤ 229) :
    isFinite (fadd x y) = true ∧ fval (fadd x y) = fval x + fval y := by
  rw [fadd_of_finite hx hy]
  obtain ⟨hfin, hval⟩ := fpack_roundMag_exact
    (if fval x + fval y = 0 then fsign x && fsign y else decide (fval x + fval y < 0))
    (num := (fval x + fval y).natAbs) (den := 1) (by decide) (by rw [h, Nat.mul_one]) hm hk
  refine ⟨hfin, ?_⟩
  rw [Nat.cast_one, mul_one] at hval
  rw [hval]
  by_cases h0 : fval x + fval y = 0
  · simp [h0]
  · rw [if_neg h0]
    exact (eq_signed_natAbs _).symm

/-- The sum over positions is the first position's fixed-point delta plus the sum over the others. -/
theorem fixedSum_succ (plain : Memory) (n a : Nat) :
    fixedSum plain (n + 1) a = fixedSum plain 1 a + fixedSum plain n (a + 1) := by
  simp only [fixedSum, add_zero]

/-- The delta of an image position is its fixed-point delta in units of 2^-31, with no rounding (rules R107, R108). -/
theorem deltaAt_exact (plain : Memory) {a : Nat} (h : a < 2 ^ 32) :
    isFinite (deltaAt plain (BitVec.ofNat 32 a)) = true ∧
      fval (deltaAt plain (BitVec.ofNat 32 a)) = fixedSum plain 1 a * 2 ^ 118 := by
  have ha : (BitVec.ofNat 32 a).toNat = a := by rw [BitVec.toNat_ofNat, Nat.mod_eq_of_lt h]
  simp only [deltaAt, fixedSum, ha, add_zero]
  exact delta_exact _ _

/-- A fixed-point delta is a multiple of 2^14 (rule R108). -/
theorem dvd_fixedSum_one (plain : Memory) (a : Nat) : (2 ^ 14 : Int) ∣ fixedSum plain 1 a := by
  simp only [fixedSum, add_zero]
  obtain ⟨m, -, hm⟩ := deltaFixed_natAbs (Memory.read plain a) _
  exact Int.natAbs_dvd_natAbs.mp ⟨m, hm.trans (Nat.mul_comm ..)⟩

/-- A sum of two fixed-point values that is a multiple of 2^14 below 2^38 has at most 24 significant bits, so it is
exact. -/
theorem fadd_exact_of_fixed {x y : F32} {t d : Int} (hx : isFinite x = true) (hy : isFinite y = true)
    (hxt : fval x = t * 2 ^ 118) (hyd : fval y = d * 2 ^ 118) (hdvd : (2 ^ 14 : Int) ∣ t + d) (hlt : |t + d| < 2 ^ 38) :
    isFinite (fadd x y) = true ∧ fval (fadd x y) = (t + d) * 2 ^ 118 := by
  obtain ⟨c, hc⟩ := hdvd
  have hsum : fval x + fval y = (t + d) * 2 ^ 118 := by rw [hxt, hyd]; ring
  have hc24 : c.natAbs < 2 ^ 24 := by
    rw [hc, abs_lt] at hlt
    omega
  have hunits : (fval x + fval y).natAbs = c.natAbs * 2 ^ 132 := by
    rw [hsum, hc]
    omega
  rw [← hsum]
  exact fadd_exact hx hy hunits hc24 (by decide)

/-- From an exact running value `t`, the value at each position is `t` plus the exact sum of the deltas, as long as these
sums stay below 128 in magnitude. -/
theorem dpcmFrom_exact {plain : Memory} {size count a q : Nat} {x : F32} {t : Int} {ws : List F32}
    (h : dpcmFrom plain size count a x = .ok ws) (hsize : size ≤ 2 ^ 32) (hx : isFinite x = true)
    (hxt : fval x = t * 2 ^ 118) (hdvd : (2 ^ 14 : Int) ∣ t) (hq : q < count)
    (hlt : ∀ j ≤ q, |t + fixedSum plain (j + 1) a| < 2 ^ 38) :
    ∃ y, ws[q]? = some y ∧ isFinite y = true ∧ fval y = (t + fixedSum plain (q + 1) a) * 2 ^ 118 := by
  induction q generalizing count a x t ws with
  | zero =>
    obtain ⟨count, rfl⟩ := Nat.exists_eq_add_one.mpr hq
    obtain ⟨ha, rest, rfl, -⟩ := dpcmFrom_succ_ok h
    obtain ⟨hd, hdval⟩ := deltaAt_exact plain (lt_of_lt_of_le ha hsize)
    exact ⟨_, rfl, fadd_exact_of_fixed hx hd hxt hdval (dvd_add hdvd (dvd_fixedSum_one plain a)) (hlt 0 le_rfl)⟩
  | succ q ih =>
    obtain ⟨count, rfl⟩ := Nat.exists_eq_add_one.mpr (Nat.zero_lt_of_lt hq)
    obtain ⟨ha, rest, rfl, hrest⟩ := dpcmFrom_succ_ok h
    obtain ⟨hd, hdval⟩ := deltaAt_exact plain (lt_of_lt_of_le ha hsize)
    have hdvd' := dvd_add hdvd (dvd_fixedSum_one plain a)
    obtain ⟨hfin, hval⟩ := fadd_exact_of_fixed hx hd hxt hdval hdvd' (hlt 0 (Nat.zero_le _))
    have hshift : ∀ n, t + fixedSum plain (n + 1) a = t + fixedSum plain 1 a + fixedSum plain n (a + 1) := fun n => by
      rw [fixedSum_succ, add_assoc]
    rw [hshift (q + 1)]
    exact ih hrest hfin hval hdvd' (Nat.lt_of_succ_lt_succ hq) fun j hj => hshift (j + 1) ▸ hlt (j + 1) (by omega)

/-- Settles O28: DPCM_DECODE starts from the exact running value 0. -/
theorem dpcmIsTheExactSum : Obligations.DpcmIsTheExactSum := by
  intro plain size r len w h hsize q hq hlt
  have hzero : fval F32.zero = 0 * 2 ^ 118 := by decide
  obtain ⟨x, hx, hfin, hval⟩ := dpcmFrom_exact h hsize (by decide) hzero (dvd_zero _) (Nat.lt_succ_of_le hq)
    (by simpa using hlt)
  exact ⟨x, hx, hfin, by rw [hval, zero_add]⟩

end Sys2Proof.Machine
end

section
/-! SUPPORT. The part commands with a MIDI operand: what each makes of its part when the operands are in range, and that
it drops when one is not (rules R140, R145 to R152, R155, R234). -/

namespace Sys2Proof.Machine

/-! ### Operands in range (rule R140) -/

theorem exec_noteOff_of_le {key : Byte} (h : key.toNat ≤ 127) (p : PartIx) (s : State) :
    exec (.noteOff p key) s = .next (complete 0 (s.setPart p (stopNote (key.setWidth 7) (s.part p)))) := by
  simp only [exec, execNoteOff, midi7_of_le h]

theorem exec_ctrl_of_le {a v : Byte} (ha : a.toNat ≤ 127) (hv : v.toNat ≤ 127) (p : PartIx) (s : State) :
    exec (.ctrl p a v) s =
      .next (complete 0 (s.setPart p (controlChange (a.setWidth 7) (v.setWidth 7) (s.part p)))) := by
  simp only [exec, execCtrl, midi7_of_le ha, midi7_of_le hv]

theorem exec_chpress_of_le {v : Byte} (h : v.toNat ≤ 127) (p : PartIx) (s : State) :
    exec (.chpress p v) s = .next (complete 0 (s.setPart p { s.part p with chp := v.setWidth 7 })) := by
  simp only [exec, execChpress, midi7_of_le h]

theorem exec_polypress_of_le {key v : Byte} (hk : key.toNat ≤ 127) (hv : v.toNat ≤ 127) (p : PartIx) (s : State) :
    exec (.polypress p key v) s = .next (complete 0 (s.setPart p { s.part p with
      pkp := (s.part p).pkp.set key.toNat (v.setWidth 7) (by omega) })) := by
  simp only [exec, execPolypress, midi7_of_le hk, midi7_of_le hv, toNat_setWidth7 hk]

theorem exec_bend_of_le {lsb msb : Byte} (hl : lsb.toNat ≤ 127) (hm : msb.toNat ≤ 127) (p : PartIx) (s : State) :
    exec (.bend p lsb msb) s = .next (complete 0 (s.setPart p { s.part p with
      bend := bendValue (lsb.setWidth 7) (msb.setWidth 7) })) := by
  simp only [exec, execBend, midi7_of_le hl, midi7_of_le hm]

/-! ### Operands out of range (rules R140, R234) -/

theorem noteOn_of_out {key vel : Byte} (h : 127 < key.toNat ∨ vel.toNat < 1 ∨ 127 < vel.toNat) (c : Cfg) (p : PartIx)
    (s : State) : noteOn c p key vel s = drop s := by
  rcases noteOn_cases c p key vel s with hdrop | ⟨k, v, x, hkey, hvel, -⟩
  · exact hdrop
  · obtain ⟨hk, -⟩ := midi7_some hkey
    obtain ⟨hv1, hv2, -⟩ := velocity7_some hvel
    omega

theorem exec_noteOff_of_lt {key : Byte} (h : 127 < key.toNat) (p : PartIx) (s : State) :
    exec (.noteOff p key) s = .next (drop s) := by
  simp only [exec, execNoteOff, midi7_of_lt h]

theorem exec_chpress_of_lt {v : Byte} (h : 127 < v.toNat) (p : PartIx) (s : State) :
    exec (.chpress p v) s = .next (drop s) := by
  simp only [exec, execChpress, midi7_of_lt h]

/-- Each command of two data operands drops if either is out of range. -/
theorem exec_drop_of_midi_pair {a b : Byte} (h : 127 < a.toNat ∨ 127 < b.toNat) (p : PartIx) (s : State) :
    exec (.ctrl p a b) s = .next (drop s) ∧ exec (.polypress p a b) s = .next (drop s) ∧
      exec (.bend p a b) s = .next (drop s) := by
  rcases h with ha | hb
  · simp only [exec, execCtrl, execPolypress, execBend, midi7_of_lt ha, and_self]
  · cases ha : midi7 a <;> simp only [exec, execCtrl, execPolypress, execBend, ha, midi7_of_lt hb, and_self]

/-- Settles O10. -/
theorem outOfRangeMidiOperandsDrop : Obligations.OutOfRangeMidiOperandsDrop := fun p _ _ s =>
  ⟨fun h => congrArg Host.Outcome.next (noteOn_of_out h Config.hw p s),
    fun h => ⟨exec_noteOff_of_lt h p s, exec_chpress_of_lt h p s⟩, fun h => exec_drop_of_midi_pair h p s⟩

/-- Settles O43. -/
theorem pressureBendAndMute : Obligations.PressureBendAndMute := by
  refine fun p a b s => ⟨fun h => exec_chpress_of_le h p s, fun ha hb => exec_polypress_of_le ha hb p s,
    fun ha hb => ⟨_, ?_, exec_bend_of_le ha hb p s⟩, rfl, rfl, fun h => exec_mute_reject h p s⟩
  rw [bendValue_toNat, toNat_setWidth7 ha, toNat_setWidth7 hb]

/-! ### Controllers (rule R146) -/

/-- A parameter register of the table can be written without a bounds check (rule R27). -/
theorem setParam_eq_set {id : Nat} (h : id < Config.numParams) (P : Part) (v : Byte) :
    P.setParam id v = { P with pr := P.pr.set id v h } := by
  rw [Part.setParam, setIfInBounds_eq_set h]

/-- A controller that copies its value to a parameter register writes the operand there. -/
theorem exec_ctrl_of_copy {a v : Byte} {id : Nat} (ha : a.toNat ≤ 127) (hv : v.toNat ≤ 127)
    (hid : id < Config.numParams) {p : PartIx} {s : State} (hcopy : controlChange (a.setWidth 7) (v.setWidth 7) (s.part p) =
      (s.part p).setParam id ((v.setWidth 7).setWidth 8)) :
    exec (.ctrl p a v) s = .next (complete 0 (s.setPart p { s.part p with pr := (s.part p).pr.set id v hid })) := by
  rw [exec_ctrl_of_le ha hv, hcopy, setWidth7_setWidth8 hv, setParam_eq_set hid]

/-- A switch controller is on from 64 up. -/
theorem switchOn_setWidth7 {v : Byte} (hv : v.toNat ≤ 127) : switchOn (v.setWidth 7) = decide (64 ≤ v.toNat) := by
  rw [switchOn, toNat_setWidth7 hv]

/-- A controller not listed leaves the part. -/
theorem controlChange_unlisted {a : BitVec 7} (h : a.toNat ∉ [1, 5, 7, 10, 11, 64, 65, 91, 93]) (v : BitVec 7)
    (P : Part) : controlChange a v P = P := by
  unfold controlChange
  split
  case h_10 => rfl
  all_goals next ha => exact absurd (by simp [ha]) h

/-- Settles O40: two controllers write a local register, five copy their value to a parameter register, one is a
switch. -/
theorem controllersWriteTheirRegister : Obligations.ControllersWriteTheirRegister := by
  intro p v s hv
  refine ⟨exec_ctrl_of_le (by decide) hv p s, exec_ctrl_of_copy (by decide) hv (by decide) rfl,
    exec_ctrl_of_copy (by decide) hv (by decide) rfl, exec_ctrl_of_copy (by decide) hv (by decide) rfl,
    exec_ctrl_of_le (by decide) hv p s, ?portamento, exec_ctrl_of_copy (by decide) hv (by decide) rfl,
    exec_ctrl_of_copy (by decide) hv (by decide) rfl, fun a ha hlist => ?unlisted⟩
  case portamento =>
    have hswitch : controlChange ((65 : Byte).setWidth 7) (v.setWidth 7) (s.part p) =
        (s.part p).setParam 0x16 (if switchOn (v.setWidth 7) then 1 else 0) := rfl
    rw [exec_ctrl_of_le (by decide) hv, hswitch, setParam_eq_set (by decide), switchOn_setWidth7 hv]
    simp only [decide_eq_true_eq]
    rfl
  case unlisted =>
    rw [exec_ctrl_of_le ha hv, controlChange_unlisted (by rwa [toNat_setWidth7 ha]), setPart_part]
    rfl

end Sys2Proof.Machine
end

section
/-! SUPPORT. The notes of a part: the reasons a NOTE_ON is dropped for, and what NOTE_OFF, the hold pedal and ALLOFF do to
the slots and to HELD (rules R141, R143, R145, R147, R148, R153). -/

namespace Sys2Proof.Machine

/-- Settles O38: an admitted NOTE_ON has a set that exists, while READY, and room in the budget. -/
theorem noteOnDropsBeforeAnyWrite : Obligations.NoteOnDropsBeforeAnyWrite := by
  intro c p key vel s h
  rcases noteOn_cases c p key vel s with hdrop | ⟨k, v, x, hkey, -, hset, hbudget, -⟩
  · exact hdrop
  exfalso
  obtain ⟨-, rfl⟩ := midi7_some hkey
  obtain ⟨hready, hselect, hx⟩ := noteSet_some hset
  rcases h with hstate | hnone | ⟨y, hy, hle⟩ | hzero | ⟨hpoly, hfull⟩
  · exact hstate hready
  · cases hnone.symm.trans hselect
  · cases hy.symm.trans hselect
    omega
  · have hnil : slotBudget (s.part p) = 0 := by simp [slotBudget, hzero]
    omega
  · have hmono : isMono (s.part p) = false := by simpa [isMono] using hpoly
    have hkept : notesKept (s.part p) = (s.part p).active := by simp [notesKept, hmono]
    exact absurd hbudget (Nat.not_lt.mpr (hkept ▸ hfull))

/-- The slots after a release: those of a chosen key in ATTACK, HOLD, DECAY or SUSTAIN are released (rules R145,
R148). -/
theorem getElem_releaseWhere (q : BitVec 7 → Bool) (P : Part) (i : SlotIx) :
    (releaseWhere q P).slots[i.val] =
      if q P.slots[i.val].key = true ∧ P.slots[i.val].phase ∈
          [Phase.attack, Phase.hold, Phase.decay, Phase.sustain]
      then envRelease P.slots[i.val] else P.slots[i.val] := by
  rw [releaseWhere, mapSlots_slots, getElem_mapVec]
  exact release_if _ _

/-- Adding a key to HELD, bit by bit (rule R145). -/
theorem getLsbD_addHeld (P : Part) (k : BitVec 7) {j : Nat} (hj : j < 128) :
    (P.addHeld k).held.getLsbD j = (decide (j = k.toNat) || P.held.getLsbD j) := by
  have hval : (BitVec.ofNat 7 j).toNat = j := by rw [BitVec.toNat_ofNat]; omega
  have hkey : (BitVec.ofNat 7 j == k) = decide (j = k.toNat) := by
    rw [Bool.eq_iff_iff, beq_iff_eq, decide_eq_true_eq, BitVec.toNat_eq, hval]
  have h := isHeld_addHeld P k (BitVec.ofNat 7 j)
  rwa [Part.isHeld, Part.isHeld, hval, hkey, Bool.or_comm] at h

theorem stopNote_of_down {P : Part} (h : P.hold = true) (key : BitVec 7) : stopNote key P = P.addHeld key := if_pos h

theorem stopNote_of_up {P : Part} (h : P.hold = false) (key : BitVec 7) :
    stopNote key P = releaseWhere (fun k => k == key) P := if_neg (Bool.eq_false_iff.mp h)

/-- A slot has the key of a data operand when the two are the same number. -/
theorem beq_setWidth7_iff {key : Byte} (h : key.toNat ≤ 127) (k : BitVec 7) :
    (k == key.setWidth 7) = true ↔ k.toNat = key.toNat := by
  rw [beq_iff_eq, BitVec.toNat_eq, toNat_setWidth7 h]

/-- Settles O39. -/
theorem noteOffReleasesOrHolds : Obligations.NoteOffReleasesOrHolds := by
  intro p key s hkey
  rw [exec_noteOff_of_le hkey]
  refine ⟨fun hdown => ⟨((s.part p).addHeld (key.setWidth 7)).held, ?_, fun j hj => ?_⟩,
    fun hup => ⟨(releaseWhere (fun k => k == key.setWidth 7) (s.part p)).slots, ?_, fun i => ?_⟩⟩
  · rw [stopNote_of_down hdown]
    rfl
  · rw [getLsbD_addHeld _ _ hj, toNat_setWidth7 hkey]
  · rw [stopNote_of_up hup]
    rfl
  · rw [getElem_releaseWhere]
    simp only [beq_setWidth7_iff hkey]

/-- Controller 64 with a data value runs the pedal (rules R146, R147). -/
theorem exec_ctrl_pedal {v : Byte} (hv : v.toNat ≤ 127) (p : PartIx) (s : State) :
    exec (.ctrl p 64 v) s =
      .next (complete 0 (s.setPart p (if 64 ≤ v.toNat then setHold true (s.part p) else pedalUp (s.part p)))) := by
  have hpedal : controlChange ((64 : Byte).setWidth 7) (v.setWidth 7) (s.part p) =
      holdPedal (v.setWidth 7) (s.part p) := rfl
  rw [exec_ctrl_of_le (by decide) hv, hpedal, holdPedal, switchOn_setWidth7 hv]
  simp only [decide_eq_true_eq]

/-- Settles O41. -/
theorem holdPedalReleasesHeldKeys : Obligations.HoldPedalReleasesHeldKeys := by
  intro p v s hv
  rw [exec_ctrl_pedal hv]
  refine ⟨fun hon => ?_, fun hoff hup => ?_, fun hoff hdown => ⟨(releaseWhere (s.part p).isHeld (s.part p)).slots, ?_,
    getElem_releaseWhere _ _⟩⟩
  · rw [if_pos hon]
    rfl
  · rw [if_neg (Nat.not_le.mpr hoff), pedalUp_of_up hup, setPart_part]
    rfl
  · rw [if_neg (Nat.not_le.mpr hoff), pedalUp_of_down hdown]
    rfl

/-- A free slot has nothing to kill (rule R153). -/
theorem killOccupied_of_free {t : Slot} (h : t.phase = .free) : killOccupied t = t :=
  if_neg (by simp [Slot.occupied, h])

/-- Settles O44. -/
theorem alloffEmptiesThePart : Obligations.AlloffEmptiesThePart := by
  refine fun p s => ⟨mapVec killOccupied (s.part p).slots, rfl, fun i => ?_, fun i hi => ?_⟩
  · have hfree := killOccupied_free (s.part p).slots[i.val]
    rw [getElem_mapVec]
    simpa [Slot.occupied] using hfree
  · rw [getElem_mapVec, killOccupied_of_free hi]

end Sys2Proof.Machine
end

section
/-! SUPPORT. The envelope, whole: where a phase that has run its length goes, what one advance and many do to the counter,
and the level a release starts at (rules R182 to R189). -/

namespace Sys2Proof.Machine

/-! ### The end of a phase (rule R182) -/

/-- The phase after one that has run its length: the next whose duration is not 0 (rule R182). -/
def phaseAfter (t : Slot) : Phase :=
  match t.phase with
  | .attack => if t.tH ≠ 0 then .hold else if t.tD ≠ 0 then .decay else .sustain
  | .hold => if t.tD ≠ 0 then .decay else .sustain
  | .decay => .sustain
  | .release => .done
  | .sustain => .sustain
  | .done => .done
  | .free => .free

/-- In a phase without a duration the loop of ENV_NORMALIZE stops. -/
theorem envLoop_of_none {n : Nat} {t : Slot} (hd : envDur t = none) : envLoop n t = t := by
  cases n with
  | zero => rfl
  | succ n => simp only [envLoop, hd]

/-- At or past the duration the loop of ENV_NORMALIZE goes to the next phase. -/
theorem envLoop_of_ge {n : Nat} {t : Slot} {d : BitVec 24} (hd : envDur t = some d) (h : d.toNat ≤ t.cnt.toNat) :
    envLoop (n + 1) t = envLoop n { t with phase := envNext t.phase, cnt := 0 } := by
  simp only [envLoop, hd, if_pos h]

/-- At counter 0 the loop of ENV_NORMALIZE goes past a phase of duration 0 and stays in any other. -/
theorem envLoop_of_cnt_zero {n : Nat} {t : Slot} {d : BitVec 24} (hd : envDur t = some d) (hcnt : t.cnt = 0) :
    envLoop (n + 1) t = if d ≠ 0 then t else envLoop n { t with phase := envNext t.phase, cnt := 0 } := by
  have hzero : d.toNat ≤ t.cnt.toNat ↔ d = 0 := by
    rw [hcnt, BitVec.toNat_eq]
    exact Nat.le_zero
  simp only [envLoop, hd, hzero, ne_eq, ite_not]

/-- DECAY entered at counter 0: it stays, or SUSTAIN follows. -/
theorem envLoop_decay (n : Nat) (t : Slot) :
    envLoop (n + 1) { t with phase := .decay, cnt := 0 } =
      { t with phase := if t.tD ≠ 0 then .decay else .sustain, cnt := 0 } := by
  rw [envLoop_of_cnt_zero rfl rfl]
  split
  · rfl
  · exact envLoop_of_none rfl

/-- HOLD entered at counter 0: it stays, or what follows is as in DECAY. -/
theorem envLoop_hold (n : Nat) (t : Slot) :
    envLoop (n + 2) { t with phase := .hold, cnt := 0 } =
      { t with phase := if t.tH ≠ 0 then .hold else if t.tD ≠ 0 then .decay else .sustain, cnt := 0 } := by
  rw [envLoop_of_cnt_zero rfl rfl]
  split
  · rfl
  · exact envLoop_decay n t

/-- At or past the duration ENV_NORMALIZE moves on, with counter 0 (rule R182). -/
theorem envNormalize_of_ge {t : Slot} {d : BitVec 24} (hd : envDur t = some d) (h : d.toNat ≤ t.cnt.toNat) :
    envNormalize t = { t with phase := phaseAfter t, cnt := 0 } := by
  rw [envNormalize, envLoop_of_ge hd h, phaseAfter]
  cases hp : t.phase with
  | attack => exact envLoop_hold 1 t
  | hold => exact envLoop_decay 2 t
  | decay | release => exact envLoop_of_none rfl
  | sustain | done | free => simp [envDur, hp] at hd

/-! ### One advance and many (rule R185) -/

theorem dur_pos {d : BitVec 24} (h : d ≠ 0) : 0 < d.toNat :=
  Nat.pos_of_ne_zero fun h0 => h (BitVec.eq_of_toNat_eq h0)

theorem toNat_cnt_add_one {t : Slot} {d : BitVec 24} (h : t.cnt.toNat + 1 ≤ d.toNat) :
    (t.cnt + 1).toNat = t.cnt.toNat + 1 := by
  have := d.isLt
  rw [BitVec.toNat_add, show (1 : BitVec 24).toNat = 1 from rfl, Nat.mod_eq_of_lt (by omega)]

/-- Short of the duration ENV_ADVANCE only counts (rule R185). -/
theorem envAdvance_of_lt {t : Slot} {d : BitVec 24} (hd : envDur t = some d) (h : t.cnt.toNat + 1 < d.toNat) :
    envAdvance t = { t with cnt := t.cnt + 1 } := by
  simp only [envAdvance, hd]
  exact envNormalize_of_lt (t := { t with cnt := t.cnt + 1 }) hd (toNat_cnt_add_one h.le ▸ h)

/-- At the duration ENV_ADVANCE moves on as ENV_NORMALIZE does (rule R185). -/
theorem envAdvance_of_eq {t : Slot} {d : BitVec 24} (hd : envDur t = some d) (h : t.cnt.toNat + 1 = d.toNat) :
    envAdvance t = { t with phase := phaseAfter t, cnt := 0 } := by
  simp only [envAdvance, hd]
  exact envNormalize_of_ge (t := { t with cnt := t.cnt + 1 }) hd ((toNat_cnt_add_one h.le).trans h).ge

/-- A phase that starts at counter 0 counts one for each advance, as long as its duration is not reached. -/
theorem envAdvance_iterate {t : Slot} {d : BitVec 24} (hd : envDur t = some d) (hcnt : t.cnt = 0) {n : Nat}
    (h : n < d.toNat) : envAdvance^[n] t = { t with cnt := BitVec.ofNat 24 n } := by
  induction n with
  | zero => exact congrArg (fun c => { t with cnt := c }) hcnt
  | succ n ih =>
    have hn : (BitVec.ofNat 24 n).toNat = n := Nat.mod_eq_of_lt (by omega)
    rw [Function.iterate_succ_apply', ih (by omega),
      envAdvance_of_lt (t := { t with cnt := BitVec.ofNat 24 n }) hd (by rwa [hn]), BitVec.ofNat_add]
    rfl

/-- After as many advances as its duration, a phase that started at counter 0 is over. -/
theorem envAdvance_iterate_dur {t : Slot} {d : BitVec 24} (hd : envDur t = some d) (hcnt : t.cnt = 0) (h0 : d ≠ 0) :
    envAdvance^[d.toNat] t = { t with phase := phaseAfter t, cnt := 0 } := by
  obtain ⟨n, hn⟩ := Nat.exists_eq_succ_of_ne_zero (dur_pos h0).ne'
  have hcount : (BitVec.ofNat 24 n).toNat = n := Nat.mod_eq_of_lt (by omega)
  rw [hn, Function.iterate_succ_apply', envAdvance_iterate hd hcnt (by omega)]
  exact envAdvance_of_eq (t := { t with cnt := BitVec.ofNat 24 n }) hd (by rw [hcount, hn])

/-- Settles O49: each row of the statement's table is a phase with its duration and the phase after it. -/
theorem envelopeMovesThroughItsPhases : Obligations.EnvelopeMovesThroughItsPhases := by
  refine fun t => ⟨fun h => ⟨envTimed_envNormalize h, ?_⟩, fun d next hrow => ?_, fun h => env_stays_of_none ?_⟩
  · obtain ⟨ph, c, hframe⟩ := envNormalize_frame t
    rw [hframe]
  · obtain ⟨hd, rfl⟩ : envDur t = some d ∧ next = phaseAfter t := by
      simp only [List.mem_cons, List.not_mem_nil, or_false, Prod.mk.injEq] at hrow
      rcases hrow with ⟨hp, rfl, rfl⟩ | ⟨hp, rfl, rfl⟩ | ⟨hp, rfl, rfl⟩ | ⟨hp, rfl, rfl⟩ <;>
        simp only [envDur, phaseAfter, hp, and_self]
    exact ⟨envNormalize_of_lt hd, envNormalize_of_ge hd,
      fun h => ⟨t.cnt + 1, toNat_cnt_add_one h.le, envAdvance_of_lt hd h⟩, envAdvance_of_eq hd⟩
  · rcases h with hp | hp <;> simp only [envDur, hp]

/-! ### The level (rules R184, R188) -/

/-- A counter or a duration is exact as binary32 (rule R184). -/
theorem f32OfInt_bitVec24_exact (n : BitVec 24) :
    isFinite (f32OfInt n.toNat) = true ∧ fval (f32OfInt n.toNat) = n.toNat * 2 ^ 149 :=
  f32OfInt_exact (m := n.toNat) (k := 0) (by simp) n.isLt (by decide)

/-- Settles O50: the level unfolds phase by phase. -/
theorem envelopeLevelStaysInUnit : Obligations.EnvelopeLevelStaysInUnit := by
  intro t
  have hlevel : ∀ ph, t.phase = ph → envLevel t = envLevel { t with phase := ph } := by
    rintro - rfl
    rfl
  exact ⟨fun _ => inUnit_envLevel, hlevel .attack, hlevel .hold, hlevel .decay, hlevel .sustain, hlevel .release,
    hlevel .done, f32OfInt_bitVec24_exact⟩

/-! ### The release (rules R186, R189) -/

/-- Counter 0 is the ratio 0 (rule R184). -/
theorem fmag_envRatio_zero {d : BitVec 24} (h0 : d ≠ 0) : fmag (envRatio 0 d) = 0 := by
  obtain ⟨hfin, hval⟩ := f32OfInt_bitVec24_exact d
  have hd : funits (f32OfInt d.toNat) ≠ 0 := by
    rw [← natAbs_fval, hval]
    have := dur_pos h0
    omega
  have hzero : funits (f32OfInt (0 : BitVec 24).toNat) = 0 := by decide
  rw [envRatio, fdiv_of_finite (f32OfInt_bitVec24_exact 0).1 hfin hd, fmag_fpack _ (roundMag_lt ..), hzero, Nat.zero_mul]
  exact Nat.le_zero.mp (roundMag_le (Nat.pos_of_ne_zero hd) (Nat.zero_le _))

/-- 1.0 minus 0.0 is 1.0. -/
theorem one_fsub_of_zero {x : F32} (hx : InUnit x) (h : fmag x = 0) : fsub F32.one x = F32.one := by
  obtain ⟨-, hsign, -⟩ := (inUnit_one_fsub hx).parts
  refine eq_of_fsign_fmag (hsign.trans (by decide)) ?_
  exact fmag_fadd_zero (by decide) ((fneg_parts x).2.1.trans h)

/-- A finite value times 1.0 is itself, bit for bit. -/
theorem fmul_one {x : F32} (hx : isFinite x = true) : fmul x F32.one = x := by
  refine eq_of_fsign_fmag ?_ (fmag_fmul_one hx)
  rw [fsign_fmul hx (by decide), show fsign F32.one = false by decide, Bool.bne_false]

/-- RELEASE at counter 0 has the level it was released from (rule R189). -/
theorem envLevel_release_zero {t : Slot} (hp : t.phase = .release) (hcnt : t.cnt = 0) (hR : t.tR ≠ 0)
    (hrl : isFinite t.rl = true) : envLevel t = t.rl := by
  simp only [envLevel, hp, hcnt]
  rw [one_fsub_of_zero (inUnit_envRatio (cnt := 0) (dur_pos hR)) (fmag_envRatio_zero hR), fmul_one hrl]

theorem releasable_iff (t : Slot) :
    releasable t = true ↔ t.phase ∈ [Phase.attack, Phase.hold, Phase.decay, Phase.sustain] := by
  cases hp : t.phase <;> simp [releasable, hp]

/-- ENV_RELEASE, whole, in the phases where it has an effect (rule R186). -/
theorem envRelease_of_mem {t : Slot} (h : t.phase ∈ [Phase.attack, Phase.hold, Phase.decay, Phase.sustain]) :
    envRelease t = { t with rl := envLevel t, cnt := 0, phase := if t.tR = 0 then .done else .release } := by
  rw [envRelease, if_pos ((releasable_iff t).mpr h)]
  split
  · next hR => exact envNormalize_of_ge (d := t.tR) rfl (hR ▸ le_rfl)
  · next hR => exact envNormalize_of_lt (d := t.tR) rfl (dur_pos hR)

/-- A RELEASE that starts at counter 0 lasts exactly tR advances (rule R189). -/
theorem phase_iterate_of_release {t : Slot} (hp : t.phase = .release) (hcnt : t.cnt = 0) (hR : t.tR ≠ 0) {n : Nat}
    (hn : n ≤ t.tR.toNat) : (envAdvance^[n] t).phase = if n < t.tR.toNat then .release else .done := by
  have hd : envDur t = some t.tR := by simp only [envDur, hp]
  split
  · next hlt => rw [envAdvance_iterate hd hcnt hlt, hp]
  · next hge =>
    rw [Nat.le_antisymm hn (Nat.le_of_not_lt hge), envAdvance_iterate_dur hd hcnt hR]
    simp only [phaseAfter, hp]

/-- Settles O51. -/
theorem releaseStartsAtTheLevelAndLastsItsTime : Obligations.ReleaseStartsAtTheLevelAndLastsItsTime := by
  refine fun t => ⟨envRelease_of_mem, fun h => if_neg ?_, fun h ht hsus hrl hR => ?_⟩
  · rcases h with hp | hp <;> simp [releasable, hp]
  · obtain ⟨hfin, -⟩ := (inUnit_envLevel ht hsus hrl).parts
    rw [envRelease_of_mem h, if_neg hR]
    exact ⟨envLevel_release_zero rfl rfl hR hfin, fun n =>
      phase_iterate_of_release (t := { t with rl := envLevel t, cnt := 0, phase := .release }) rfl rfl hR⟩

end Sys2Proof.Machine
end

section
/-! SUPPORT. Playback of one voice: the phase's index and fraction, the interpolation, the advance with its loop or its
one-shot end, and when a voice faults (rules R200 to R209). -/

namespace Sys2Proof.Machine

/-! ### The interpolation (rules R200, R203) -/

/-- A phase is its index in units of 2^16, plus its fraction (rule R200). -/
theorem posIndex_posFrac_of_toNat {pos : BitVec 48} {i f : Nat} (h : pos.toNat = i * 2 ^ 16 + f) (hf : f < 2 ^ 16) :
    (posIndex pos).toNat = i ∧ (posFrac pos).toNat = f := by
  have hpos := pos.isLt
  rw [posIndex, posFrac, BitVec.extractLsb'_toNat, BitVec.extractLsb'_toNat, h, Nat.shiftRight_eq_div_pow]
  omega

theorem twoPowNeg16_bits : twoPowNeg16 = ⟨0x37800000⟩ := by decide +kernel

/-- The fraction `f32(f) *f 2^-16` is exactly `f / 2^16` (rule R203). -/
theorem phaseFraction_exact {f : Nat} (hf : f < 2 ^ 16) :
    isFinite (fmul (f32OfInt f) ⟨0x37800000⟩) = true ∧ fval (fmul (f32OfInt f) ⟨0x37800000⟩) = f * 2 ^ 133 := by
  obtain ⟨hfin, hval⟩ := f32OfInt_exact (n := f) (m := f) (k := 0) (by simp) (by omega) (by decide)
  have hunits : funits (f32OfInt f) = f * 2 ^ 149 := by
    rw [← natAbs_fval, hval]
    omega
  have hsign : fsign (f32OfInt f) = false := by
    rw [f32OfInt, f32OfRat, fsign_fpack _ (roundMag_lt ..)]
    exact decide_eq_false (Int.not_lt.mpr (Int.natCast_nonneg f))
  have hscale : isFinite ⟨0x37800000⟩ = true ∧ fsign ⟨0x37800000⟩ = false ∧ funits ⟨0x37800000⟩ = 2 ^ 133 := by
    decide +kernel
  obtain ⟨hscaleFin, hscaleSign, hscaleUnits⟩ := hscale
  rw [fmul_of_finite hfin hscaleFin, hsign, hscaleSign, hunits, hscaleUnits]
  obtain ⟨hfin', hval'⟩ := fpack_roundMag_exact false (num := f * 2 ^ 149 * 2 ^ 133) (den := 2 ^ 149) (m := f)
    (k := 133) (by decide) (by ring) (by omega) (by decide)
  refine ⟨hfin', ?_⟩
  rw [if_neg Bool.false_ne_true] at hval'
  rw [bne_self_eq_false]
  omega

/-- INTERP in terms of the values at the index and at its clamped neighbour (rule R203). -/
theorem interp_eq {e : SampleSet} {pos : BitVec 48} {i f : Nat} {a b : F32} (hpos : pos.toNat = i * 2 ^ 16 + f)
    (hf : f < 2 ^ 16) (ha : e.w[i]? = some a) (hb : e.w[min (i + 1) e.sampleLength.toNat]? = some b) :
    interp e pos = fadd a (fmul (fsub b a) (fmul (f32OfInt f) ⟨0x37800000⟩)) := by
  obtain ⟨hindex, hfrac⟩ := posIndex_posFrac_of_toNat hpos hf
  simp only [interp, hindex, hfrac, setLen, Nat.add_sub_cancel, List.getD_eq_getElem?_getD, ha, hb, Option.getD_some,
    twoPowNeg16_bits]

/-- A value below 2^127 in magnitude is finite, and at most the largest such value, 2^24 - 1 units of 2^103. -/
theorem abs_fval_le_of_lt {x : F32} (h : fmag x < 0x7F000000) :
    isFinite x = true ∧ |fval x| ≤ ((2 ^ 24 - 1) * 2 ^ 252 : Nat) := by
  refine ⟨decide_eq_true (lt_trans h (by decide)), ?_⟩
  have hle : magUnits (fmag x) ≤ magUnits 0x7EFFFFFF := by
    rcases Nat.lt_or_eq_of_le (Nat.le_of_lt_succ h) with hlt | heq
    · exact (magUnits_lt hlt (by decide)).le
    · exact (congrArg magUnits heq).le
  rw [show magUnits 0x7EFFFFFF = (2 ^ 24 - 1) * 2 ^ 252 by decide +kernel] at hle
  rw [Int.abs_eq_natAbs, natAbs_fval, funits_eq]
  exact Int.ofNat_le.mpr hle

/-- The difference of two values below 2^127 in magnitude is finite. -/
theorem isFinite_fsub_of_lt {x y : F32} (hx : fmag x < 0x7F000000) (hy : fmag y < 0x7F000000) :
    isFinite (fsub x y) = true := by
  obtain ⟨hxfin, hxle⟩ := abs_fval_le_of_lt hx
  obtain ⟨hyfin, hyle⟩ := abs_fval_le_of_lt hy
  refine (fsub_roundsTo hxfin hyfin).finite ?_
  have := abs_sub (fval x) (fval y)
  rw [abs_one]
  omega

theorem fmul_comm_of_finite {x y : F32} (hx : isFinite x = true) (hy : isFinite y = true) : fmul x y = fmul y x := by
  rw [fmul_of_finite hx hy, fmul_of_finite hy hx, bne_comm, Nat.mul_comm]

/-- A finite value times a zero is a zero. -/
theorem fmag_fmul_zero {x y : F32} (hx : isFinite x = true) (hy : fmag y = 0) : fmag (fmul x y) = 0 := by
  rw [fmul_comm_of_finite hx (isFinite_of_fmag_zero hy), fmag_fmul_of_zero hy hx]

/-- Adding a zero keeps a finite value, up to the sign of a zero. -/
theorem fadd_zero_exact {x y : F32} (hx : isFinite x = true) (hy : fmag y = 0) :
    isFinite (fadd x y) = true ∧ fval (fadd x y) = fval x := by
  have hfin : isFinite (fadd x y) = true := (isFinite_congr (fmag_fadd_zero hx hy)).trans hx
  have hnear := (fadd_roundsTo hx (isFinite_of_fmag_zero hy)).nearest hfin x hx
  rw [fval_of_fmag_zero hy, add_zero, mul_one, mul_one, sub_self, abs_zero] at hnear
  exact ⟨hfin, sub_eq_zero.mp (abs_nonpos_iff.mp hnear)⟩

/-- Settles O52: at fraction 0 the correction is a finite difference times a zero. -/
theorem interpolationBetweenNeighbours : Obligations.InterpolationBetweenNeighbours := by
  rintro e pos i f a b fr hpos hf - ha hb rfl
  obtain ⟨hfin, hval⟩ := phaseFraction_exact hf
  refine ⟨interp_eq hpos hf ha hb, hfin, hval, ?_⟩
  rintro rfl hamag hbmag
  have hafin : isFinite a = true := decide_eq_true (lt_trans hamag (by decide))
  have hzero : fmag (fmul (f32OfInt (0 : Nat)) ⟨0x37800000⟩) = 0 := by decide +kernel
  rw [interp_eq hpos hf ha hb]
  exact fadd_zero_exact hafin (fmag_fmul_zero (isFinite_fsub_of_lt hbmag hamag) hzero)

/-! ### The advance (rules R204, R205) -/

/-- A forward loop before its end: the phase moves and nothing else does. -/
theorem oscAdvance_of_before_end {e : SampleSet} {inc : BitVec 32} {t : Slot} (hmode : e.loopMode = 0)
    (h : (posIndex (t.pos + inc.setWidth 48)).toNat < e.loopStart.toNat + e.loopLength.toNat) :
    oscAdvance e inc t = { t with pos := t.pos + inc.setWidth 48 } := by
  simp only [oscAdvance, if_pos hmode, if_neg (Nat.not_le.mpr h)]

/-- A forward loop at or past its end: the index is taken into the loop region, the fraction stays. -/
theorem oscAdvance_of_past_end {e : SampleSet} {inc : BitVec 32} {t : Slot} (hmode : e.loopMode = 0)
    (h : e.loopStart.toNat + e.loopLength.toNat ≤ (posIndex (t.pos + inc.setWidth 48)).toNat) :
    oscAdvance e inc t = { t with
      pos := BitVec.ofNat 32 (e.loopStart.toNat +
        ((posIndex (t.pos + inc.setWidth 48)).toNat - e.loopStart.toNat) % e.loopLength.toNat) ++
        posFrac (t.pos + inc.setWidth 48) } := by
  simp only [oscAdvance, if_pos hmode, if_pos h]

/-- A one-shot goes to DONE when its index reaches the guard. -/
theorem oscAdvance_of_oneShot {e : SampleSet} (inc : BitVec 32) (t : Slot) (hmode : e.loopMode ≠ 0) :
    oscAdvance e inc t = { t with
      pos := t.pos + inc.setWidth 48
      phase := if setLen e - 1 ≤ (posIndex (t.pos + inc.setWidth 48)).toNat then .done else t.phase } := by
  simp only [oscAdvance, if_neg hmode]
  split <;> rfl

theorem posFrac_append (x : BitVec 32) (y : BitVec 16) : posFrac (x ++ y) = y := BitVec.extractLsb'_append_eq_right

theorem posIndex_append (x : BitVec 32) (y : BitVec 16) : posIndex (x ++ y) = x := BitVec.extractLsb'_append_eq_left

/-- Settles O53, by whether the index reaches the loop's end; it then moves back by a multiple of the loop's length. -/
theorem oscAdvanceLoopsOrEnds : Obligations.OscAdvanceLoopsOrEnds := by
  rintro e inc t i rfl
  refine ⟨fun hmode hne hend => ?_, oscAdvance_of_oneShot inc t⟩
  have hpos : 0 < e.loopLength.toNat := Nat.pos_of_ne_zero fun h => hne (BitVec.eq_of_toNat_eq h)
  rcases Nat.lt_or_ge (posIndex (t.pos + inc.setWidth 48)).toNat (e.loopStart.toNat + e.loopLength.toNat) with h | h
  · rw [oscAdvance_of_before_end hmode h]
    exact ⟨rfl, rfl, fun _ => rfl, fun hge => absurd h (Nat.not_lt.mpr hge)⟩
  · rw [oscAdvance_of_past_end hmode h]
    refine ⟨rfl, posFrac_append _ _, fun hlt => absurd hlt (Nat.not_lt.mpr h), fun _ => ?_⟩
    have hi := (posIndex (t.pos + inc.setWidth 48)).isLt
    simp only [posIndex_append]
    generalize (posIndex (t.pos + inc.setWidth 48)).toNat = i at h hi ⊢
    have hlt : (i - e.loopStart.toNat) % e.loopLength.toNat < e.loopLength.toNat := Nat.mod_lt _ hpos
    have hle : (i - e.loopStart.toNat) % e.loopLength.toNat ≤ i - e.loopStart.toNat := Nat.mod_le _ _
    rw [BitVec.toNat_ofNat, Nat.mod_eq_of_lt (by omega), ← Nat.sub_sub]
    exact ⟨by omega, by omega, Nat.dvd_sub_mod _⟩

/-! ### The voice step (rules R207, R209) -/

/-- The undefined geometries of rule R207, as numbers. -/
theorem badGeometry_iff (e : SampleSet) (pos : BitVec 48) :
    badGeometry e pos = true ↔
      (e.loopMode = 0 ∧ (e.loopLength = 0 ∨ setLen e < e.loopStart.toNat + e.loopLength.toNat)) ∨
        setLen e ≤ (posIndex pos).toNat := by
  simp only [badGeometry, Bool.or_eq_true, Bool.and_eq_true, beq_iff_eq, decide_eq_true_eq]

theorem voiceStep_of_badGeometry {ss : List SampleSet} {t : Slot} {e : SampleSet} (hset : ss[t.sset.toNat]? = some e)
    (h : badGeometry e t.pos = true) (c : Cfg) (live : Live) (xpose : Byte) :
    voiceStep c ss live xpose t = voiceFault t := by
  simp only [voiceStep, hset, h, if_true]

theorem voiceStep_of_goodGeometry {ss : List SampleSet} {t : Slot} {e : SampleSet} (hset : ss[t.sset.toNat]? = some e)
    (h : badGeometry e t.pos = false) (c : Cfg) (live : Live) (xpose : Byte) :
    voiceStep c ss live xpose t = voicePlay c e live xpose t := by
  simp only [voiceStep, hset, h, Bool.false_eq_true, if_false]

/-- Settles O54: the two clauses' premises are the two outcomes of the geometry check. -/
theorem voiceFaultsOrPlays : Obligations.VoiceFaultsOrPlays := by
  refine fun c ss live xpose t e hset => ⟨fun hbad => ?_, fun hloop hin => ?_⟩
  · rw [voiceStep_of_badGeometry hset ((badGeometry_iff e t.pos).mpr hbad)]
    exact ⟨rfl, rfl, rfl⟩
  · have hgood : badGeometry e t.pos = false := by
      rw [Bool.eq_false_iff, Ne, badGeometry_iff]
      rintro (⟨hmode, hlen | hend⟩ | hpast)
      · exact (hloop hmode).1 hlen
      · exact absurd hend (Nat.not_lt.mpr (hloop hmode).2)
      · exact absurd hin (Nat.not_lt.mpr hpast)
    exact voiceStep_of_goodGeometry hset hgood c live xpose

end Sys2Proof.Machine
end

section
/-! SUPPORT. TICK slot by slot, and the peak meter's read (rules R208 to R213). -/

namespace Sys2Proof.Machine

/-! ### The slots of a TICK -/

theorem exec_tick (p : PartIx) (s : State) : exec (.tick p) s = .next (tick Config.hw p s) := rfl

theorem getElem_tickSlots (s : State) (p : PartIx) (i : SlotIx) :
    (tickSlots s p)[i.val] =
      if (s.part p).slots[i.val].phase = .done then Slot.reset else (s.part p).slots[i.val] :=
  getElem_mapVec freeIfDone _ _ _

/-- A free slot is not stepped; any other makes its voice step, and is freed if that ends it. -/
theorem getElem_tickedSlots (c : Cfg) (s : State) (p : PartIx) (i : SlotIx) :
    (tickedSlots c s p)[i.val] =
      if (tickSlots s p)[i.val].phase = .free then (tickSlots s p)[i.val]
      else if (tickVoice c s p (tickSlots s p)[i.val]).slot.phase = .done then Slot.reset
      else (tickVoice c s p (tickSlots s p)[i.val]).slot := by
  rw [tickedSlots, getElem_mapVec]
  split
  · next h => simp [stepSlot, Slot.occupied, freeIfDone, h]
  · next h => simp [stepSlot, Slot.occupied, freeIfDone, freeSlot, h]

theorem tickedSlots_ne_done (c : Cfg) (s : State) (p : PartIx) (i : SlotIx) :
    (tickedSlots c s p)[i.val].phase ≠ .done := by
  rw [tickedSlots, getElem_mapVec]
  exact freeIfDone_ne_done _

/-- A vector's elements in order. -/
theorem toList_eq_map_finRange {α : Type} {n : Nat} (v : Vector α n) :
    v.toList = (List.finRange n).map fun i => v[i.val] :=
  List.ext_getElem (by simp) fun i _ _ => by simp

/-- The sum of a TICK, by slot number (rule R208). -/
theorem sumVoices_finRange (voice : Slot → Voice) (acc : F32) {n : Nat} (v : Vector Slot n) :
    sumVoices voice acc v.toList = ((List.finRange n).filter fun i => v[i.val].phase ≠ .free).foldl
      (fun a i => fadd a (voice v[i.val]).y) acc := by
  rw [sumVoices_eq, toList_eq_map_finRange, List.filter_map, List.foldl_map]
  rfl

/-- A TICK records a fault when some occupied slot's voice faulted (rule R236). -/
theorem any_slotFaults_iff (voice : Slot → Voice) {n : Nat} (v : Vector Slot n) :
    v.toList.any (slotFaults voice) = true ↔ ∃ i : Fin n, v[i.val].phase ≠ .free ∧ (voice v[i.val]).fault = true := by
  simp [toList_eq_map_finRange, slotFaults, Slot.occupied]

/-- The slots that are not FREE are the occupied ones (rule R29). -/
theorem occupied_eq : Slot.occupied = fun t => decide (t.phase ≠ .free) :=
  funext fun t => Bool.eq_iff_iff.mpr (by simp [Slot.occupied])

/-- Settles O55: the fields TICK writes, each read slot by slot. -/
theorem tickMixesThePart : Obligations.TickMixesThePart := by
  refine ⟨exec_tick, ?_⟩
  rintro c p s before voice acc hbefore hvoice rfl
  obtain rfl : before = fun i => (tickSlots s p)[i.val] :=
    funext fun i => (hbefore i).trans (getElem_tickSlots s p i).symm
  obtain rfl : voice = fun i => tickVoice c s p (tickSlots s p)[i.val] := funext hvoice
  refine ⟨tickedSlots c s p, s.vfault || (tickSlots s p).toList.any (slotFaults (tickVoice c s p)),
    getElem_tickedSlots c s p, ?_, tickedSlots_ne_done c s p, fun hmute => ?_, fun hmute => ?_⟩
  · rw [Bool.or_eq_true, any_slotFaults_iff]
  · rw [tick_eq, occupied_eq]
    simp only [hmute, if_true]
    rfl
  · rw [tick_eq, occupied_eq, sumVoices_finRange]
    simp only [hmute, Bool.false_eq_true, if_false]
    rfl

/-! ### The peak meter (rule R213) -/

/-- PEAK answers the meter and clears it. -/
theorem exec_peak (p : PartIx) (s : State) :
    exec (.peak p) s = .next (complete (s.part p).peak.bits (s.setPart p { s.part p with peak := F32.zero })) := rfl

/-- Settles O56: the second PEAK meets the cleared meter, and writes the part as it is. -/
theorem peakReadsAndClears : Obligations.PeakReadsAndClears := by
  refine fun p s => ⟨_, exec_peak p s, rfl, ?_⟩
  have hcleared : (complete (s.part p).peak.bits (s.setPart p { s.part p with peak := F32.zero })).part p =
      { s.part p with peak := F32.zero } := by simp
  rw [exec_peak, hcleared]
  simp [complete, State.setPart, F32.zero]

end Sys2Proof.Machine
end

section
/-! SUPPORT. CMD_ERR over one command (rules R33, R233): a command rejects, or leaves the flag as it was. -/

namespace Sys2Proof.Machine

/-- Among the effects of a command, the reject alone writes CMD_ERR (rules R33, R233). -/
theorem Effect.eq_reject_or_cmdErr_eq {i : Instr} {s t : State} (h : Effect i s t) :
    t = reject s ∨ t.cmdErr = s.cmdErr := by
  cases h with
  | rejected => exact .inl rfl
  | answered | generation | loaded | aborted | selected | transposed | edited | ticked | mixCleared => exact .inr rfl

/-- Settles O11: a command that does not reject leaves CMD_ERR clear, if it was. -/
theorem rejectWritesOnlyCmdErr : Obligations.RejectWritesOnlyCmdErr := by
  intro i s t h hclear hset
  rcases (exec_effect h).eq_reject_or_cmdErr_eq with hreject | hkept
  · exact hreject
  · have hcontra : t.cmdErr = false := hkept.trans hclear
    exact absurd hset (Bool.eq_false_iff.mp hcontra)

end Sys2Proof.Machine
end

section
/-! SUPPORT. Hardware reset (rules R27, R29, R260, R262): what a step on it answers, and the reset values by index. -/

namespace Sys2Proof.Machine

/-- A hardware reset step, whole (rule R262, assumption log 10). -/
theorem step_hardwareReset {rest : List PortEvent} {s : State} (h : s.port = .hardwareReset :: rest) :
    step s = .next (hardwareReset { s with port := rest }) := by
  simp only [step, takeEvent, h]

/-- Hardware reset gives every part its own reset value (rule R260). -/
@[simp] theorem hardwareReset_part (s : State) (p : PartIx) : (hardwareReset s).part p = Part.reset p :=
  Vector.getElem_ofFn ..

@[simp] theorem Part.reset_pkp (p : PartIx) (k : Fin 128) : (Part.reset p).pkp[k.val] = 0 :=
  Vector.getElem_replicate ..

@[simp] theorem Part.reset_slots (p : PartIx) (i : SlotIx) : (Part.reset p).slots[i.val] = Slot.reset :=
  Vector.getElem_replicate ..

@[simp] theorem Snap.reset_pr (id : Fin Config.numParams) : Snap.reset.pr[id.val] = 0 :=
  Vector.getElem_replicate ..

/-- Settles O8: the next state is the reset state with the inputs and the waiting events kept, and each of its parts is
that part's reset value, slot by slot. -/
theorem hardwareResetRestoresEveryElement : Obligations.HardwareResetRestoresEveryElement := by
  intro rest s hport
  refine ⟨_, step_hardwareReset hport, rfl, rfl, rfl, rfl, rfl, rfl, fun i => Vector.getElem_replicate ..,
    fun i => Vector.getElem_replicate .., rfl, rfl, rfl, rfl, rfl, rfl, rfl, rfl, fun p => ?_⟩
  rw [hardwareReset_part]
  refine ⟨paramReset_toNat p, rfl, rfl, rfl, rfl, rfl, rfl, rfl, rfl, Part.reset_pkp p, rfl, rfl, fun i => ?_⟩
  exact ⟨Slot.reset, Part.reset_slots p i, rfl, rfl, rfl, rfl, Snap.reset_pr, rfl, rfl, rfl, rfl, rfl, rfl, rfl, rfl, rfl,
    rfl⟩

end Sys2Proof.Machine
end
